-- ==== Sys2Proof/Word.lean ====
section
/-! DEFINITION. The data word of the engine: the byte (00_scope R8 BYTE_W, R12). -/

namespace Sys2Proof

/-- Every data-path value is 8 bits wide (00_scope R8 BYTE_W; R12 "A *byte* is an unsigned integer in 0 to 255, 8 bits"). -/
abbrev Byte := BitVec 8

end Sys2Proof
end

