-- ==== Sys2Proof/Config.lean ====
section
/-! DEFINITION. What is fixed for one engine (its parameters) and what the environment answers, with the free values
that stand for what the spec leaves open (00_scope R8, R10; 93_implementation_defined U3, U4, U6, U10, U19). -/

namespace Sys2Proof

/-- The parameters the spec leaves OPEN (00_scope R8, 10_state R37). Each is stored as its excess over the least value
R8 admits, so that every value of this structure is an engine the spec admits. DESIGN CHOICE, safe: log 4. -/
structure Params where
  /-- MAX_READ_ATTEMPTS less one -/
  attemptsOverOne : Nat
  /-- DATA_READ_CAP less one -/
  dataCapOverOne : Nat
  /-- MAX_REQ_PAYLOAD less nine -/
  payloadOverNine : Nat
  /-- READ_TIMEOUT less one, in a unit the spec does not fix (60_exceptions R233: finite) -/
  timeoutOverOne : Nat
  /-- PARAM_ACK_MARKER, any byte (92_eei_decisions D19) -/
  paramAckMarker : Byte
  /-- `deoffset b` for the bytes below 0x20, which the source leaves open (R171, U6; log 15) -/
  deoffsetLow : Vector Byte 32
  deriving DecidableEq, Repr, Inhabited

/-- `MAX_READ_ATTEMPTS`: natural number, at least 1 (00_scope R8). -/
def Params.maxReadAttempts (p : Params) : Nat := p.attemptsOverOne + 1

/-- `DATA_READ_CAP`: natural number, at least 1 (00_scope R8). -/
def Params.dataReadCap (p : Params) : Nat := p.dataCapOverOne + 1

/-- `MAX_REQ_PAYLOAD`: natural number, at least 9 (00_scope R8). -/
def Params.maxReqPayload (p : Params) : Nat := p.payloadOverNine + 9

/-- `READ_TIMEOUT`: a finite duration above 0 (00_scope R8, 60_exceptions R233). No outcome depends on it. -/
def Params.readTimeout (p : Params) : Nat := p.timeoutOverOne + 1

/-- `RXBUF_CAP = MAX_READ_ATTEMPTS * DATA_READ_CAP` (00_scope R8, 92_eei_decisions D6). -/
def Params.rxbufCap (p : Params) : Nat := p.maxReadAttempts * p.dataReadCap

/-- `TXBUF_CAP = MAX_REQ_PAYLOAD + 6` (00_scope R8, 92_eei_decisions D32). -/
def Params.txbufCap (p : Params) : Nat := p.maxReqPayload + 6

/-- What `PortOpen` and `PortClose` answer (20_memory R59, R60). -/
inductive IoAnswer where
  | ok
  | ioErr
  deriving DecidableEq, Repr, Inhabited

/-- What `PortRead` answers (20_memory R57): bytes of the receive stream, possibly none, or a transport failure. -/
inductive ReadAnswer where
  | bytes (s : List Byte)
  | ioErr
  deriving DecidableEq, Repr, Inhabited

/-- What `PortWrite` answers (20_memory R58). After `ioErr` it is unspecified how many bytes reached the transmit
stream (93_implementation_defined U4): `sent` is that number, the environment's choice (log 8). -/
inductive WriteAnswer where
  | ok
  | ioErr (sent : Nat)
  deriving DecidableEq, Repr, Inhabited

/-- The parameters of the engine that runs from reset: no value is chosen (93_implementation_defined U19; log 4). -/
opaque Config.params : Params

/-- FREE VALUE: the answer of a `PortRead` the state's list does not give (00_scope R10; log 5). -/
opaque Config.freeRead : Nat → ReadAnswer

/-- FREE VALUE: the answer of a `PortWrite` the state's list does not give (00_scope R10; log 5). -/
opaque Config.freeWrite : Nat → WriteAnswer

/-- FREE VALUE: the answer of a `PortOpen` the state's list does not give (00_scope R10; log 5). -/
opaque Config.freeOpen : Nat → IoAnswer

/-- FREE VALUE: the answer of a `PortClose` the state's list does not give (00_scope R10; log 5). -/
opaque Config.freeClose : Nat → IoAnswer

end Sys2Proof
end

