-- ==== Sys2Proof/Syntax.lean ====
section
/-! DEFINITION. The operations, commands and wire items of spec/opcode_table.json (one constructor a row), and the
images in which they reach the engine (30_encoding R80, R95, R100). -/

namespace Sys2Proof

/-- The "instructions" of the engine in the sense of 00_scope R9: 16 host operations (format HOSTOP), 14 device
commands (REQ), 4 code bytes (CODE), the acknowledgment byte (ACKB) and the response data frame (RSP). -/
inductive Instr where
  -- HOSTOP, in the order of OPSEL (30_encoding R95)
  | checksum (s : List Byte)
  | buildReq (c : Byte) (p : List Byte)
  | parseResp (raw : List Byte)
  | connOpen (path : List Byte) (baud : Nat) (log : Bool)
  | connClose
  | sendReq (c : Byte) (p : List Byte)
  | readCode
  | readData
  | emitAck
  | respCycle
  | encNum (v : Nat)
  | decNum (b : Byte)
  | encItem (k : Nat)
  | command (c : Byte) (p : List Byte)
  | decodeReply (q : List Byte)
  | decodeStatus (q : List Byte)
  -- REQ, in the order of 30_encoding R89
  | status (args : List Nat)
  | purge (args : List Nat)
  | dispense (n : Nat)
  | testDispense (args : List Nat)
  | reset (args : List Nat)
  | lastStatus (args : List Nat)
  | configStatus (args : List Nat)
  | ddDiag (args : List Nat)
  | sensorDiag (args : List Nat)
  | snDispense (args : List Nat)
  | snEject (args : List Nat)
  | readParam (k : Nat)
  | writeParam (k : Nat) (v : List Byte)
  | testMode (args : List Nat)
  -- CODE (30_encoding R91)
  | ack
  | nack
  | eot
  | unrecognized (b : Byte)
  -- ACKB (30_encoding R86)
  | ackEmit
  -- RSP (30_encoding R85)
  | rspFrame (p : List Byte)
  deriving DecidableEq, Repr

/-- The typed arguments of a host operation (30_encoding R80 "a 4-bit number plus typed arguments", R95). -/
inductive Arg where
  | num (n : Nat)
  | byte (b : Byte)
  | bytes (s : List Byte)
  | flag (b : Bool)
  deriving DecidableEq, Repr

/-- The image in which an operation, command or wire item reaches the engine: one constructor a format of 30_encoding
R80, holding the bits R100 says its rows are matched over. DESIGN CHOICE, safe: log 3. -/
inductive Item where
  | hostop (opsel : BitVec 4) (args : List Arg)
  | req (frame : List Byte)
  | code (b : Byte)
  | ackb (b : Byte)
  | rsp (frame : List Byte)
  deriving DecidableEq, Repr

/-- What comes to the engine from outside: an item, or the reset event (70_reset_and_hazards R250), which is no operation
and not the device command RESET. -/
inductive Input where
  | item (it : Item)
  | engineReset
  deriving DecidableEq, Repr

/-- The code class of a code byte (10_state R24). -/
inductive CodeClass where
  | ack
  | nack
  | eot
  | errorUnrecognized
  deriving DecidableEq, Repr

end Sys2Proof
end

