-- ==== Sys2Proof/WellFormed.lean ====
section
/-! DEFINITION. When an operation is one the spec gives a meaning, as far as its syntax alone decides: the domains of
its number operands (42_command_surface R170, R172, R192) and, for the row UNRECOGNIZED, that no other CODE row matches
(30_encoding R100). The length bound MAX_REQ_PAYLOAD is a parameter and is tested when the operation runs. -/

namespace Sys2Proof

/-- `0 <= v <= 0xDF` (42_command_surface R170). -/
def numInDomain (v : Nat) : Bool := v ≤ 0xDF

/-- `0 <= k <= 999` (42_command_surface R172). -/
def itemInDomain (k : Nat) : Bool := k ≤ 999

/-- The well-formed terms of `Instr`. -/
def Instr.wellFormed : Instr → Bool
  | .checksum _ | .buildReq _ _ | .parseResp _ | .connOpen _ _ _ | .connClose | .sendReq _ _ => true
  | .readCode | .readData | .emitAck | .respCycle => true
  | .encNum v => numInDomain v
  | .decNum _ => true
  | .encItem k => itemInDomain k
  | .command _ _ | .decodeReply _ | .decodeStatus _ => true
  | .status a | .purge a | .testDispense a | .reset a | .lastStatus a | .configStatus a => a.all numInDomain
  | .ddDiag a | .sensorDiag a | .snDispense a | .snEject a | .testMode a => a.all numInDomain
  | .dispense n => numInDomain n
  | .readParam k => itemInDomain k
  | .writeParam k _ => itemInDomain k
  | .ack | .nack | .eot => true
  | .unrecognized b => b != 0x06 && b != 0x15 && b != 0x04
  | .ackEmit | .rspFrame _ => true

end Sys2Proof
end

