-- ==== Sys2Proof/Decode.lean ====
section
/-! DEFINITION. The wire formats and constants (30_encoding R80 to R95), the decoder of items, total and rejecting by
name, and after it the encoder; the table's rows as words (30_encoding R100). -/

namespace Sys2Proof

/-! ### Constants (30_encoding R81) -/

/-- RequestStart -/
def Wire.requestStart : Byte := 0x04
/-- ResponseStart -/
def Wire.responseStart : Byte := 0x01
/-- DeviceAddress, at offset 1 of both frame kinds -/
def Wire.deviceAddress : Byte := 0x30
/-- TextStart -/
def Wire.textStart : Byte := 0x02
/-- TextEnd -/
def Wire.textEnd : Byte := 0x03
/-- ACK, as a code byte and as the acknowledgment byte (R86) -/
def Wire.ack : Byte := 0x06
/-- NACK -/
def Wire.nack : Byte := 0x15
/-- EOT, the same value as RequestStart -/
def Wire.eot : Byte := 0x04
/-- NUM_OFFSET -/
def Wire.numOffset : Nat := 0x20

/-! ### Checksum and frames -/

/-- `CHECKSUM(s)`, the XOR fold from 0x00, left to right (40_frame_codec R120, 10_state R25). -/
def checksum (s : List Byte) : Byte := s.foldl (fun k b => k ^^^ b) 0x00

/-- Format REQ (30_encoding R83, 20_memory R63). -/
def reqFrame (c : Byte) (p : List Byte) : List Byte :=
  let body := [Wire.requestStart, Wire.deviceAddress, Wire.textStart, c] ++ p ++ [Wire.textEnd]
  body ++ [checksum body]

/-- Format RSP (30_encoding R85, 20_memory R62). -/
def rspFrame (p : List Byte) : List Byte :=
  let body := [Wire.responseStart, Wire.deviceAddress, Wire.textStart] ++ p ++ [Wire.textEnd]
  body ++ [checksum body]

/-- `classify(b)`, on all eight bits (30_encoding R91). -/
def classify (b : Byte) : CodeClass :=
  if b = Wire.ack then .ack else if b = Wire.nack then .nack else if b = Wire.eot then .eot else .errorUnrecognized

/-- The numbers of the code classes (10_state R24). They are labels (92_eei_decisions D15); no rule computes with them. -/
def CodeClass.number : CodeClass → BitVec 2
  | .ack => 0
  | .nack => 1
  | .eot => 2
  | .errorUnrecognized => 3

/-! ### Operand assembly (30_encoding R92, R93) -/

/-- `ENC_NUM(v) = v + 0x20`, one byte, used for `v <= 0xDF` only (42_command_surface R170). -/
def numByte (v : Nat) : Byte := BitVec.ofNat 8 (v + Wire.numOffset)

/-- `ENC_ITEM(k)`: three decimal digits, most significant first, used for `k <= 999` only (42_command_surface R172). -/
def itemText (k : Nat) : List Byte :=
  [BitVec.ofNat 8 (0x30 + k / 100), BitVec.ofNat 8 (0x30 + k / 10 % 10), BitVec.ofNat 8 (0x30 + k % 10)]

/-- The character `D` of the parameter text (30_encoding R93). -/
def Wire.letterD : Byte := 0x44
/-- The character `/` of the parameter text (30_encoding R93). -/
def Wire.slash : Byte := 0x2F

/-- Payload of a numeric command: `[ENC_NUM(a_1), .., ENC_NUM(a_k)]` (42_command_surface R192). -/
def numPayload (args : List Nat) : List Byte := args.map numByte

/-- Payload of READ_PARAM: `44 2F h t u` (30_encoding R93). -/
def readParamPayload (k : Nat) : List Byte := [Wire.letterD, Wire.slash] ++ itemText k

/-- Payload of WRITE_PARAM: `44 2F h t u 2F` and the value text (30_encoding R93). -/
def writeParamPayload (k : Nat) (v : List Byte) : List Byte :=
  [Wire.letterD, Wire.slash] ++ itemText k ++ [Wire.slash] ++ v

/-! ### The decoder -/

/-- Why an item is no operation: one name a cause. -/
inductive DecodeError where
  /-- the argument list of a host operation has not the shape 30_encoding R95 gives it -/
  | badArguments (opsel : BitVec 4)
  /-- a REQ or RSP frame has not the start, address and text start of 30_encoding R83, R85, or is cut short -/
  | badFrameHeader
  /-- the byte before the last of a frame is not TextEnd, or there is none -/
  | badTextEnd
  /-- the last byte of a frame is not its checksum -/
  | badFrameChecksum
  /-- a REQ frame carries a command code outside 30_encoding R89 (R90) -/
  | unassignedCommand (c : Byte)
  /-- the payload of a numeric command holds a byte no ENC_NUM gives, or not as many as the command takes -/
  | badNumbers (c : Byte)
  /-- the payload of a parameter command is not the text of 30_encoding R93 -/
  | badParamText (c : Byte)
  /-- an ACKB item is not the byte 0x06 (30_encoding R86) -/
  | notAckByte (b : Byte)
  deriving DecidableEq, Repr

/-- The two halves of what follows a frame's header: the payload, when the rest is `payload ++ [TextEnd, chk]` and
`chk` is the checksum of `header ++ payload ++ [TextEnd]`. TextEnd is found by position (30_encoding R88). -/
def splitFrame (header rest : List Byte) : Except DecodeError (List Byte) :=
  match rest.drop (rest.length - 2) with
  | [e, k] =>
    if e = Wire.textEnd then
      if k = checksum (header ++ rest.take (rest.length - 2) ++ [e]) then .ok (rest.take (rest.length - 2))
      else .error .badFrameChecksum
    else .error .badTextEnd
  | _ => .error .badTextEnd

/-- `DecodeReq(F)` (40_frame_codec R127): command code and payload of a request frame. -/
def decodeReqFrame : List Byte → Except DecodeError (Byte × List Byte)
  | a :: b :: t :: c :: rest =>
    if a = Wire.requestStart ∧ b = Wire.deviceAddress ∧ t = Wire.textStart then
      match splitFrame [a, b, t, c] rest with
      | .ok p => .ok (c, p)
      | .error e => .error e
    else .error .badFrameHeader
  | _ => .error .badFrameHeader

/-- The payload of a response data frame (30_encoding R85). -/
def decodeRspFrame : List Byte → Except DecodeError (List Byte)
  | a :: b :: t :: rest =>
    if a = Wire.responseStart ∧ b = Wire.deviceAddress ∧ t = Wire.textStart then splitFrame [a, b, t] rest
    else .error .badFrameHeader
  | _ => .error .badFrameHeader

/-- The numeric arguments of a request payload: each byte is 0x20 or above (30_encoding R92). -/
def payloadNums : List Byte → Option (List Nat)
  | [] => some []
  | b :: t =>
    if Wire.numOffset ≤ b.toNat then
      match payloadNums t with
      | some r => some ((b.toNat - Wire.numOffset) :: r)
      | none => none
    else none

/-- The item a 3-digit text names (30_encoding R93). -/
def itemOfText (h t u : Byte) : Option Nat :=
  if 0x30 ≤ h.toNat ∧ h.toNat ≤ 0x39 ∧ 0x30 ≤ t.toNat ∧ t.toNat ≤ 0x39 ∧ 0x30 ≤ u.toNat ∧ u.toNat ≤ 0x39 then
    some (100 * (h.toNat - 0x30) + 10 * (t.toNat - 0x30) + (u.toNat - 0x30))
  else none

/-- A numeric command's payload read back. -/
def withNums (c : Byte) (p : List Byte) (f : List Nat → Instr) : Except DecodeError Instr :=
  match payloadNums p with
  | some a => .ok (f a)
  | none => .error (.badNumbers c)

/-- DISPENSE takes one argument (42_command_surface R177). -/
def withOneNum (c : Byte) (p : List Byte) (f : Nat → Instr) : Except DecodeError Instr :=
  match payloadNums p with
  | some [n] => .ok (f n)
  | _ => .error (.badNumbers c)

/-- READ_PARAM's payload read back: `44 2F h t u`. -/
def withItem (c : Byte) (p : List Byte) (f : Nat → Instr) : Except DecodeError Instr :=
  match p with
  | [d, s, h, t, u] =>
    if d = Wire.letterD ∧ s = Wire.slash then
      match itemOfText h t u with
      | some k => .ok (f k)
      | none => .error (.badParamText c)
    else .error (.badParamText c)
  | _ => .error (.badParamText c)

/-- WRITE_PARAM's payload read back: `44 2F h t u 2F` and the value text. -/
def withItemValue (c : Byte) (p : List Byte) (f : Nat → List Byte → Instr) : Except DecodeError Instr :=
  match p with
  | d :: s :: h :: t :: u :: s' :: v =>
    if d = Wire.letterD ∧ s = Wire.slash ∧ s' = Wire.slash then
      match itemOfText h t u with
      | some k => .ok (f k v)
      | none => .error (.badParamText c)
    else .error (.badParamText c)
  | _ => .error (.badParamText c)

/-- The command a code and payload stand for: the fourteen codes of 30_encoding R89. -/
def decodeCommand (c : Byte) (p : List Byte) : Except DecodeError Instr :=
  if c = 0x40 then withNums c p .status
  else if c = 0x41 then withNums c p .purge
  else if c = 0x42 then withOneNum c p .dispense
  else if c = 0x43 then withNums c p .testDispense
  else if c = 0x44 then withNums c p .reset
  else if c = 0x45 then withNums c p .lastStatus
  else if c = 0x46 then withNums c p .configStatus
  else if c = 0x47 then withNums c p .ddDiag
  else if c = 0x48 then withNums c p .sensorDiag
  else if c = 0x4A then withNums c p .snDispense
  else if c = 0x4B then withNums c p .snEject
  else if c = 0x52 then withItem c p .readParam
  else if c = 0x57 then withItemValue c p .writeParam
  else if c = 0x54 then withNums c p .testMode
  else .error (.unassignedCommand c)

/-- The host operation an OPSEL and typed arguments stand for (30_encoding R95). -/
def decodeHostop (op : BitVec 4) (args : List Arg) : Except DecodeError Instr :=
  match op.toNat, args with
  | 0, [.bytes s] => .ok (.checksum s)
  | 1, [.byte c, .bytes p] => .ok (.buildReq c p)
  | 2, [.bytes raw] => .ok (.parseResp raw)
  | 3, [.bytes path, .num baud, .flag log] => .ok (.connOpen path baud log)
  | 4, [] => .ok .connClose
  | 5, [.byte c, .bytes p] => .ok (.sendReq c p)
  | 6, [] => .ok .readCode
  | 7, [] => .ok .readData
  | 8, [] => .ok .emitAck
  | 9, [] => .ok .respCycle
  | 10, [.num v] => .ok (.encNum v)
  | 11, [.byte b] => .ok (.decNum b)
  | 12, [.num k] => .ok (.encItem k)
  | 13, [.byte c, .bytes p] => .ok (.command c p)
  | 14, [.bytes q] => .ok (.decodeReply q)
  | 15, [.bytes q] => .ok (.decodeStatus q)
  | _, _ => .error (.badArguments op)

/-- The code byte row that matches (30_encoding R91, R100: UNRECOGNIZED is the default). -/
def decodeCode (b : Byte) : Instr :=
  match classify b with
  | .ack => .ack
  | .nack => .nack
  | .eot => .eot
  | .errorUnrecognized => .unrecognized b

/-- The decoder: total on every item. -/
def decode : Item → Except DecodeError Instr
  | .hostop op args => decodeHostop op args
  | .req f =>
    match decodeReqFrame f with
    | .ok (c, p) => decodeCommand c p
    | .error e => .error e
  | .code b => .ok (decodeCode b)
  | .ackb b => if b = Wire.ack then .ok .ackEmit else .error (.notAckByte b)
  | .rsp f =>
    match decodeRspFrame f with
    | .ok p => .ok (.rspFrame p)
    | .error e => .error e

/-! ### The encoder, from the same tables of the spec -/

/-- The item of an operation: OPSEL and typed arguments (30_encoding R95), request frame (R83, R89), code byte (R91),
acknowledgment byte (R86) or response data frame (R85). -/
def encode : Instr → Item
  | .checksum s => .hostop 0 [.bytes s]
  | .buildReq c p => .hostop 1 [.byte c, .bytes p]
  | .parseResp raw => .hostop 2 [.bytes raw]
  | .connOpen path baud log => .hostop 3 [.bytes path, .num baud, .flag log]
  | .connClose => .hostop 4 []
  | .sendReq c p => .hostop 5 [.byte c, .bytes p]
  | .readCode => .hostop 6 []
  | .readData => .hostop 7 []
  | .emitAck => .hostop 8 []
  | .respCycle => .hostop 9 []
  | .encNum v => .hostop 10 [.num v]
  | .decNum b => .hostop 11 [.byte b]
  | .encItem k => .hostop 12 [.num k]
  | .command c p => .hostop 13 [.byte c, .bytes p]
  | .decodeReply q => .hostop 14 [.bytes q]
  | .decodeStatus q => .hostop 15 [.bytes q]
  | .status a => .req (reqFrame 0x40 (numPayload a))
  | .purge a => .req (reqFrame 0x41 (numPayload a))
  | .dispense n => .req (reqFrame 0x42 (numPayload [n]))
  | .testDispense a => .req (reqFrame 0x43 (numPayload a))
  | .reset a => .req (reqFrame 0x44 (numPayload a))
  | .lastStatus a => .req (reqFrame 0x45 (numPayload a))
  | .configStatus a => .req (reqFrame 0x46 (numPayload a))
  | .ddDiag a => .req (reqFrame 0x47 (numPayload a))
  | .sensorDiag a => .req (reqFrame 0x48 (numPayload a))
  | .snDispense a => .req (reqFrame 0x4A (numPayload a))
  | .snEject a => .req (reqFrame 0x4B (numPayload a))
  | .readParam k => .req (reqFrame 0x52 (readParamPayload k))
  | .writeParam k v => .req (reqFrame 0x57 (writeParamPayload k v))
  | .testMode a => .req (reqFrame 0x54 (numPayload a))
  | .ack => .code 0x06
  | .nack => .code 0x15
  | .eot => .code 0x04
  | .unrecognized b => .code b
  | .ackEmit => .ackb 0x06
  | .rspFrame p => .rsp (rspFrame p)

/-! ### The rows of spec/opcode_table.json as words (30_encoding R100) -/

/-- A host operation's arguments of zeros: numbers and bytes 0, sequences empty, flags clear (30_encoding R95). -/
def zeroArgs (op : Nat) : List Arg :=
  match op with
  | 0 | 2 | 14 | 15 => [.bytes []]
  | 1 | 5 | 13 => [.byte 0, .bytes []]
  | 3 => [.bytes [], .num 0, .flag false]
  | 10 | 12 => [.num 0]
  | 11 => [.byte 0]
  | _ => []

/-- A command's payload with operands of zeros (42_command_surface R177, R186, R187, R192). -/
def zeroPayload (c : Byte) : List Byte :=
  if c = 0x42 then numPayload [0]
  else if c = 0x52 then readParamPayload 0
  else if c = 0x57 then writeParamPayload 0 []
  else []

/-- The `n` low bytes of `w`, the most significant first. -/
def bytesBE : Nat → Nat → List Byte
  | 0, _ => []
  | n + 1, w => BitVec.ofNat 8 (w / 256 ^ n) :: bytesBE n w

/-- The item a table word stands for. The table numbers a frame row's header with the byte at offset 0 most significant
(30_encoding R100); what the table gives no bits (arguments, payload, TextEnd, checksum) is completed with operands of
zeros. Words of 8 bits below 16 are OPSEL numbers, the others code bytes; this decides between rows of different formats
that share a word. DESIGN CHOICE, safe: log 3. -/
def tableItem (nbits w : Nat) : Item :=
  if nbits ≤ 8 then
    if w < 16 then .hostop (BitVec.ofNat 4 w) (zeroArgs w)
    else if w < 256 then .code (BitVec.ofNat 8 w)
    else .req []
  else if nbits = 24 then .rsp (if w = 0x013002 then rspFrame [] else bytesBE 3 w)
  else if nbits = 32 ∧ w / 256 = 0x043002 then .req (reqFrame (BitVec.ofNat 8 w) (zeroPayload (BitVec.ofNat 8 w)))
  else .req (bytesBE (nbits / 8) w)

/-- The instruction the decoder reads from a table word. -/
def decodeTableWord (nbits w : Nat) : Option Instr :=
  match decode (tableItem nbits w) with
  | .ok i => some i
  | .error _ => none

end Sys2Proof
end

