-- ==== Sys2Proof/Machine/State.lean ====
section
/-! DEFINITION. The state of the engine as plain data (10_state R20 to R38), the reasons a step can stop, and reset. -/

namespace Sys2Proof.Machine

/-- `PHASE` (10_state R21). -/
inductive Phase where
  | idle
  | requestSent
  | awaitingAck
  | awaitingData
  | awaitingEot
  | complete
  | failed
  deriving DecidableEq, Repr

/-- The eight error kinds (60_exceptions R210). -/
inductive ErrKind where
  | ioError
  | retryExhausted
  | formatError
  | checksumError
  | responseNotAck
  | responseNotEot
  | illegalCommand
  | connectionClosed
  deriving DecidableEq, Repr

/-- The status record of 42_command_surface R197: a field is present exactly when its valid bit is 1. -/
structure StatusRecord where
  feedSensorBlocked : Option Bool
  exitSensorBlocked : Option Bool
  resetSinceLastStatus : Option Bool
  timingWheelSensorBlocked : Option Bool
  calibratingDoubleDetect : Option Bool
  averageThickness : Option Nat
  averageLength : Option Nat
  deriving DecidableEq, Repr

/-- The reply record of 42_command_surface R174: a field is present exactly when its valid bit is 1. `status` is the
field STATUS adds (R175), `text` the one READ_PARAM and WRITE_PARAM add (R186, R187). -/
structure ReplyRecord where
  payload : List Byte
  result : Option Byte
  field1 : Option Nat
  field2 : Option Nat
  status : Option StatusRecord
  text : Option (List Byte)
  deriving DecidableEq, Repr

/-- The result values of the operations (30_encoding R95 "result on Ok"). -/
inductive Value where
  | unit
  | byte (b : Byte)
  | bytes (s : List Byte)
  | num (n : Nat)
  | codeClass (c : CodeClass)
  | reply (r : ReplyRecord)
  | status (r : StatusRecord)
  deriving DecidableEq, Repr

/-- How an operation ends: "`Ok(v)` with a result value `v`" or "`Fail(K)`" (00_scope R17). -/
inductive OpResult where
  | ok (v : Value)
  | fail (k : ErrKind)
  deriving DecidableEq, Repr

/-- The parity settings of a serial port; the engine only ever asks for even (20_memory R59). -/
inductive Parity where
  | none
  | even
  | odd
  deriving DecidableEq, Repr

/-- The configuration handed to `PortOpen` (20_memory R59). -/
structure OpenCfg where
  path : List Byte
  baud : Nat
  parity : Parity
  stopBits : Nat
  dataBits : Nat
  readTimeout : Nat
  deriving DecidableEq, Repr

/-- One transaction on the port and its answer (20_memory R56 to R60), or the mark a reset of the engine leaves in the
record, which is no transaction (70_reset_and_hazards R250; log 30). -/
inductive Action where
  | opened (cfg : OpenCfg) (a : IoAnswer)
  | closed (a : IoAnswer)
  | wrote (s : List Byte) (a : WriteAnswer)
  | got (cap : Nat) (a : ReadAnswer)
  | engineReset
  deriving DecidableEq, Repr

/-- A port transaction, or a reset, with the value `PHASE` had when it was issued (log 21). -/
structure Event where
  phase : Phase
  act : Action
  deriving DecidableEq, Repr

/-- The direction of a log record (00_scope R16). -/
inductive Dir where
  | tx
  | rx
  deriving DecidableEq, Repr

/-- What the logging tap was offered: `Log(dir, s)` (10_state R33). -/
structure TapRecord where
  dir : Dir
  bytes : List Byte
  deriving DecidableEq, Repr

/-- A buffer's bytes by offset: offsets strictly rising, no entry equal to what an offset not listed reads as. -/
abbrev Memory := List Host.Cell

/-- The state of the engine, its host interface and its environment. -/
structure State where
  /-- CHK (10_state R25) -/
  chk : Byte
  /-- ATT (10_state R26) -/
  att : Nat
  /-- RXLEN (10_state R27) -/
  rxlen : Nat
  /-- TXLEN (10_state R28) -/
  txlen : Nat
  /-- CODE (10_state R20) -/
  code : Byte
  /-- CLEN (10_state R20) -/
  clen : BitVec 1
  /-- CMD (10_state R20) -/
  cmd : Byte
  /-- PAYLEN (10_state R20) -/
  paylen : Nat
  /-- PHASE (10_state R21) -/
  phase : Phase
  /-- ERR (10_state R23); `none` is code 0, None -/
  err : Option ErrKind
  /-- CONN_OPEN (10_state R30) -/
  connOpen : Bool
  /-- ACK_WR_ERR (10_state R31) -/
  ackWrErr : Bool
  /-- BUSY (10_state R34) -/
  busy : Bool
  /-- PATH (10_state R32) -/
  path : List Byte
  /-- BAUD (10_state R32) -/
  baud : Nat
  /-- LOG_EN (10_state R32) -/
  logEn : Bool
  /-- RXBUF (10_state R27) -/
  rxbuf : Memory
  /-- TXBUF (10_state R28) -/
  txbuf : Memory
  /-- what the logging tap was offered, oldest first (10_state R33; log 19) -/
  tap : List TapRecord
  /-- how the last host operation ended (00_scope R17; log 20) -/
  result : Option OpResult
  /-- what comes to the engine next, oldest first (00_scope R9, R10, 70_reset_and_hazards R250; log 2) -/
  inbox : List Input
  /-- answers of the coming `PortRead`s, first one first (10_state R36, 30_encoding R96; log 5) -/
  reads : List ReadAnswer
  /-- answers of the coming `PortWrite`s (log 5) -/
  writes : List WriteAnswer
  /-- answers of the coming `PortOpen`s (log 5) -/
  opens : List IoAnswer
  /-- answers of the coming `PortClose`s (log 5) -/
  closes : List IoAnswer
  /-- how many free answers have been taken (log 5) -/
  draws : Nat
  /-- the port transactions issued so far and the resets among them, oldest first (20_memory R66; log 21, log 30) -/
  trace : List Event
  /-- the parameters of this engine (00_scope R8); no operation writes them (log 4) -/
  params : Params
  deriving DecidableEq, Repr

/-- The reasons a step ends in a fault: none. The spec gives the engine no fault; every failure is an architected
outcome and a next state (00_scope R17). Safe (log 23). -/
inductive Fault where
  deriving DecidableEq, Repr

/-- The reasons an invocation is refused: the spec gives it no meaning (00_scope R17, 93_implementation_defined). All
are safe: nothing is claimed of what the engine does then. -/
inductive Refusal where
  /-- an arm of `exec` whose instruction has no meaning yet (none is left). Safe. -/
  | notModelled (mnemonic : String)
  /-- `step`: what is presented is no invocation (00_scope R17): a host operation without the operands 30_encoding R95
  gives it, bytes that are no request frame (R83), a byte other than 0x06 as the acknowledgment byte (R86). Safe. -/
  | undecodable (e : DecodeError)
  /-- every operation: invoked while BUSY = 1 (20_memory R69, U1). Safe. -/
  | invokedWhileBusy
  /-- CONN_OPEN while CONN_OPEN = 1 (41_handshake_engine R141, U11). Safe. -/
  | alreadyOpen
  /-- ENC_NUM and the numeric commands: a number above 0xDF (42_command_surface R170, U12). Safe. -/
  | numberOutOfDomain (v : Nat)
  /-- ENC_ITEM and the parameter commands: an item above 999 (42_command_surface R172, U12). Safe. -/
  | itemOutOfDomain (k : Nat)
  /-- BUILD_REQ, SEND_REQ, COMMAND and the commands: payload above MAX_REQ_PAYLOAD (40_frame_codec R123 (e), U12).
  Safe. -/
  | payloadTooLong (len : Nat)
  deriving DecidableEq, Repr

/-- The numbers of the phases (10_state R21). -/
def Phase.number : Phase → BitVec 3
  | .idle => 0
  | .requestSent => 1
  | .awaitingAck => 2
  | .awaitingData => 3
  | .awaitingEot => 4
  | .complete => 5
  | .failed => 6

/-- The numbers of the error kinds (60_exceptions R210). -/
def ErrKind.number : ErrKind → BitVec 4
  | .ioError => 1
  | .retryExhausted => 2
  | .formatError => 3
  | .checksumError => 4
  | .responseNotAck => 5
  | .responseNotEot => 6
  | .illegalCommand => 7
  | .connectionClosed => 8

/-- The engine right after reset (10_state R38, 70_reset_and_hazards R250): CONN_OPEN = 0, PHASE = Idle, ERR = None,
ACK_WR_ERR = 0, LOG_EN = 0, BUSY = 0. The registers R38 leaves unspecified hold the values of log 10, the buffers those
of log 11; nothing has been presented, no port transaction has been issued, every answer of the environment is free
(log 5) and the parameters are those of `Config.params` (log 4). -/
def State.reset : State where
  chk := 0x00
  att := 0
  rxlen := 0
  txlen := 0
  code := 0x00
  clen := 0
  cmd := 0x00
  paylen := 0
  phase := .idle
  err := none
  connOpen := false
  ackWrErr := false
  busy := false
  path := []
  baud := 0
  logEn := false
  rxbuf := []
  txbuf := []
  tap := []
  result := none
  inbox := []
  reads := []
  writes := []
  opens := []
  closes := []
  draws := 0
  trace := []
  params := Config.params

end Sys2Proof.Machine
end

