-- ==== Sys2Proof/Machine/Ops.lean ====
section
/-! DEFINITION. The named operations every meaning is written over: buffers, port transactions, the logging tap, the
start and end of a host operation, and the failure entry `raise` (00_scope R16, 20_memory R50 to R66, 60_exceptions
R226), the reset event (70_reset_and_hazards R250). -/

namespace Sys2Proof.Machine

/-! ### Buffers (20_memory R50 to R55) -/

/-- What an offset not listed reads as. The spec gives the buffers no reset contents (10_state R38). DESIGN CHOICE,
unsafe: log 11. -/
def Memory.unlisted : Byte := 0x00

/-- The byte at an offset. -/
def Memory.read (m : Memory) (a : Nat) : Byte :=
  match m with
  | [] => Memory.unlisted
  | c :: t => if c.1 = a then c.2 else Memory.read t a

/-- Without an entry for the offset. -/
def Memory.forget (m : Memory) (a : Nat) : Memory := m.filter (fun c => c.1 != a)

/-- With an entry put before the first higher offset. -/
def Memory.place (m : Memory) (a : Nat) (b : Byte) : Memory :=
  match m with
  | [] => [(a, b)]
  | c :: t => if a < c.1 then (a, b) :: c :: t else c :: Memory.place t a b

/-- One byte written; a byte equal to what an unlisted offset reads as leaves no entry. -/
def Memory.write (m : Memory) (a : Nat) (b : Byte) : Memory :=
  if b = Memory.unlisted then Memory.forget m a else Memory.place (Memory.forget m a) a b

/-- `MemRead(B, i, n)` (00_scope R16). -/
def Memory.readRange (m : Memory) (i : Nat) : Nat → List Byte
  | 0 => []
  | n + 1 => Memory.read m i :: Memory.readRange m (i + 1) n

/-- `MemWrite(B, i, n, v)`, in ascending offset (00_scope R16, 20_memory R55). -/
def Memory.writeRange (m : Memory) (i : Nat) : List Byte → Memory
  | [] => m
  | b :: t => Memory.writeRange (Memory.write m i b) (i + 1) t

/-- The canonical form: offsets strictly rising, no entry equal to what an unlisted offset reads as. -/
abbrev Memory.wf (m : Memory) : Prop :=
  m.Pairwise (fun c d => c.1 < d.1) ∧ ∀ c ∈ m, c.2 ≠ Memory.unlisted

/-- `append(RXBUF, s)` (00_scope R16, 20_memory R51). -/
def appendRx (b : List Byte) (s : State) : State :=
  { s with rxbuf := Memory.writeRange s.rxbuf s.rxlen b, rxlen := s.rxlen + b.length }

/-- `append(TXBUF, s)` (00_scope R16, 20_memory R52). -/
def appendTx (b : List Byte) (s : State) : State :=
  { s with txbuf := Memory.writeRange s.txbuf s.txlen b, txlen := s.txlen + b.length }

/-- `RXBUF[0 .. RXLEN-1]` -/
def rxBytes (s : State) : List Byte := Memory.readRange s.rxbuf 0 s.rxlen

/-- `TXBUF[0 .. TXLEN-1]` -/
def txBytes (s : State) : List Byte := Memory.readRange s.txbuf 0 s.txlen

/-- The payload view `RXBUF[3 .. 3+PAYLEN-1]` (10_state R20, R39). -/
def payloadView (s : State) : List Byte := Memory.readRange s.rxbuf 3 s.paylen

/-! ### Registers of the loops and of the connection -/

/-- `CLEN <- 0; ATT <- 0` (41_handshake_engine R144). -/
def startCode (s : State) : State := { s with clen := 0, att := 0 }

/-- `RXLEN <- 0; ATT <- 0` (41_handshake_engine R146). -/
def startData (s : State) : State := { s with rxlen := 0, att := 0 }

/-- `ATT <- ATT + 1`, immediately before a `PortRead` (10_state R26). -/
def countAttempt (s : State) : State := { s with att := s.att + 1 }

/-- `PAYLEN <- n` (40_frame_codec R124). -/
def setPaylen (n : Nat) (s : State) : State := { s with paylen := n }

/-- `CMD <- c; TXLEN <- 0` (40_frame_codec R122). -/
def startRequest (c : Byte) (s : State) : State := { s with cmd := c, txlen := 0 }

/-- `PATH <- path; BAUD <- baud; LOG_EN <- log` (41_handshake_engine R141). -/
def configure (path : List Byte) (baud : Nat) (log : Bool) (s : State) : State :=
  { s with path := path, baud := baud, logEn := log }

/-- `CONN_OPEN <- 1; ACK_WR_ERR <- 0; PHASE <- Idle` (41_handshake_engine R141). -/
def connect (s : State) : State := { s with connOpen := true, ackWrErr := false, phase := .idle }

/-- `CONN_OPEN <- 0` (41_handshake_engine R142). -/
def disconnect (s : State) : State := { s with connOpen := false }

/-! ### How an operation ends inside the engine (00_scope R16, R17) -/

/-- `return v`, or the unwinding a `raise K` starts, with the state reached. -/
inductive Res (α : Type) where
  | ok (v : α) (s : State)
  | fail (k : ErrKind) (s : State)

/-- The next step of a running operation; after a failure no further step is executed (60_exceptions R226). -/
def Res.bind {α β : Type} (r : Res α) (f : α → State → Res β) : Res β :=
  match r with
  | .ok v s => f v s
  | .fail k s => .fail k s

/-- The state an operation has reached. -/
def Res.state {α : Type} : Res α → State
  | .ok _ s => s
  | .fail _ s => s

/-- What `raise K` writes: ERR and PHASE (60_exceptions R226, R227). -/
def enterFailed (k : ErrKind) (s : State) : State := { s with err := some k, phase := .failed }

/-- `raise K` (60_exceptions R226, R227): ERR and PHASE are written, nothing else; the operation and every operation
that called it end with Fail(K). -/
def raise {α : Type} (k : ErrKind) (s : State) : Res α := .fail k (enterFailed k s)

/-! ### Start and end of a host operation -/

/-- The invocation: BUSY = 1 (10_state R34) and ERR = None ("written to 0 at the start of every host-invoked
operation", 10_state R23; 60_exceptions R228; log 9). -/
def beginOp (s : State) : State := { s with busy := true, err := none }

/-- The result is delivered and BUSY = 0 (10_state R34, 60_exceptions R226). -/
def deliver (r : Res Value) : State :=
  match r with
  | .ok v s => { s with busy := false, result := some (.ok v) }
  | .fail k s => { s with busy := false, result := some (.fail k) }

/-- One host operation from invocation to result. It is refused while BUSY = 1 (20_memory R69) and when its arguments
or the connection flag are outside what the spec gives a meaning (`refusal`; 00_scope R17); else it ends in a next
state, whether with Ok or with Fail (00_scope R17). -/
def invoke (refusal : Option Refusal) (body : State → Res Value) (s : State) : Host.Outcome State Fault Refusal :=
  if s.busy then .refused .invokedWhileBusy
  else
    match refusal with
    | some r => .refused r
    | none => .next (deliver (body (beginOp s)))

/-- An operation's result as a result value. -/
def Res.give {α : Type} (r : Res α) (f : α → Value) : Res Value := r.bind fun v s => .ok (f v) s

/-! ### The port (20_memory R56 to R61) -/

/-- The first answer of a list, what is left, and the counter; a list that is used up gives the free answer numbered
by the counter (log 5). -/
def nextAnswer {α : Type} (free : Nat → α) (l : List α) (n : Nat) : α × List α × Nat :=
  match l with
  | [] => (free n, [], n + 1)
  | a :: t => (a, t, n)

/-- An answer of at most `cap` bytes: of a longer one the first `cap` bytes are returned and the rest stays next in
the receive stream (20_memory R57, R61; log 6). -/
def capAnswer (cap : Nat) (a : ReadAnswer) (t : List ReadAnswer) : ReadAnswer × List ReadAnswer :=
  match a with
  | .ioErr => (.ioErr, t)
  | .bytes b => if b.length ≤ cap then (.bytes b, t) else (.bytes (b.take cap), .bytes (b.drop cap) :: t)

/-- What a `PortRead(cap)` answers. -/
def readAnswer (cap : Nat) (s : State) : ReadAnswer :=
  (capAnswer cap (nextAnswer Config.freeRead s.reads s.draws).1 (nextAnswer Config.freeRead s.reads s.draws).2.1).1

/-- The state after a `PortRead(cap)`: the receive stream and the record of transactions move on. -/
def portRead (cap : Nat) (s : State) : State :=
  { s with
    reads :=
      (capAnswer cap (nextAnswer Config.freeRead s.reads s.draws).1
        (nextAnswer Config.freeRead s.reads s.draws).2.1).2
    draws := (nextAnswer Config.freeRead s.reads s.draws).2.2
    trace := s.trace ++ [⟨s.phase, .got cap (readAnswer cap s)⟩] }

/-- What a `PortWrite` answers. -/
def writeAnswer (s : State) : WriteAnswer := (nextAnswer Config.freeWrite s.writes s.draws).1

/-- The state after `PortWrite(b)`, the whole of `b` in one transaction (20_memory R58). -/
def portWrite (b : List Byte) (s : State) : State :=
  { s with
    writes := (nextAnswer Config.freeWrite s.writes s.draws).2.1
    draws := (nextAnswer Config.freeWrite s.writes s.draws).2.2
    trace := s.trace ++ [⟨s.phase, .wrote b (writeAnswer s)⟩] }

/-- The configuration `PortOpen` is given: even parity, 1 stop bit, 7 data bits (20_memory R59). -/
def openCfg (s : State) : OpenCfg :=
  { path := s.path, baud := s.baud, parity := .even, stopBits := 1, dataBits := 7, readTimeout := s.params.readTimeout }

/-- What a `PortOpen` answers (20_memory R59). -/
def openAnswer (s : State) : IoAnswer := (nextAnswer Config.freeOpen s.opens s.draws).1

/-- The state after `PortOpen`. What the receive stream held stays in it: whether opening empties the transport's queue is
the environment's (93_implementation_defined U18). DESIGN CHOICE, unsafe: log 31. -/
def portOpen (s : State) : State :=
  { s with
    opens := (nextAnswer Config.freeOpen s.opens s.draws).2.1
    draws := (nextAnswer Config.freeOpen s.opens s.draws).2.2
    trace := s.trace ++ [⟨s.phase, .opened (openCfg s) (openAnswer s)⟩] }

/-- What a `PortClose` answers (20_memory R60). -/
def closeAnswer (s : State) : IoAnswer := (nextAnswer Config.freeClose s.closes s.draws).1

/-- The state after `PortClose`. As after `portOpen`, what the receive stream held stays in it (log 31). -/
def portClose (s : State) : State :=
  { s with
    closes := (nextAnswer Config.freeClose s.closes s.draws).2.1
    draws := (nextAnswer Config.freeClose s.closes s.draws).2.2
    trace := s.trace ++ [⟨s.phase, .closed (closeAnswer s)⟩] }

/-- The transmit stream: the bytes of every write that answered Ok, and after IoErr as many leading bytes as the answer
says (20_memory R50, R58, R61; log 8). -/
def sentBytes : List Event → List Byte
  | [] => []
  | e :: t =>
    match e.act with
    | .wrote b .ok => b ++ sentBytes t
    | .wrote b (.ioErr n) => b.take n ++ sentBytes t
    | _ => sentBytes t

/-- What the reads have taken from the receive stream (20_memory R61). -/
def receivedBytes : List Event → List Byte
  | [] => []
  | e :: t =>
    match e.act with
    | .got _ (.bytes b) => b ++ receivedBytes t
    | _ => receivedBytes t

/-- `Log(dir, s)`: offered when LOG_EN = 1 (10_state R33, 20_memory R72). -/
def logTap (d : Dir) (b : List Byte) (s : State) : State :=
  { s with tap := if s.logEn then s.tap ++ [⟨d, b⟩] else s.tap }

/-- `Log(RX, s)` of a read: only when it returned bytes (20_memory R72, 41_handshake_engine R146). -/
def logRead (b : List Byte) (s : State) : State := if b = [] then s else logTap .rx b s

/-! ### The environment's next bytes -/

/-- The device has sent `b`: it comes behind all that is in the receive stream already, since bytes are returned in the
order they were sent (20_memory R61, 10_state R36; log 14). -/
def arriving (b : List Byte) (s : State) : State := { s with reads := s.reads ++ [.bytes b] }

/-- What is presented to the engine next (00_scope R10; log 2). -/
def fetch (s : State) : Option (Input × State) :=
  match s.inbox with
  | [] => none
  | x :: t => some (x, { s with inbox := t })

/-! ### The reset event -/

/-- Reset of the engine in any state it has reached (70_reset_and_hazards R250): every register and both buffers take
their values after reset (10_state R38; log 10, log 11). No port transaction is issued: a port that is open is not closed
and nothing is flushed, so all that is the environment's or the host's stays: the answers to come, the transactions made,
what was offered to the tap, what is presented next. The record only gets a mark (log 30). -/
def resetEngine (s : State) : State :=
  { State.reset with
    tap := s.tap
    inbox := s.inbox
    reads := s.reads
    writes := s.writes
    opens := s.opens
    closes := s.closes
    draws := s.draws
    trace := s.trace ++ [⟨s.phase, .engineReset⟩]
    params := s.params }

end Sys2Proof.Machine
end

