-- ==== Sys2Proof/Machine/Operands.lean ====
section
/-! DEFINITION. Operand forms: the tests of the operand domains, the reading of received numbers, the reply record and
the status record (42_command_surface R170 to R174, R189, R192, R197). -/

namespace Sys2Proof.Machine

/-! ### Domains (93_implementation_defined U12) -/

/-- A request payload is refused when it is longer than MAX_REQ_PAYLOAD (40_frame_codec R123 (e)). -/
def refusePayload (s : State) (p : List Byte) : Option Refusal :=
  if p.length ≤ s.params.maxReqPayload then none else some (.payloadTooLong p.length)

/-- A number above 0xDF is refused (42_command_surface R170). -/
def refuseNum (v : Nat) : Option Refusal := if numInDomain v then none else some (.numberOutOfDomain v)

/-- The first number above 0xDF is refused (42_command_surface R192). -/
def refuseNums (args : List Nat) : Option Refusal :=
  match args with
  | [] => none
  | v :: t => if numInDomain v then refuseNums t else some (.numberOutOfDomain v)

/-- An item above 999 is refused (42_command_surface R172). -/
def refuseItem (k : Nat) : Option Refusal := if itemInDomain k then none else some (.itemOutOfDomain k)

/-- The first refusal that applies. -/
def firstRefusal (a b : Option Refusal) : Option Refusal :=
  match a with
  | some r => some r
  | none => b

/-! ### Numbers received (42_command_surface R171) -/

/-- `deoffset(b)`: `b - 0x20` for `b >= 0x20`; below that the parameter of the engine (42_command_surface R171, U6;
log 15). -/
def deoffset (p : Params) (b : Byte) : Byte := if h : b.toNat < 32 then p.deoffsetLow[b.toNat] else b - 0x20

/-- `DEC_NUM(b)`, a number (42_command_surface R171). -/
def decNum (p : Params) (b : Byte) : Nat := (deoffset p b).toNat

/-! ### Records -/

/-- `DECODE_REPLY(Q)` (42_command_surface R174). -/
def decodeReply (p : Params) (q : List Byte) : ReplyRecord :=
  { payload := q
    result := q[0]?
    field1 := q[1]?.map (decNum p)
    field2 := q[2]?.map (decNum p)
    status := none
    text := none }

/-- Bit `i` of a byte, bit 0 the least significant (00_scope R13). -/
def bitOf (b : Byte) (i : Nat) : Bool := b.getLsbD i

/-- `DECODE_STATUS(Q)` (42_command_surface R197); the flag bytes are read raw. -/
def decodeStatus (p : Params) (q : List Byte) : StatusRecord :=
  { feedSensorBlocked := q[0]?.map (bitOf · 0)
    exitSensorBlocked := q[0]?.map (bitOf · 1)
    resetSinceLastStatus := q[0]?.map (bitOf · 3)
    timingWheelSensorBlocked := q[0]?.map (bitOf · 4)
    calibratingDoubleDetect := q[1]?.map (bitOf · 4)
    averageThickness := q[2]?.map (decNum p)
    averageLength := q[3]?.map (decNum p) }

/-- `CheckParamAck(Q)` (42_command_surface R189). -/
def checkParamAck (q : List Byte) (s : State) : Res Unit :=
  if q[0]? = some s.params.paramAckMarker then .ok () s else raise .illegalCommand s

end Sys2Proof.Machine
end

