-- ==== Sys2Proof/Machine/Flags.lean ====
section
/-! DEFINITION. The flag-like bits (10_state R29): the connection check, the sticky acknowledgment flag, the one-byte
code buffer's CLEN, and the tail condition. No operation computes a carry, zero, sign or overflow flag. -/

namespace Sys2Proof.Machine

/-- The connection check, the first action of every port-touching operation: `if CONN_OPEN = 0: raise
ConnectionClosed` (41_handshake_engine R140). -/
def needOpen {α : Type} (s : State) (f : State → Res α) : Res α := if s.connOpen then f s else raise .connectionClosed s

/-- ACK_WR_ERR after the acknowledgment write answered `a`: set, never cleared (10_state R31, 41_handshake_engine R148). -/
def noteAckWrite (a : WriteAnswer) (s : State) : State :=
  match a with
  | .ok => s
  | .ioErr _ => { s with ackWrErr := true }

/-- The code byte enters the one-byte buffer: CODE and CLEN (41_handshake_engine R144). -/
def latchCode (b : Byte) (s : State) : State := { s with code := b, clen := 1 }

/-- `TailCondition()`: RXLEN >= 2 and RXBUF[RXLEN-2] = 0x03 (41_handshake_engine R147). -/
def tailCondition (s : State) : Bool := 2 ≤ s.rxlen && Memory.read s.rxbuf (s.rxlen - 2) == Wire.textEnd

/-- A transition of the handshake state machine, `PHASE <- p` (00_scope R16, 41_handshake_engine R150). -/
def setPhase (p : Phase) (s : State) : State := { s with phase := p }

/-- The number ERR reads as: 0 for None (10_state R23). -/
def errNumber (s : State) : BitVec 4 :=
  match s.err with
  | none => 0
  | some k => k.number

end Sys2Proof.Machine
end

