-- ==== Sys2Proof/Machine/Codec.lean ====
section
/-! DEFINITION. The Frame Codec: CHECKSUM, BUILD_REQ, PARSE_RESP (40_frame_codec R120 to R126). -/

namespace Sys2Proof.Machine

/-- `CHECKSUM(s)` as an operation: CHK ends as the fold (40_frame_codec R120, 10_state R25). -/
def foldChk (b : List Byte) (s : State) : State := { s with chk := checksum b }

/-- `BUILD_REQ(c, P)` (40_frame_codec R122), append by append. -/
def buildReq (c : Byte) (p : List Byte) (s : State) : State :=
  let s := startRequest c s
  let s := appendTx [Wire.requestStart, Wire.deviceAddress, Wire.textStart, c] s
  let s := appendTx p s
  let s := appendTx [Wire.textEnd] s
  let s := foldChk (txBytes s) s
  appendTx [s.chk] s

/-- Check 3 of `PARSE_RESP` and its result, on what is left without the checksum byte (40_frame_codec R124). -/
def parseMarkers (body : List Byte) (s : State) : Res (List Byte) :=
  if body.length < 3 then raise .formatError s
  else if body[2]? ≠ some Wire.textStart then raise .formatError s
  else if body[body.length - 1]? ≠ some Wire.textEnd then raise .formatError s
  else .ok ((body.drop 3).dropLast) (setPaylen (body.length - 4) s)

/-- `PARSE_RESP(raw)` (40_frame_codec R124): header, then checksum, then markers. -/
def parseResp (raw : List Byte) (s : State) : Res (List Byte) :=
  if raw.length < 2 then raise .formatError s
  else if raw[0]? ≠ some Wire.responseStart ∨ raw[1]? ≠ some Wire.deviceAddress then raise .formatError s
  else
    let s := foldChk raw.dropLast s
    if raw[raw.length - 1]? ≠ some s.chk then raise .checksumError s else parseMarkers raw.dropLast s

/-- CHECKSUM: result the byte; CHK written (40_frame_codec R120). -/
def execChecksum (b : List Byte) (s : State) : Host.Outcome State Fault Refusal :=
  invoke none (fun s => .ok (.byte (foldChk b s).chk) (foldChk b s)) s

/-- BUILD_REQ: result the frame, left in TXBUF; a payload above MAX_REQ_PAYLOAD is refused (40_frame_codec R122, R123). -/
def execBuildReq (c : Byte) (p : List Byte) (s : State) : Host.Outcome State Fault Refusal :=
  invoke (refusePayload s p) (fun s => .ok (.bytes (txBytes (buildReq c p s))) (buildReq c p s)) s

/-- PARSE_RESP on the byte sequence given; RXBUF is not written (40_frame_codec R124; log 13). -/
def execParseResp (raw : List Byte) (s : State) : Host.Outcome State Fault Refusal :=
  invoke none (fun s => (parseResp raw s).give .bytes) s

end Sys2Proof.Machine
end

