-- ==== Sys2Proof/Machine/Handshake.lean ====
section
/-! DEFINITION. The Handshake Engine: CONN_OPEN, CONN_CLOSE, SEND_REQ, READ_CODE, READ_DATA, EMIT_ACK, RESP_CYCLE
(41_handshake_engine R140 to R153). -/

namespace Sys2Proof.Machine

/-- The most bytes one `PortRead` of READ_CODE may return (00_scope R8, 92_eei_decisions D5). -/
def codeReadCap : Nat := 1

/-- The body of CONN_OPEN (41_handshake_engine R141). PATH, BAUD and LOG_EN are written before `PortOpen`. -/
def connOpenBody (path : List Byte) (baud : Nat) (log : Bool) (s : State) : Res Unit :=
  let s := configure path baud log s
  match openAnswer s with
  | .ioErr => raise .ioError (portOpen s)
  | .ok => .ok () (connect (portOpen s))

/-- The body of CONN_CLOSE (41_handshake_engine R142): the flag is cleared whatever `PortClose` answers. -/
def connCloseBody (s : State) : Res Unit :=
  needOpen s fun s =>
    match closeAnswer s with
    | .ioErr => raise .ioError (disconnect (portClose s))
    | .ok => .ok () (disconnect (portClose s))

/-- `SEND_REQ(c, P)` (41_handshake_engine R143): the whole frame in one write. -/
def sendReq (c : Byte) (p : List Byte) (s : State) : Res Unit :=
  needOpen s fun s =>
    let s := buildReq c p s
    let s := logTap .tx (txBytes s) s
    match writeAnswer s with
    | .ioErr _ => raise .ioError (portWrite (txBytes s) s)
    | .ok => .ok () (setPhase .requestSent (portWrite (txBytes s) s))

/-- The loop of READ_CODE with `n` reads left, ATT + n = MAX_READ_ATTEMPTS (41_handshake_engine R144, R152). -/
def readCodeLoop : Nat → State → Res CodeClass
  | 0, s => raise .retryExhausted s
  | n + 1, s =>
    let s := countAttempt s
    match readAnswer codeReadCap s with
    | .ioErr => raise .ioError (portRead codeReadCap s)
    | .bytes [] => readCodeLoop n (portRead codeReadCap s)
    | .bytes (b :: _) => .ok (classify b) (latchCode b (logTap .rx [b] (portRead codeReadCap s)))

/-- `READ_CODE()` (41_handshake_engine R144). -/
def readCode (s : State) : Res CodeClass :=
  needOpen s fun s => readCodeLoop s.params.maxReadAttempts (startCode s)

/-- The loop of READ_DATA with `n` reads left, ATT + n = MAX_READ_ATTEMPTS (41_handshake_engine R146, R152). -/
def readDataLoop : Nat → State → Res (List Byte)
  | 0, s => raise .retryExhausted s
  | n + 1, s =>
    let s := countAttempt s
    match readAnswer s.params.dataReadCap s with
    | .ioErr => raise .ioError (portRead s.params.dataReadCap s)
    | .bytes b =>
      let s := appendRx b (logRead b (portRead s.params.dataReadCap s))
      if tailCondition s then parseResp (rxBytes s) s else readDataLoop n s

/-- `READ_DATA()` (41_handshake_engine R146). -/
def readData (s : State) : Res (List Byte) :=
  needOpen s fun s => readDataLoop s.params.maxReadAttempts (startData s)

/-- `EMIT_ACK()` (41_handshake_engine R148): a failing write is recorded, not raised. -/
def emitAck (s : State) : Res Unit :=
  needOpen s fun s =>
    let s := logTap .tx [Wire.ack] s
    .ok () (noteAckWrite (writeAnswer s) (portWrite [Wire.ack] s))

/-- `RESP_CYCLE()` (41_handshake_engine R149), strictly ordered. -/
def respCycle (s : State) : Res (List Byte) :=
  needOpen s fun s =>
    (readCode (setPhase .awaitingAck s)).bind fun c1 s =>
      if c1 ≠ .ack then raise .responseNotAck s
      else
        (readData (setPhase .awaitingData s)).bind fun p s =>
          (emitAck s).bind fun _ s =>
            (readCode (setPhase .awaitingEot s)).bind fun c2 s =>
              if c2 ≠ .eot then raise .responseNotEot s else .ok p (setPhase .complete s)

/-- CONN_OPEN; refused while the connection is open (41_handshake_engine R141). -/
def execConnOpen (path : List Byte) (baud : Nat) (log : Bool) (s : State) : Host.Outcome State Fault Refusal :=
  invoke (if s.connOpen then some .alreadyOpen else none)
    (fun s => (connOpenBody path baud log s).give fun _ => .unit) s

/-- CONN_CLOSE (41_handshake_engine R142). -/
def execConnClose (s : State) : Host.Outcome State Fault Refusal :=
  invoke none (fun s => (connCloseBody s).give fun _ => .unit) s

/-- SEND_REQ; a payload above MAX_REQ_PAYLOAD is refused (41_handshake_engine R143, 40_frame_codec R123 (e)). -/
def execSendReq (c : Byte) (p : List Byte) (s : State) : Host.Outcome State Fault Refusal :=
  invoke (refusePayload s p) (fun s => (sendReq c p s).give fun _ => .unit) s

/-- READ_CODE: result the code class (41_handshake_engine R144). -/
def execReadCode (s : State) : Host.Outcome State Fault Refusal :=
  invoke none (fun s => (readCode s).give .codeClass) s

/-- READ_DATA: result the payload (41_handshake_engine R146). -/
def execReadData (s : State) : Host.Outcome State Fault Refusal :=
  invoke none (fun s => (readData s).give .bytes) s

/-- EMIT_ACK (41_handshake_engine R148). -/
def execEmitAck (s : State) : Host.Outcome State Fault Refusal :=
  invoke none (fun s => (emitAck s).give fun _ => .unit) s

/-- RESP_CYCLE: result the payload (41_handshake_engine R149). -/
def execRespCycle (s : State) : Host.Outcome State Fault Refusal :=
  invoke none (fun s => (respCycle s).give .bytes) s

end Sys2Proof.Machine
end

