-- ==== Sys2Proof/Machine/Surface.lean ====
section
/-! DEFINITION. The Command Surface's host operations: ENC_NUM, DEC_NUM, ENC_ITEM, COMMAND, DECODE_REPLY, DECODE_STATUS
(42_command_surface R170 to R174, R197). -/

namespace Sys2Proof.Machine

/-- `COMMAND(c, P)` (42_command_surface R173): PHASE <- Idle, SEND_REQ, RESP_CYCLE, DECODE_REPLY. -/
def command (c : Byte) (p : List Byte) (s : State) : Res ReplyRecord :=
  (sendReq c p (setPhase .idle s)).bind fun _ s =>
    (respCycle s).bind fun q s => .ok (decodeReply s.params q) s

/-- ENC_NUM: result one byte; a number above 0xDF is refused (42_command_surface R170). -/
def execEncNum (v : Nat) (s : State) : Host.Outcome State Fault Refusal :=
  invoke (refuseNum v) (fun s => .ok (.byte (numByte v)) s) s

/-- DEC_NUM: result a number (42_command_surface R171). -/
def execDecNum (b : Byte) (s : State) : Host.Outcome State Fault Refusal :=
  invoke none (fun s => .ok (.num (decNum s.params b)) s) s

/-- ENC_ITEM: result three bytes; an item above 999 is refused (42_command_surface R172). -/
def execEncItem (k : Nat) (s : State) : Host.Outcome State Fault Refusal :=
  invoke (refuseItem k) (fun s => .ok (.bytes (itemText k)) s) s

/-- COMMAND; a payload above MAX_REQ_PAYLOAD is refused (42_command_surface R173, 40_frame_codec R123 (e)). The command code
may be any byte, also one of 30_encoding R90: DESIGN CHOICE, unsafe: log 32. -/
def execCommand (c : Byte) (p : List Byte) (s : State) : Host.Outcome State Fault Refusal :=
  invoke (refusePayload s p) (fun s => (command c p s).give .reply) s

/-- DECODE_REPLY: result a reply record (42_command_surface R174). -/
def execDecodeReply (q : List Byte) (s : State) : Host.Outcome State Fault Refusal :=
  invoke none (fun s => .ok (.reply (decodeReply s.params q)) s) s

/-- DECODE_STATUS: result a status record (42_command_surface R197). -/
def execDecodeStatus (q : List Byte) (s : State) : Host.Outcome State Fault Refusal :=
  invoke none (fun s => .ok (.status (decodeStatus s.params q)) s) s

end Sys2Proof.Machine
end

