-- ==== Sys2Proof/Machine/Commands.lean ====
section
/-! DEFINITION. The fourteen device commands (42_command_surface R175 to R189, R192). -/

namespace Sys2Proof.Machine

/-- A command with numeric arguments: payload `[ENC_NUM(a_1), .., ENC_NUM(a_k)]`, then COMMAND (42_command_surface R192).
A number above 0xDF and a payload above MAX_REQ_PAYLOAD are refused. -/
def numCommand (c : Byte) (args : List Nat) (s : State) : Host.Outcome State Fault Refusal :=
  invoke (firstRefusal (refuseNums args) (refusePayload s (numPayload args)))
    (fun s => (command c (numPayload args) s).give .reply) s

/-- A parameter command: COMMAND, then CheckParamAck, then the reply's text (42_command_surface R186, R187, R189). -/
def paramCommand (c : Byte) (k : Nat) (p : List Byte) (s : State) : Host.Outcome State Fault Refusal :=
  invoke (firstRefusal (refuseItem k) (refusePayload s p))
    (fun s =>
      (command c p s).bind fun rec s =>
        (checkParamAck rec.payload s).bind fun _ s => .ok (.reply { rec with text := some (rec.payload.drop 1) }) s) s

/-- STATUS: COMMAND 0x40, then the status layout of the reply (42_command_surface R175). -/
def execStatus (args : List Nat) (s : State) : Host.Outcome State Fault Refusal :=
  invoke (firstRefusal (refuseNums args) (refusePayload s (numPayload args)))
    (fun s =>
      (command 0x40 (numPayload args) s).bind fun rec s =>
        .ok (.reply { rec with status := some (decodeStatus s.params rec.payload) }) s) s

/-- PURGE (42_command_surface R176). -/
def execPurge (args : List Nat) (s : State) : Host.Outcome State Fault Refusal := numCommand 0x41 args s

/-- DISPENSE, one argument (42_command_surface R177). -/
def execDispense (n : Nat) (s : State) : Host.Outcome State Fault Refusal := numCommand 0x42 [n] s

/-- TEST_DISPENSE (42_command_surface R178). -/
def execTestDispense (args : List Nat) (s : State) : Host.Outcome State Fault Refusal := numCommand 0x43 args s

/-- RESET, which resets the device, not the engine (42_command_surface R179). -/
def execReset (args : List Nat) (s : State) : Host.Outcome State Fault Refusal := numCommand 0x44 args s

/-- LAST_STATUS (42_command_surface R180). -/
def execLastStatus (args : List Nat) (s : State) : Host.Outcome State Fault Refusal := numCommand 0x45 args s

/-- CONFIG_STATUS (42_command_surface R181). -/
def execConfigStatus (args : List Nat) (s : State) : Host.Outcome State Fault Refusal := numCommand 0x46 args s

/-- DD_DIAG (42_command_surface R182). -/
def execDdDiag (args : List Nat) (s : State) : Host.Outcome State Fault Refusal := numCommand 0x47 args s

/-- SENSOR_DIAG (42_command_surface R183). -/
def execSensorDiag (args : List Nat) (s : State) : Host.Outcome State Fault Refusal := numCommand 0x48 args s

/-- SN_DISPENSE (42_command_surface R184). -/
def execSnDispense (args : List Nat) (s : State) : Host.Outcome State Fault Refusal := numCommand 0x4A args s

/-- SN_EJECT (42_command_surface R185). -/
def execSnEject (args : List Nat) (s : State) : Host.Outcome State Fault Refusal := numCommand 0x4B args s

/-- READ_PARAM (42_command_surface R186). -/
def execReadParam (k : Nat) (s : State) : Host.Outcome State Fault Refusal :=
  paramCommand 0x52 k (readParamPayload k) s

/-- WRITE_PARAM (42_command_surface R187). -/
def execWriteParam (k : Nat) (v : List Byte) (s : State) : Host.Outcome State Fault Refusal :=
  paramCommand 0x57 k (writeParamPayload k v) s

/-- TEST_MODE (42_command_surface R188). -/
def execTestMode (args : List Nat) (s : State) : Host.Outcome State Fault Refusal := numCommand 0x54 args s

end Sys2Proof.Machine
end

