-- ==== Sys2Proof/Machine/WireItems.lean ====
section
/-! DEFINITION. The wire items of the opcode table: the four code bytes as READ_CODE takes them, the acknowledgment
byte as EMIT_ACK writes it, the response data frame as READ_DATA and PARSE_RESP consume it (30_encoding R84 to R86, R91;
41_handshake_engine R144, R146, R148; log 14); and what is presented that matches no row of the table. -/

namespace Sys2Proof.Machine

/-- READ_CODE after the device has sent the byte `b` (30_encoding R84, R91, 41_handshake_engine R144). It takes what is first
in the receive stream: `b`, unless bytes sent before it are still unread (70_reset_and_hazards R257). -/
def receiveCode (b : Byte) (s : State) : Res Value := (readCode (arriving [b] s)).give .codeClass

/-- ACK: the code byte 0x06 (30_encoding R91). -/
def execAck (s : State) : Host.Outcome State Fault Refusal := invoke none (receiveCode Wire.ack) s

/-- NACK: the code byte 0x15 (30_encoding R91). -/
def execNack (s : State) : Host.Outcome State Fault Refusal := invoke none (receiveCode Wire.nack) s

/-- EOT: the code byte 0x04 (30_encoding R91). -/
def execEot (s : State) : Host.Outcome State Fault Refusal := invoke none (receiveCode Wire.eot) s

/-- UNRECOGNIZED: any other code byte (30_encoding R91). -/
def execUnrecognized (b : Byte) (s : State) : Host.Outcome State Fault Refusal := invoke none (receiveCode b) s

/-- ACK_EMIT: the byte 0x06 is written (30_encoding R86, 41_handshake_engine R148). -/
def execAckEmit (s : State) : Host.Outcome State Fault Refusal :=
  invoke none (fun s => (emitAck s).give fun _ => .unit) s

/-- RSP_FRAME: READ_DATA after the device has sent the frame of payload `p`, behind what is unread; PARSE_RESP validates it
(30_encoding R85, 41_handshake_engine R146, 40_frame_codec R124). -/
def execRspFrame (p : List Byte) (s : State) : Host.Outcome State Fault Refusal :=
  invoke none (fun s => (readData (arriving (rspFrame p) s)).give .bytes) s

/-- What is presented and is no row of the table, `e` saying why. Bytes the device sent that are no response data frame
still arrive: READ_DATA takes them, and how it fails is its own (60_exceptions R212 to R214; log 14). A request frame that
no command gives, for an unassigned code or for its payload, is what SEND_REQ builds and sends (30_encoding R90; DESIGN
CHOICE, unsafe: log 33). The rest is no invocation (00_scope R17): bytes that are no request frame, a host operation
without its operands, a byte that is not the acknowledgment. -/
def runUnlisted (it : Item) (e : DecodeError) (s : State) : Host.Outcome State Fault Refusal :=
  match it with
  | .rsp f => execReadData (arriving f s)
  | .req f =>
    match decodeReqFrame f with
    | .ok (c, p) => execSendReq c p s
    | .error _ => .refused (.undecodable e)
  | .hostop _ _ | .code _ | .ackb _ => .refused (.undecodable e)

end Sys2Proof.Machine
end

