-- ==== Sys2Proof/Machine/Dispatch.lean ====
section
/-! DEFINITION. One arm per row of spec/opcode_table.json. -/

namespace Sys2Proof.Machine

/-- The meaning of every operation, command and wire item. -/
def exec (i : Instr) (s : State) : Host.Outcome State Fault Refusal :=
  match i with
  | .checksum b => Sys2Proof.Machine.execChecksum b s
  | .buildReq c p => Sys2Proof.Machine.execBuildReq c p s
  | .parseResp raw => Sys2Proof.Machine.execParseResp raw s
  | .connOpen path baud log => Sys2Proof.Machine.execConnOpen path baud log s
  | .connClose => Sys2Proof.Machine.execConnClose s
  | .sendReq c p => Sys2Proof.Machine.execSendReq c p s
  | .readCode => Sys2Proof.Machine.execReadCode s
  | .readData => Sys2Proof.Machine.execReadData s
  | .emitAck => Sys2Proof.Machine.execEmitAck s
  | .respCycle => Sys2Proof.Machine.execRespCycle s
  | .encNum v => Sys2Proof.Machine.execEncNum v s
  | .decNum b => Sys2Proof.Machine.execDecNum b s
  | .encItem k => Sys2Proof.Machine.execEncItem k s
  | .command c p => Sys2Proof.Machine.execCommand c p s
  | .decodeReply q => Sys2Proof.Machine.execDecodeReply q s
  | .decodeStatus q => Sys2Proof.Machine.execDecodeStatus q s
  | .status a => Sys2Proof.Machine.execStatus a s
  | .purge a => Sys2Proof.Machine.execPurge a s
  | .dispense n => Sys2Proof.Machine.execDispense n s
  | .testDispense a => Sys2Proof.Machine.execTestDispense a s
  | .reset a => Sys2Proof.Machine.execReset a s
  | .lastStatus a => Sys2Proof.Machine.execLastStatus a s
  | .configStatus a => Sys2Proof.Machine.execConfigStatus a s
  | .ddDiag a => Sys2Proof.Machine.execDdDiag a s
  | .sensorDiag a => Sys2Proof.Machine.execSensorDiag a s
  | .snDispense a => Sys2Proof.Machine.execSnDispense a s
  | .snEject a => Sys2Proof.Machine.execSnEject a s
  | .readParam k => Sys2Proof.Machine.execReadParam k s
  | .writeParam k v => Sys2Proof.Machine.execWriteParam k v s
  | .testMode a => Sys2Proof.Machine.execTestMode a s
  | .ack => Sys2Proof.Machine.execAck s
  | .nack => Sys2Proof.Machine.execNack s
  | .eot => Sys2Proof.Machine.execEot s
  | .unrecognized b => Sys2Proof.Machine.execUnrecognized b s
  | .ackEmit => Sys2Proof.Machine.execAckEmit s
  | .rspFrame p => Sys2Proof.Machine.execRspFrame p s

end Sys2Proof.Machine
end

