-- ==== Sys2Proof/Machine/Step.lean ====
section
/-! DEFINITION. One step of the engine: what is presented next is decoded and run; what matches no row of the table has the
effect the spec gives it, if any; with nothing presented the engine waits (10_state R38, 60_exceptions R238; log 1, log 2); a reset that comes is taken (70_reset_and_hazards R250). -/

namespace Sys2Proof.Machine

/-- One step. -/
def step (s : State) : Host.Outcome State Fault Refusal :=
  match fetch s with
  | none => .next s
  | some (.engineReset, s') => .next (resetEngine s')
  | some (.item it, s') =>
    match decode it with
    | .ok i => exec i s'
    | .error e => runUnlisted it e s'

/-- The state in which the next step runs the instruction of a table word: its item is presented first (log 2, log 3). -/
def State.withFetchWord (s : State) (nbits w : Nat) : State :=
  { s with inbox := .item (tableItem nbits w) :: s.inbox }

end Sys2Proof.Machine
end

