-- ==== Sys2Proof/Safety.lean ====
section
/-! DEFINITION. What counts as a safe run, in the terms the statements use: the legal order of port transactions, the
invariant of the engine, well-formed response frames, which operation may fail how, and the state a smooth exchange
leaves. Nothing here is used by the model; it is read from the spec a second time. -/

namespace Sys2Proof.Machine

/-! ### The port is used in order (20_memory R56, R61, 41_handshake_engine R140) -/

/-- One transaction on a port that is open or not: reading, writing and closing need an open port, opening a closed one;
`none` is a transaction out of order. A port is open after an open that answered Ok, and not after a close. A reset of the
engine is no transaction; from then on the engine has no port open, whatever the transport has (70_reset_and_hazards R250). -/
def portAfter (isOpen : Bool) (e : Event) : Option Bool :=
  match e.act with
  | .opened _ a => if isOpen then none else some (a == .ok)
  | .closed _ => if isOpen then some false else none
  | .wrote _ _ => if isOpen then some true else none
  | .got _ _ => if isOpen then some true else none
  | .engineReset => some false

/-- A record of transactions on a port: whether it is open at the end, if every transaction was in order. -/
def runPort (isOpen : Bool) : List Event → Option Bool
  | [] => some isOpen
  | e :: t =>
    match portAfter isOpen e with
    | some b => runPort b t
    | none => none

/-! ### The invariant -/

/-- Every entry of a buffer lies below its capacity (20_memory R50, R65). -/
def Memory.within (m : Memory) (cap : Nat) : Prop := ∀ c ∈ m, c.1 < cap

/-- What holds between two host operations: no operation is running; both buffers are canonical and within their
capacities, and so are the length registers and ATT (10_state R20, 20_memory R65, 41_handshake_engine R152); ERR and
the delivered result agree and a failure is shown in PHASE (10_state R21, R23); the transactions so far were in order
and CONN_OPEN says whether the engine has a port open (10_state R30). -/
structure Inv (s : State) : Prop where
  notBusy : s.busy = false
  rxCanonical : Memory.wf s.rxbuf
  txCanonical : Memory.wf s.txbuf
  rxWithin : Memory.within s.rxbuf s.params.rxbufCap
  txWithin : Memory.within s.txbuf s.params.txbufCap
  rxlenLe : s.rxlen ≤ s.params.rxbufCap
  txlenLe : s.txlen ≤ s.params.txbufCap
  attLe : s.att ≤ s.params.maxReadAttempts
  errResult : ∀ k, s.err = some k ↔ s.result = some (.fail k)
  errPhase : s.err ≠ none → s.phase = .failed
  portOrder : runPort false s.trace = some s.connOpen

/-! ### Frames received -/

/-- `WellFormedRsp(raw)` (40_frame_codec R126). -/
def WellFormedRsp (raw : List Byte) : Prop :=
  5 ≤ raw.length ∧ raw[0]? = some 0x01 ∧ raw[1]? = some 0x30 ∧ raw[2]? = some 0x02 ∧
    raw[raw.length - 2]? = some 0x03 ∧ raw[raw.length - 1]? = some (checksum (raw.take (raw.length - 1)))

/-- The header test of PARSE_RESP fails (60_exceptions R213): shorter than two bytes, or a wrong byte 0 or 1. -/
def BadHeader (raw : List Byte) : Prop := raw.length < 2 ∨ raw[0]? ≠ some 0x01 ∨ raw[1]? ≠ some 0x30

/-- The checksum test of PARSE_RESP fails (60_exceptions R214). -/
def BadChecksum (raw : List Byte) : Prop := raw[raw.length - 1]? ≠ some (checksum (raw.take (raw.length - 1)))

/-- The marker test of PARSE_RESP fails (60_exceptions R213): three bytes long, or a wrong byte 2 or byte n-2. -/
def BadMarkers (raw : List Byte) : Prop :=
  raw.length = 3 ∨ raw[2]? ≠ some 0x02 ∨ raw[raw.length - 2]? ≠ some 0x03

/-- The tail condition on what a read loop has accumulated (41_handshake_engine R147). -/
def tailHolds (b : List Byte) : Bool := 2 ≤ b.length && b[b.length - 2]? == some 0x03

/-! ### The table of failures (60_exceptions R221) and of port-touching operations (41_handshake_engine R140) -/

/-- The kinds of the row `RESP_CYCLE`, `COMMAND` and the twelve commands without a parameter item. -/
def cycleKind (k : ErrKind) : Bool := k != .illegalCommand

/-- Which operation can end with which kind. The wire items take the row of the operation that consumes or writes
them (log 14). -/
def mayFail (i : Instr) (k : ErrKind) : Bool :=
  match i with
  | .checksum _ | .buildReq _ _ | .encNum _ | .decNum _ | .encItem _ | .decodeReply _ | .decodeStatus _ => false
  | .parseResp _ => k == .formatError || k == .checksumError
  | .connOpen _ _ _ => k == .ioError
  | .connClose => k == .ioError || k == .connectionClosed
  | .sendReq _ _ => k == .ioError || k == .connectionClosed
  | .readCode | .ack | .nack | .eot | .unrecognized _ =>
    k == .ioError || k == .retryExhausted || k == .connectionClosed
  | .readData | .rspFrame _ =>
    k == .ioError || k == .retryExhausted || k == .formatError || k == .checksumError || k == .connectionClosed
  | .emitAck | .ackEmit => k == .connectionClosed
  | .respCycle | .command _ _ => cycleKind k
  | .status _ | .purge _ | .dispense _ | .testDispense _ | .reset _ | .lastStatus _ | .configStatus _ => cycleKind k
  | .ddDiag _ | .sensorDiag _ | .snDispense _ | .snEject _ | .testMode _ => cycleKind k
  | .readParam _ | .writeParam _ _ => true

/-- The command code and payload of the request an operation builds, if it builds one (42_command_surface R175 to
R188). -/
def requestOf (i : Instr) : Option (Byte × List Byte) :=
  match i with
  | .buildReq c p | .sendReq c p | .command c p => some (c, p)
  | .status a => some (0x40, numPayload a)
  | .purge a => some (0x41, numPayload a)
  | .dispense n => some (0x42, numPayload [n])
  | .testDispense a => some (0x43, numPayload a)
  | .reset a => some (0x44, numPayload a)
  | .lastStatus a => some (0x45, numPayload a)
  | .configStatus a => some (0x46, numPayload a)
  | .ddDiag a => some (0x47, numPayload a)
  | .sensorDiag a => some (0x48, numPayload a)
  | .snDispense a => some (0x4A, numPayload a)
  | .snEject a => some (0x4B, numPayload a)
  | .readParam k => some (0x52, readParamPayload k)
  | .writeParam k v => some (0x57, writeParamPayload k v)
  | .testMode a => some (0x54, numPayload a)
  | _ => none

/-- The request an operation builds, if any, fits MAX_REQ_PAYLOAD (40_frame_codec R122, R123 (e)). -/
def requestFits (i : Instr) (s : State) : Prop :=
  ∀ c p, requestOf i = some (c, p) → p.length ≤ s.params.maxReqPayload

/-- The operations that begin with the connection check (41_handshake_engine R140), the fourteen commands among them. -/
def checksConnection (i : Instr) : Bool :=
  match i with
  | .connClose | .sendReq _ _ | .readCode | .readData | .emitAck | .respCycle | .command _ _ => true
  | .status _ | .purge _ | .dispense _ | .testDispense _ | .reset _ | .lastStatus _ | .configStatus _ => true
  | .ddDiag _ | .sensorDiag _ | .snDispense _ | .snEject _ | .readParam _ | .writeParam _ _ | .testMode _ => true
  | _ => false

/-! ### Expected states -/

/-- The log records of an operation, kept when LOG_EN = 1 (10_state R33). -/
def tapped (s : State) (l : List TapRecord) : List TapRecord := if s.logEn then s.tap ++ l else s.tap

/-- An operation that ended with `Ok(v)` and changed nothing: ERR is None and the result is delivered. -/
def ended (s : State) (v : Value) : State := { s with err := none, result := some (.ok v) }

/-- An operation that ended with `Fail(K)`: ERR, PHASE and the delivered result (60_exceptions R226). -/
def failedWith (s : State) (k : ErrKind) : State :=
  { s with err := some k, phase := .failed, result := some (.fail k) }

/-- What BUILD_REQ writes: CMD, TXLEN, TXBUF, CHK (40_frame_codec R122). -/
def requestBuilt (s : State) (c : Byte) (p : List Byte) : State :=
  { s with
    chk := checksum ([0x04, 0x30, 0x02, c] ++ p ++ [0x03])
    cmd := c
    txlen := p.length + 6
    txbuf := Memory.writeRange s.txbuf 0 (reqFrame c p) }

/-- SEND_REQ whose write answered Ok, with the answers `ws` left (41_handshake_engine R143). -/
def requestSent (s : State) (c : Byte) (p : List Byte) (ws : List WriteAnswer) : State :=
  { requestBuilt s c p with
    phase := .requestSent
    writes := ws
    tap := tapped s [⟨.tx, reqFrame c p⟩]
    trace := s.trace ++ [⟨s.phase, .wrote (reqFrame c p) .ok⟩] }

/-- READ_CODE whose `n + 1`-th read returned the byte `b` and leaves the answers `rs`, after `n` reads that returned
nothing (41_handshake_engine R144, R153). -/
def codeRead (s : State) (n : Nat) (b : Byte) (rs : List ReadAnswer) : State :=
  { s with
    att := n + 1
    code := b
    clen := 1
    reads := rs
    tap := tapped s [⟨.rx, [b]⟩]
    trace := s.trace ++ List.replicate n ⟨s.phase, .got 1 (.bytes [])⟩ ++ [⟨s.phase, .got 1 (.bytes [b])⟩] }

/-- READ_DATA whose one read returned the whole frame of payload `q` and leaves the answers `rs` (41_handshake_engine
R146, 40_frame_codec R124). -/
def frameRead (s : State) (q : List Byte) (rs : List ReadAnswer) : State :=
  { s with
    chk := checksum ([0x01, 0x30, 0x02] ++ q ++ [0x03])
    att := 1
    rxlen := q.length + 5
    paylen := q.length
    rxbuf := Memory.writeRange s.rxbuf 0 (rspFrame q)
    reads := rs
    tap := tapped s [⟨.rx, rspFrame q⟩]
    trace := s.trace ++ [⟨s.phase, .got s.params.dataReadCap (.bytes (rspFrame q))⟩] }

/-- EMIT_ACK whose write answered `a` and leaves the answers `ws` (41_handshake_engine R148). -/
def ackWritten (s : State) (a : WriteAnswer) (ws : List WriteAnswer) : State :=
  { s with
    ackWrErr := s.ackWrErr || a != .ok
    writes := ws
    tap := tapped s [⟨.tx, [0x06]⟩]
    trace := s.trace ++ [⟨s.phase, .wrote [0x06] a⟩] }

/-- A full response cycle in which each item comes in one read: the four steps of 41_handshake_engine R149, one after
the other, PHASE moving as R150 says; `a` is the answer of the acknowledgment write. -/
def cycleDone (s : State) (q : List Byte) (a : WriteAnswer) (rs : List ReadAnswer) (ws : List WriteAnswer) : State :=
  let s1 := codeRead { s with phase := .awaitingAck } 0 0x06 (.bytes (rspFrame q) :: .bytes [0x04] :: rs)
  let s2 := frameRead { s1 with phase := .awaitingData } q (.bytes [0x04] :: rs)
  let s3 := ackWritten s2 a ws
  { codeRead { s3 with phase := .awaitingEot } 0 0x04 rs with phase := .complete }

/-- The answers of a smooth cycle: ACK, the frame of payload `q` whole in one read, EOT. -/
def smoothReads (q : List Byte) (rs : List ReadAnswer) : List ReadAnswer :=
  .bytes [0x06] :: .bytes (rspFrame q) :: .bytes [0x04] :: rs

/-- The environment is about to play a smooth cycle with reply payload `q`, and the engine can run it: not busy, the
port open, the frame no longer than one read may return. -/
structure SmoothCycle (s : State) (q : List Byte) (rs : List ReadAnswer) : Prop where
  notBusy : s.busy = false
  isOpen : s.connOpen = true
  answers : s.reads = smoothReads q rs
  oneRead : q.length + 5 ≤ s.params.dataReadCap

/-- A whole exchange: the request written, then the smooth cycle (42_command_surface R173). -/
def exchangeDone (s : State) (c : Byte) (p q : List Byte) (a : WriteAnswer) (rs : List ReadAnswer)
    (ws : List WriteAnswer) : State :=
  cycleDone (requestSent { s with phase := .idle } c p (a :: ws)) q a rs ws

/-! ### Accumulating a data frame (41_handshake_engine R146, R147) -/

/-- READ_DATA after reads that returned the chunks `cs` (some perhaps empty), with the answers `rs` left and the frame not
yet parsed: ATT counts the reads, RXBUF holds what they returned in order, each non-empty chunk was offered to the tap. -/
def accumulated (s : State) (cs : List (List Byte)) (rs : List ReadAnswer) : State :=
  { s with
    att := cs.length
    rxlen := cs.flatten.length
    rxbuf := Memory.writeRange s.rxbuf 0 cs.flatten
    reads := rs
    tap := tapped s ((cs.filter (· ≠ [])).map fun b => ⟨.rx, b⟩)
    trace := s.trace ++ cs.map fun b => ⟨s.phase, .got s.params.dataReadCap (.bytes b)⟩ }

/-- The tail condition does not hold after any of the first `n` reads. -/
def NoTailWithin (cs : List (List Byte)) (n : Nat) : Prop := ∀ k ≤ n, tailHolds (cs.take k).flatten = false

/-- The engine is about to run a data loop whose reads return the chunks `cs`, each no longer than a read may be. -/
structure ChunksNext (s : State) (cs : List (List Byte)) (rs : List ReadAnswer) : Prop where
  notBusy : s.busy = false
  isOpen : s.connOpen = true
  answers : s.reads = cs.map .bytes ++ rs
  short : ∀ b ∈ cs, b.length ≤ s.params.dataReadCap

/-! ### Which operations run which parts (10_state R20 "Written by") -/

/-- The operations that run READ_CODE. -/
def runsReadCode (i : Instr) : Bool :=
  match i with
  | .readCode | .ack | .nack | .eot | .unrecognized _ | .respCycle | .command _ _ => true
  | .status _ | .purge _ | .dispense _ | .testDispense _ | .reset _ | .lastStatus _ | .configStatus _ => true
  | .ddDiag _ | .sensorDiag _ | .snDispense _ | .snEject _ | .readParam _ | .writeParam _ _ | .testMode _ => true
  | _ => false

/-- The operations that run RESP_CYCLE. -/
def runsCycle (i : Instr) : Bool :=
  match i with
  | .respCycle | .command _ _ => true
  | .status _ | .purge _ | .dispense _ | .testDispense _ | .reset _ | .lastStatus _ | .configStatus _ => true
  | .ddDiag _ | .sensorDiag _ | .snDispense _ | .snEject _ | .readParam _ | .writeParam _ _ | .testMode _ => true
  | _ => false

/-- The operations that run READ_DATA. -/
def runsReadData (i : Instr) : Bool :=
  match i with
  | .readData | .rspFrame _ => true
  | _ => runsCycle i

/-- The operations that run PARSE_RESP. -/
def runsParse (i : Instr) : Bool :=
  match i with
  | .parseResp _ => true
  | _ => runsReadData i

/-- The operations that run CHECKSUM. -/
def runsChecksum (i : Instr) : Bool :=
  match i with
  | .checksum _ => true
  | _ => runsParse i || (requestOf i).isSome

/-- The operations that run EMIT_ACK. -/
def runsEmitAck (i : Instr) : Bool :=
  match i with
  | .emitAck | .ackEmit => true
  | _ => runsCycle i

/-- The operations that write PHASE without failing (10_state R22, 41_handshake_engine R150). -/
def writesPhase (i : Instr) : Bool :=
  match i with
  | .connOpen _ _ _ | .sendReq _ _ => true
  | _ => runsCycle i

/-- CONN_OPEN -/
def isOpenOp (i : Instr) : Bool :=
  match i with
  | .connOpen _ _ _ => true
  | _ => false

/-- CONN_CLOSE -/
def isCloseOp (i : Instr) : Bool :=
  match i with
  | .connClose => true
  | _ => false

/-- The commands whose reply is the generic record, with their codes (42_command_surface R176 to R185, R188). -/
def numericCommands : List (Byte × (List Nat → Instr)) :=
  [(0x41, .purge), (0x43, .testDispense), (0x44, .reset), (0x45, .lastStatus), (0x46, .configStatus), (0x47, .ddDiag),
    (0x48, .sensorDiag), (0x4A, .snDispense), (0x4B, .snEject), (0x54, .testMode)]

/-- The bytes a wire item brings to the receive stream (log 14). -/
def arrivals (i : Instr) : List Byte :=
  match i with
  | .ack => [0x06]
  | .nack => [0x15]
  | .eot => [0x04]
  | .unrecognized b => [b]
  | .rspFrame p => rspFrame p
  | _ => []

/-- Bit `i` of a byte is `(b >> i) & 1` (00_scope R13). -/
def specBit (b : Byte) (i : Nat) : Bool := b.toNat / 2 ^ i % 2 == 1

/-- The number of a received numeric field of 0x20 or above (42_command_surface R171). -/
def specNum (b : Byte) : Nat := b.toNat - 0x20

/-- The three decimal digits of an item below 1000, most significant first (42_command_surface R172). -/
def specItem (k : Nat) : List Byte :=
  [BitVec.ofNat 8 (0x30 + k / 100), BitVec.ofNat 8 (0x30 + k / 10 % 10), BitVec.ofNat 8 (0x30 + k % 10)]

/-! ### What operations may depend on -/

/-- Two states agree on all that carries meaning between host operations (10_state R39), on the parameters and on what
the environment will answer; the scratch registers, both buffers, PHASE, ERR, the last result, the tap and the record of
transactions may differ. -/
structure SameSession (s t : State) : Prop where
  connOpen : s.connOpen = t.connOpen
  path : s.path = t.path
  baud : s.baud = t.baud
  logEn : s.logEn = t.logEn
  ackWrErr : s.ackWrErr = t.ackWrErr
  busy : s.busy = t.busy
  params : s.params = t.params
  reads : s.reads = t.reads
  writes : s.writes = t.writes
  opens : s.opens = t.opens
  closes : s.closes = t.closes
  draws : s.draws = t.draws

/-- The bytes an environment's list of read answers still holds. -/
def pendingBytes : List ReadAnswer → List Byte
  | [] => []
  | .bytes b :: t => b ++ pendingBytes t
  | .ioErr :: t => pendingBytes t

/-- The reads among the transactions. -/
def isRead (e : Event) : Bool :=
  match e.act with
  | .got _ _ => true
  | _ => false

/-- The port transactions in the record: all of it but the marks of resets (70_reset_and_hazards R250). -/
def isTransaction (e : Event) : Bool :=
  match e.act with
  | .engineReset => false
  | _ => true

/-- The writes among the transactions. -/
def isWrite (e : Event) : Bool :=
  match e.act with
  | .wrote _ _ => true
  | _ => false

end Sys2Proof.Machine
end

