-- ==== Sys2Proof/Certificates/Slice0/Obligations.lean ====
section
/-! DEFINITION. The statements for the provers. The expected states and the tables they are written with are in
Safety.lean. -/

open Sys2Proof Sys2Proof.Machine

/-! ### Encoding -/

/-- Words written out from 30_encoding R83, R85, R89, R91, R95 and from the examples of 42_command_surface R175, R177,
R186, R187 decode to the operations they stand for; so does a row of the opcode table. -/
def Obligations.WordsOfTheSpecDecode : Prop :=
  decode (.req [0x04, 0x30, 0x02, 0x40, 0x03, 0x75]) = .ok (.status []) ∧
  decode (.req [0x04, 0x30, 0x02, 0x42, 0x21, 0x03, 0x56]) = .ok (.dispense 1) ∧
  decode (.req [0x04, 0x30, 0x02, 0x52, 0x44, 0x2F, 0x30, 0x30, 0x37, 0x03, 0x3B]) = .ok (.readParam 7) ∧
  decode (.req [0x04, 0x30, 0x02, 0x57, 0x44, 0x2F, 0x30, 0x30, 0x37, 0x2F, 0x31, 0x32, 0x03, 0x12]) =
    .ok (.writeParam 7 [0x31, 0x32]) ∧
  decode (.req [0x04, 0x30, 0x02, 0x49, 0x03, 0x7C]) = .error (.unassignedCommand 0x49) ∧
  decode (.hostop 0x6 []) = .ok .readCode ∧
  decode (.hostop 0xA [.num 1]) = .ok (.encNum 1) ∧
  decode (.code 0x15) = .ok .nack ∧
  decode (.code 0x86) = .ok (.unrecognized 0x86) ∧
  decode (.ackb 0x06) = .ok .ackEmit ∧
  decode (.rsp [0x01, 0x30, 0x02, 0x20, 0x21, 0x22, 0x03, 0x13]) = .ok (.rspFrame [0x20, 0x21, 0x22]) ∧
  decodeTableWord 32 0x04300254 = some (.testMode [])

/-- No bit of an encoding is dropped: decoding the encoding of any well-formed operation gives it back. -/
def Obligations.DecodeOfEncode : Prop := ∀ i : Instr, i.wellFormed = true → decode (encode i) = .ok i

/-- Each item has one meaning: what decodes to an operation is that operation's encoding, and every frame, code byte or
acknowledgment byte that decodes gives a well-formed operation. The images of the items, those of the host operations above
all, are the model's own (log 3). -/
def Obligations.EncodeOfDecode : Prop :=
  ∀ (it : Item) (i : Instr), decode it = .ok i →
    encode i = it ∧ ((∀ op args, it ≠ .hostop op args) → i.wellFormed = true)

/-- 40_frame_codec R127: the checker `DecodeReq` recovers command code and payload from the frame BUILD_REQ returns, for
every command code and every payload the engine accepts. -/
def Obligations.RequestRoundTrip : Prop :=
  ∀ (c : Byte) (p : List Byte) (s : State), s.busy = false → p.length ≤ s.params.maxReqPayload →
    ∃ t f, exec (.buildReq c p) s = .next t ∧ t.result = some (.ok (.bytes f)) ∧ decodeReqFrame f = .ok (c, p)

/-! ### The step -/

/-- A step runs what is presented: the decoded operation, on the state from which its item is taken. Bytes from the device
presented as a data frame, well formed or not, join the receive stream and READ_DATA runs (log 14); a well-formed request frame that no
command gives is sent by SEND_REQ (30_encoding R90; log 33); bytes that are no request frame, host operations without their
operands and other bytes than 0x06 as acknowledgment are refused (00_scope R17). With nothing presented the engine waits and keeps all state (10_state R38, 60_exceptions R238).
A table word put where the step fetches is run by the next step. The presentation by items is the model's own (log 2,
log 3). -/
def Obligations.StepRunsWhatIsPresented : Prop :=
  (∀ (s : State) it rest i, s.inbox = .item it :: rest → decode it = .ok i → step s = exec i { s with inbox := rest }) ∧
  (∀ (s : State) f rest, s.inbox = .item (.rsp f) :: rest →
    step s = exec .readData { s with inbox := rest, reads := s.reads ++ [.bytes f] }) ∧
  (∀ (s : State) f rest e c p, s.inbox = .item (.req f) :: rest → decode (.req f) = .error e →
    decodeReqFrame f = .ok (c, p) → step s = exec (.sendReq c p) { s with inbox := rest }) ∧
  (∀ (s : State) f rest e, s.inbox = .item (.req f) :: rest → decodeReqFrame f = .error e →
    step s = .refused (.undecodable e)) ∧
  (∀ (s : State) op args rest e, s.inbox = .item (.hostop op args) :: rest → decode (.hostop op args) = .error e →
    step s = .refused (.undecodable e)) ∧
  (∀ (s : State) b rest, s.inbox = .item (.ackb b) :: rest → b ≠ 0x06 → step s = .refused (.undecodable (.notAckByte b))) ∧
  (∀ s : State, s.inbox = [] → step s = .next s) ∧
  (∀ (s : State) nbits w i, decodeTableWord nbits w = some i → step (s.withFetchWord nbits w) = exec i s)

/-- 00_scope R17: of every operation the engine accepts, the outcome is a next state; nothing faults. Accepted means: not
busy, well-formed operands, a request within MAX_REQ_PAYLOAD, and for CONN_OPEN a connection that is not open. -/
def Obligations.AcceptedOperationsEnd : Prop :=
  (∀ (i : Instr) (s : State), s.busy = false → i.wellFormed = true → requestFits i s →
    (isOpenOp i = true → s.connOpen = false) → ∃ t, exec i s = .next t ∧ t.result ≠ none) ∧
  (∀ (i : Instr) (s : State) (f : Fault), exec i s ≠ .fault f)

/-- The refusals the spec names (93_implementation_defined U1, U11, U12): any invocation while BUSY = 1, CONN_OPEN while
open, a number above 0xDF, an item above 999, a request payload longer than MAX_REQ_PAYLOAD. That a number or an item outside
its domain is named before a payload too long, and both before the connection check, is the model's choice (log 22). -/
def Obligations.WhatIsRefused : Prop :=
  (∀ (i : Instr) (s : State), s.busy = true → exec i s = .refused .invokedWhileBusy) ∧
  (∀ (s : State) path baud log, s.busy = false → s.connOpen = true →
    exec (.connOpen path baud log) s = .refused .alreadyOpen) ∧
  (∀ (s : State) v, s.busy = false → 0xDF < v → exec (.encNum v) s = .refused (.numberOutOfDomain v)) ∧
  (∀ (s : State) v, s.busy = false → 0xDF < v → exec (.dispense v) s = .refused (.numberOutOfDomain v)) ∧
  (∀ e ∈ numericCommands, ∀ (s : State) (good more : List Nat) v, s.busy = false → (∀ n ∈ good, n ≤ 0xDF) → 0xDF < v →
    exec (e.2 (good ++ v :: more)) s = .refused (.numberOutOfDomain v)) ∧
  (∀ (s : State) (good more : List Nat) v, s.busy = false → (∀ n ∈ good, n ≤ 0xDF) → 0xDF < v →
    exec (.status (good ++ v :: more)) s = .refused (.numberOutOfDomain v)) ∧
  (∀ (s : State) k, s.busy = false → 999 < k →
    exec (.encItem k) s = .refused (.itemOutOfDomain k) ∧ exec (.readParam k) s = .refused (.itemOutOfDomain k) ∧
      ∀ v, exec (.writeParam k v) s = .refused (.itemOutOfDomain k)) ∧
  (∀ (i : Instr) (s : State) c p, s.busy = false → i.wellFormed = true → requestOf i = some (c, p) →
    s.params.maxReqPayload < p.length → exec i s = .refused (.payloadTooLong p.length))

/-! ### Reset -/

/-- 10_state R38, the values the spec states: CONN_OPEN = 0, PHASE = 0 (Idle), ERR = 0 (None), ACK_WR_ERR = 0, LOG_EN = 0,
BUSY = 0. -/
def Obligations.ResetValues : Prop :=
  State.reset.connOpen = false ∧ State.reset.phase = .idle ∧ State.reset.phase.number = 0 ∧
  errNumber State.reset = 0 ∧ State.reset.ackWrErr = false ∧ State.reset.logEn = false ∧ State.reset.busy = false

/-- 70_reset_and_hazards R250: the reset event, in any state, even with BUSY = 1. The registers 10_state R38 gives a value take
it; no port transaction is issued: the port is not closed, nothing is flushed, the environment's answers, the parameters and
what comes next are untouched. Every operation runs then: those that touch the port end ConnectionClosed, CONN_OPEN opens it
when the port answers Ok. The values are the spec's own choice (D14); the mark in the record, the tap kept and the result
cleared are the model's (log 30). -/
def Obligations.ResetEvent : Prop :=
  ∀ (s : State) rest, s.inbox = .engineReset :: rest → ∃ t, step s = .next t ∧
    t.connOpen = false ∧ t.phase = .idle ∧ errNumber t = 0 ∧ t.ackWrErr = false ∧ t.logEn = false ∧ t.busy = false ∧
    t.inbox = rest ∧ t.reads = s.reads ∧ t.writes = s.writes ∧ t.opens = s.opens ∧ t.closes = s.closes ∧
    t.draws = s.draws ∧ t.params = s.params ∧ t.tap = s.tap ∧ t.result = none ∧
    t.trace = s.trace ++ [⟨s.phase, .engineReset⟩] ∧ t.trace.filter isTransaction = s.trace.filter isTransaction ∧
    sentBytes t.trace = sentBytes s.trace ∧ receivedBytes t.trace = receivedBytes s.trace ∧
    (∀ i : Instr, i.wellFormed = true → requestFits i s →
      (∃ u, exec i t = .next u ∧ u.result ≠ none) ∧
      (checksConnection i = true → exec i t = .next (failedWith t .connectionClosed))) ∧
    (∀ path baud log os, s.opens = .ok :: os →
      ∃ u, exec (.connOpen path baud log) t = .next u ∧ u.connOpen = true ∧ u.result = some (.ok .unit))

/-- The invariant holds at reset. -/
def Obligations.ResetKeepsInvariant : Prop := Inv State.reset

/-- The invariant is kept by every step, a reset among them, from every state that meets it: buffers canonical and within their capacities,
length registers and ATT within their ranges, ERR and result in agreement, and no port transaction ever out of order. -/
def Obligations.StepKeepsInvariant : Prop := ∀ s t : State, Inv s → step s = .next t → Inv t

/-! ### The Frame Codec -/

/-- 40_frame_codec R120: CHECKSUM ends with the XOR of the bytes from 0x00, left to right, in CHK and as its result, and
writes nothing else. -/
def Obligations.ChecksumIsTheFold : Prop :=
  ∀ (b : List Byte) (s : State), s.busy = false →
    exec (.checksum b) s =
      .next { s with
        chk := b.foldl (· ^^^ ·) 0x00, err := none, result := some (.ok (.byte (b.foldl (· ^^^ ·) 0x00))) }

/-- 40_frame_codec R121, laws 1 to 6. -/
def Obligations.ChecksumLaws : Prop :=
  (∀ a b c : Byte, a ^^^ 0x00 = a ∧ a ^^^ a = 0x00 ∧ a ^^^ b = b ^^^ a ∧ (a ^^^ b) ^^^ c = a ^^^ (b ^^^ c)) ∧
  (∀ s t : List Byte, checksum (s ++ t) = checksum s ^^^ checksum t) ∧
  (∀ (b : List Byte) (s s' t t' : State), exec (.checksum b) s = .next t → exec (.checksum b) s' = .next t' →
    t.result = t'.result) ∧
  (∀ (s : List Byte) (i : Nat) (x : Byte), i < s.length → s[i]? ≠ some x → checksum (s.set i x) ≠ checksum s) ∧
  (∀ s t : List Byte, s.Perm t → checksum s = checksum t) ∧
  (∀ s t : List Byte, checksum (s ++ 0x00 :: t) = checksum (s ++ t)) ∧
  (∀ (s t u : List Byte) (x : Byte), checksum (s ++ x :: t ++ x :: u) = checksum (s ++ t ++ u)) ∧
  (∀ (s t u : List Byte) (x y m : Byte),
    checksum (s ++ (x ^^^ m) :: t ++ (y ^^^ m) :: u) = checksum (s ++ x :: t ++ y :: u)) ∧
  (∀ (c : Byte) (p : List Byte), checksum (reqFrame c p) = 0x00 ∧ checksum (rspFrame p) = 0x00) ∧
  (∀ f : List Byte, f ≠ [] →
    (checksum f = 0x00 ↔ f[f.length - 1]? = some (checksum (f.take (f.length - 1)))))

/-- 40_frame_codec R122: BUILD_REQ leaves the frame of 20_memory R63 in TXBUF from offset 0, TXLEN = p + 6, CMD = c, CHK
the checksum, returns the frame, and writes nothing else. -/
def Obligations.BuildReqBuildsTheFrame : Prop :=
  ∀ (c : Byte) (p : List Byte) (s : State), s.busy = false → p.length ≤ s.params.maxReqPayload →
    exec (.buildReq c p) s =
      .next { s with
        chk := checksum ([0x04, 0x30, 0x02, c] ++ p ++ [0x03])
        cmd := c
        txlen := p.length + 6
        txbuf := Memory.writeRange s.txbuf 0
          ([0x04, 0x30, 0x02, c] ++ p ++ [0x03] ++ [checksum ([0x04, 0x30, 0x02, c] ++ p ++ [0x03])])
        err := none
        result := some (.ok (.bytes
          ([0x04, 0x30, 0x02, c] ++ p ++ [0x03] ++ [checksum ([0x04, 0x30, 0x02, c] ++ p ++ [0x03])]))) }

/-- 20_memory R63, the address map of the request frame, through the reading of one byte: every offset of the map holds
its byte, and every byte of TXBUF outside the frame reads as before. -/
def Obligations.RequestFrameMap : Prop :=
  ∀ (c : Byte) (p : List Byte) (s t : State), exec (.buildReq c p) s = .next t →
    t.txlen = p.length + 6 ∧
    Memory.read t.txbuf 0 = 0x04 ∧ Memory.read t.txbuf 1 = 0x30 ∧ Memory.read t.txbuf 2 = 0x02 ∧
    Memory.read t.txbuf 3 = c ∧ (∀ i b, p[i]? = some b → Memory.read t.txbuf (4 + i) = b) ∧
    Memory.read t.txbuf (4 + p.length) = 0x03 ∧
    Memory.read t.txbuf (5 + p.length) = checksum (Memory.readRange t.txbuf 0 (5 + p.length)) ∧
    (∀ a, p.length + 6 ≤ a → Memory.read t.txbuf a = Memory.read s.txbuf a)

/-- 40_frame_codec R126: every frame BUILD_REQ returns ends with the XOR of all its preceding bytes; PARSE_RESP returns Ok
only for a well-formed frame, and Ok with the bytes 3 to n-3 if and only if the frame is well formed. -/
def Obligations.FrameInvariant : Prop :=
  (∀ (c : Byte) (p f : List Byte) (s t : State), exec (.buildReq c p) s = .next t → t.result = some (.ok (.bytes f)) →
    f[f.length - 1]? = some ((f.take (f.length - 1)).foldl (· ^^^ ·) 0x00)) ∧
  (∀ (raw : List Byte) (s t : State), exec (.parseResp raw) s = .next t →
    (t.result = some (.ok (.bytes ((raw.drop 3).take (raw.length - 5)))) ↔ WellFormedRsp raw) ∧
    ((∃ v, t.result = some (.ok v)) → WellFormedRsp raw))

/-- 40_frame_codec R124 on a well-formed frame: the payload returned, PAYLEN = n - 5, CHK the checksum, nothing else. -/
def Obligations.ParseOfWellFormedFrame : Prop :=
  ∀ (raw : List Byte) (s : State), s.busy = false → WellFormedRsp raw →
    exec (.parseResp raw) s =
      .next { s with
        chk := checksum (raw.take (raw.length - 1))
        paylen := raw.length - 5
        err := none
        result := some (.ok (.bytes ((raw.drop 3).take (raw.length - 5)))) }

/-- 40_frame_codec R124 with 60_exceptions R213, R214, R223: header test first (CHK not written), then the checksum test,
then the markers; each failure enters Failed with its kind and writes nothing else. -/
def Obligations.ParseFailures : Prop :=
  ∀ (raw : List Byte) (s : State), s.busy = false →
    (BadHeader raw → exec (.parseResp raw) s = .next (failedWith s .formatError)) ∧
    (¬ BadHeader raw → BadChecksum raw → exec (.parseResp raw) s =
      .next (failedWith { s with chk := checksum (raw.take (raw.length - 1)) } .checksumError)) ∧
    (¬ BadHeader raw → ¬ BadChecksum raw → BadMarkers raw → exec (.parseResp raw) s =
      .next (failedWith { s with chk := checksum (raw.take (raw.length - 1)) } .formatError)) ∧
    (¬ BadHeader raw → ¬ BadChecksum raw → ¬ BadMarkers raw → WellFormedRsp raw)

/-! ### The connection -/

/-- 41_handshake_engine R141: CONN_OPEN on a closed connection latches PATH, BAUD, LOG_EN, asks for even parity, 1 stop
bit, 7 data bits; on Ok the connection is open, ACK_WR_ERR clear and PHASE Idle; on IoErr it fails and stays closed. On an
open connection it is refused. -/
def Obligations.ConnOpenOutcomes : Prop :=
  ∀ (path : List Byte) (baud : Nat) (log : Bool) (s : State) (rest : List IoAnswer), s.busy = false →
    (s.connOpen = true → exec (.connOpen path baud log) s = .refused .alreadyOpen) ∧
    (s.connOpen = false → s.opens = .ok :: rest → exec (.connOpen path baud log) s =
      .next { s with
        path := path, baud := baud, logEn := log, connOpen := true, ackWrErr := false, phase := .idle, err := none
        opens := rest
        trace := s.trace ++ [⟨s.phase, .opened ⟨path, baud, .even, 1, 7, s.params.readTimeout⟩ .ok⟩]
        result := some (.ok .unit) }) ∧
    (s.connOpen = false → s.opens = .ioErr :: rest → exec (.connOpen path baud log) s =
      .next (failedWith
        { s with
          path := path, baud := baud, logEn := log
          opens := rest
          trace := s.trace ++ [⟨s.phase, .opened ⟨path, baud, .even, 1, 7, s.params.readTimeout⟩ .ioErr⟩] } .ioError))

/-- 41_handshake_engine R142: CONN_CLOSE clears CONN_OPEN whatever `PortClose` answers, and fails with IoError when that
is IoErr; on a closed connection it fails with ConnectionClosed and closes nothing. -/
def Obligations.ConnCloseOutcomes : Prop :=
  ∀ (s : State) (rest : List IoAnswer), s.busy = false →
    (s.connOpen = false → exec .connClose s = .next (failedWith s .connectionClosed)) ∧
    (s.connOpen = true → s.closes = .ok :: rest → exec .connClose s =
      .next { s with
        connOpen := false, err := none, closes := rest, trace := s.trace ++ [⟨s.phase, .closed .ok⟩]
        result := some (.ok .unit) }) ∧
    (s.connOpen = true → s.closes = .ioErr :: rest → exec .connClose s =
      .next (failedWith
        { s with connOpen := false, closes := rest, trace := s.trace ++ [⟨s.phase, .closed .ioErr⟩] } .ioError))

/-- 41_handshake_engine R140: on a closed connection every operation that makes the check ends Fail(ConnectionClosed) and
changes nothing but ERR, PHASE and the result: no transaction, no buffer, nothing built. That the operations beside SEND_REQ
and the commands report this kind is the spec's own reading (R140; 92_eei_decisions D12). -/
def Obligations.ClosedConnectionFailsFast : Prop :=
  ∀ (i : Instr) (s : State), checksConnection i = true → s.busy = false → s.connOpen = false → i.wellFormed = true →
    requestFits i s → exec i s = .next (failedWith s .connectionClosed)

/-! ### The Handshake Engine -/

/-- 41_handshake_engine R143: SEND_REQ on a closed connection fails before anything is built; else it builds the frame and
hands the whole of it to one write; on Ok PHASE is RequestSent, on IoErr it fails with IoError and the connection stays
open. -/
def Obligations.SendReqOutcomes : Prop :=
  ∀ (c : Byte) (p : List Byte) (s : State) (ws : List WriteAnswer), s.busy = false →
    p.length ≤ s.params.maxReqPayload →
    (s.connOpen = false → exec (.sendReq c p) s = .next (failedWith s .connectionClosed)) ∧
    (s.connOpen = true → s.writes = .ok :: ws →
      exec (.sendReq c p) s = .next (ended (requestSent s c p ws) .unit)) ∧
    (∀ n, s.connOpen = true → s.writes = .ioErr n :: ws → exec (.sendReq c p) s =
      .next (failedWith
        { requestBuilt s c p with
          writes := ws
          tap := tapped s [⟨.tx, reqFrame c p⟩]
          trace := s.trace ++ [⟨s.phase, .wrote (reqFrame c p) (.ioErr n)⟩] } .ioError))

/-- 30_encoding R91, 41_handshake_engine R144: after `n` empty reads, `n` below MAX_READ_ATTEMPTS, the byte `b` read is
taken alone: ATT = n + 1, CODE = b, CLEN = 1, the class of `b` returned, the bytes after it still in the receive stream;
the class is decided on all eight bits. That ERR ends as None rests on the model's reading (10_state R23, log 9). -/
def Obligations.ReadCodeTakesOneByte : Prop :=
  (classify 0x06 = .ack ∧ classify 0x15 = .nack ∧ classify 0x04 = .eot ∧
    ∀ b : Byte, b ≠ 0x06 → b ≠ 0x15 → b ≠ 0x04 → classify b = .errorUnrecognized) ∧
  ∀ (s : State) (n : Nat) (b : Byte) (more : List Byte) (rest : List ReadAnswer), s.busy = false →
    s.connOpen = true → n < s.params.maxReadAttempts →
    s.reads = List.replicate n (.bytes []) ++ .bytes (b :: more) :: rest →
    exec .readCode s =
      .next (ended (codeRead s n b (if more = [] then rest else .bytes more :: rest)) (.codeClass (classify b)))

/-- 60_exceptions R212, R224, 41_handshake_engine R144: MAX_READ_ATTEMPTS empty reads end RetryExhausted with
ATT = MAX_READ_ATTEMPTS and no further read; IoErr on read number `n + 1`, also the last allowed one, ends IoError. CODE
keeps its value. -/
def Obligations.ReadCodeFailures : Prop :=
  ∀ (s : State) (n : Nat) (rest : List ReadAnswer), s.busy = false → s.connOpen = true →
    (s.reads = List.replicate s.params.maxReadAttempts (.bytes []) ++ rest → exec .readCode s =
      .next (failedWith
        { s with
          clen := 0
          att := s.params.maxReadAttempts
          reads := rest
          trace := s.trace ++ List.replicate s.params.maxReadAttempts ⟨s.phase, .got 1 (.bytes [])⟩ }
        .retryExhausted)) ∧
    (n < s.params.maxReadAttempts → s.reads = List.replicate n (.bytes []) ++ .ioErr :: rest → exec .readCode s =
      .next (failedWith
        { s with
          clen := 0
          att := n + 1
          reads := rest
          trace := s.trace ++ List.replicate n ⟨s.phase, .got 1 (.bytes [])⟩ ++ [⟨s.phase, .got 1 .ioErr⟩] }
        .ioError))

/-- 41_handshake_engine R146, R147: READ_DATA stops at the first read after which the tail condition holds, within
MAX_READ_ATTEMPTS reads, and hands the whole buffer to PARSE_RESP, whose outcome is its own. -/
def Obligations.ReadDataParsesAtTheFirstTail : Prop :=
  ∀ (s : State) (cs : List (List Byte)) (rs : List ReadAnswer), ChunksNext s cs rs →
    cs.length ≤ s.params.maxReadAttempts → NoTailWithin cs (cs.length - 1) → tailHolds cs.flatten = true →
    exec .readData s = exec (.parseResp cs.flatten) (accumulated s cs rs)

/-- 60_exceptions R212, R224, 41_handshake_engine R146, R152: MAX_READ_ATTEMPTS reads with the tail condition after none
of them end RetryExhausted, whether or not bytes kept arriving, and RXBUF holds what did arrive; the first read that
answers IoErr ends IoError, whatever is already in the buffer. -/
def Obligations.ReadDataFailures : Prop :=
  ∀ (s : State) (cs : List (List Byte)) (rs : List ReadAnswer), NoTailWithin cs cs.length →
    (ChunksNext s cs rs → cs.length = s.params.maxReadAttempts →
      exec .readData s = .next (failedWith (accumulated s cs rs) .retryExhausted) ∧
        rxBytes (accumulated s cs rs) = cs.flatten) ∧
    (ChunksNext s cs (.ioErr :: rs) → cs.length < s.params.maxReadAttempts → exec .readData s =
      .next (failedWith
        { accumulated s cs rs with
          att := cs.length + 1
          trace := (accumulated s cs rs).trace ++ [⟨s.phase, .got s.params.dataReadCap .ioErr⟩] } .ioError))

/-- 70_reset_and_hazards R256, its last part: when all payload bytes are 0x20 or above no early tail match can arise; the
frame comes back whole in however many reads the port splits it, up to MAX_READ_ATTEMPTS, empty reads among them. -/
def Obligations.AnyChunkingOfPrintableFrames : Prop :=
  ∀ (s : State) (q : List Byte) (pre : List (List Byte)) (last : List Byte) (rs : List ReadAnswer),
    ChunksNext s (pre ++ [last]) rs → (pre ++ [last]).flatten = rspFrame q → last ≠ [] →
    (pre ++ [last]).length ≤ s.params.maxReadAttempts → (∀ b ∈ q, 0x20 ≤ b.toNat) →
    exec .readData s =
      .next (ended
        { accumulated s (pre ++ [last]) rs with
          chk := checksum ([0x01, 0x30, 0x02] ++ q ++ [0x03]), paylen := q.length } (.bytes q))

/-- 41_handshake_engine R148, 60_exceptions R220: EMIT_ACK writes the one byte 0x06 and ends Ok whatever the write
answers; IoErr sets ACK_WR_ERR, and nothing clears it here. ACK_EMIT is the same write (log 14). -/
def Obligations.EmitAckOutcomes : Prop :=
  ∀ (i : Instr) (s : State) (a : WriteAnswer) (ws : List WriteAnswer), i = .emitAck ∨ i = .ackEmit → s.busy = false →
    s.connOpen = true → s.writes = a :: ws → exec i s = .next (ended (ackWritten s a ws) .unit)

/-- 41_handshake_engine R149: RESP_CYCLE is READ_CODE, the test for Ack, READ_DATA, EMIT_ACK, READ_CODE and the test for
Eot, strictly in this order; the first failure is its own, ResponseNotAck and ResponseNotEot are its two tests, and the
payload is returned only after the Eot, with PHASE Complete. -/
def Obligations.RespCycleIsItsSteps : Prop :=
  ∀ s t1 : State, s.busy = false → s.connOpen = true → exec .readCode { s with phase := .awaitingAck } = .next t1 →
    (∀ k, t1.result = some (.fail k) → exec .respCycle s = .next t1) ∧
    (∀ c, t1.result = some (.ok (.codeClass c)) → c ≠ .ack →
      exec .respCycle s = .next (failedWith t1 .responseNotAck)) ∧
    (t1.result = some (.ok (.codeClass .ack)) → ∀ t2, exec .readData { t1 with phase := .awaitingData } = .next t2 →
      (∀ k, t2.result = some (.fail k) → exec .respCycle s = .next t2) ∧
      (∀ q, t2.result = some (.ok (.bytes q)) → ∀ t3, exec .emitAck t2 = .next t3 →
        ∀ t4, exec .readCode { t3 with phase := .awaitingEot } = .next t4 →
          (∀ k, t4.result = some (.fail k) → exec .respCycle s = .next t4) ∧
          (∀ c, t4.result = some (.ok (.codeClass c)) → c ≠ .eot →
            exec .respCycle s = .next (failedWith t4 .responseNotEot)) ∧
          (t4.result = some (.ok (.codeClass .eot)) →
            exec .respCycle s = .next { t4 with phase := .complete, result := some (.ok (.bytes q)) })))

/-- 41_handshake_engine R149: a cycle whose items come whole ends Ok with the payload and PHASE Complete, whatever the
acknowledgment write answers (60_exceptions R220). -/
def Obligations.SmoothCycleCompletes : Prop :=
  ∀ (s : State) (q : List Byte) (a : WriteAnswer) (rs : List ReadAnswer) (ws : List WriteAnswer), SmoothCycle s q rs →
    s.writes = a :: ws → exec .respCycle s = .next (ended (cycleDone s q a rs ws) (.bytes q))

/-- 60_exceptions R215: a first code byte that is not ACK, NACK among them, ends ResponseNotAck, CODE holding it, with no
further read and no write. -/
def Obligations.NotAckEndsTheCycle : Prop :=
  ∀ (s : State) (n : Nat) (b : Byte) (rest : List ReadAnswer), s.busy = false → s.connOpen = true →
    n < s.params.maxReadAttempts → b ≠ 0x06 → s.reads = List.replicate n (.bytes []) ++ .bytes [b] :: rest →
    exec .respCycle s =
      .next (failedWith (codeRead { s with phase := .awaitingAck } n b rest) .responseNotAck)

/-- 60_exceptions R216: after a good ACK and data frame, a code byte that is not EOT ends ResponseNotEot; the 0x06 has
been written and no payload is returned. -/
def Obligations.NotEotEndsTheCycle : Prop :=
  ∀ (s : State) (q : List Byte) (b : Byte) (a : WriteAnswer) (rs : List ReadAnswer) (ws : List WriteAnswer),
    s.busy = false → s.connOpen = true → q.length + 5 ≤ s.params.dataReadCap → b ≠ 0x04 →
    s.reads = .bytes [0x06] :: .bytes (rspFrame q) :: .bytes [b] :: rs → s.writes = a :: ws →
    ∃ t, exec .respCycle s = .next t ∧ t.result = some (.fail .responseNotEot) ∧ t.phase = .failed ∧ t.code = b ∧
      t.reads = rs ∧
      t.trace.map (·.act) = s.trace.map (·.act) ++
        [.got 1 (.bytes [0x06]), .got s.params.dataReadCap (.bytes (rspFrame q)), .wrote [0x06] a, .got 1 (.bytes [b])]

/-! ### The Command Surface -/

/-- 42_command_surface R170, R172: ENC_NUM returns v + 0x20, ENC_ITEM three decimal digits, most significant first with
leading zeros; nothing else changes; numbers above 0xDF and items above 999 are refused. The ASCII digits and the leading
zeros are the spec's own reading and general knowledge (30_encoding R93, D18; log 25). -/
def Obligations.OperandEncoders : Prop :=
  (∀ (v : Nat) (s : State), s.busy = false → v ≤ 0xDF →
    exec (.encNum v) s = .next (ended s (.byte (BitVec.ofNat 8 (v + 0x20)))) ∧
      (BitVec.ofNat 8 (v + 0x20)).toNat = v + 0x20) ∧
  (∀ (k : Nat) (s : State), s.busy = false → k ≤ 999 →
    exec (.encItem k) s = .next (ended s (.bytes (specItem k))) ∧
      ∃ h t u : Nat, h ≤ 9 ∧ t ≤ 9 ∧ u ≤ 9 ∧ k = 100 * h + 10 * t + u ∧
        specItem k = [BitVec.ofNat 8 (0x30 + h), BitVec.ofNat 8 (0x30 + t), BitVec.ofNat 8 (0x30 + u)]) ∧
  (∀ (v : Nat) (s : State), s.busy = false → 0xDF < v → exec (.encNum v) s = .refused (.numberOutOfDomain v)) ∧
  (∀ (k : Nat) (s : State), s.busy = false → 999 < k → exec (.encItem k) s = .refused (.itemOutOfDomain k))

/-- 42_command_surface R171: DEC_NUM ends Ok with a number below 256 and changes nothing else; for b >= 0x20 it is
b - 0x20. For b < 0x20 the number is the parameter `deoffset` (log 15) and nothing more is said of it. -/
def Obligations.DecNumResult : Prop :=
  ∀ (b : Byte) (s : State), s.busy = false →
    ∃ n : Nat, n < 256 ∧ exec (.decNum b) s = .next (ended s (.num n)) ∧ (0x20 ≤ b.toNat → n = b.toNat - 0x20)

/-- 42_command_surface R191, laws 1 to 3: the offset arithmetic round-trips. -/
def Obligations.OffsetRoundTrip : Prop :=
  (∀ (p : Params) (v : Nat), v ≤ 0xDF → decNum p (numByte v) = v) ∧
  (∀ (p : Params) (b : Byte), 0x20 ≤ b.toNat → numByte (decNum p b) = b) ∧
  (∀ (p : Params) (b : Byte), 0x20 ≤ b.toNat → b.toNat ≤ 0x3F → deoffset p b = b ^^^ 0x20)

/-- 42_command_surface R174: the generic reply record; a field is valid exactly when its byte exists, the result byte is
raw, a field is the number DEC_NUM gives for its byte: b - 0x20 from 0x20 up (below it the parameter, log 15). -/
def Obligations.DecodeReplyRecord : Prop :=
  ∀ (q : List Byte) (s : State), s.busy = false →
    ∃ r : ReplyRecord, exec (.decodeReply q) s = .next (ended s (.reply r)) ∧ r.payload = q ∧ r.result = q[0]? ∧
      (r.field1.isSome = true ↔ 2 ≤ q.length) ∧ (r.field2.isSome = true ↔ 3 ≤ q.length) ∧
      (∀ b t, q[1]? = some b → exec (.decNum b) s = .next t → t.result = r.field1.map fun n => .ok (.num n)) ∧
      (∀ b t, q[2]? = some b → exec (.decNum b) s = .next t → t.result = r.field2.map fun n => .ok (.num n)) ∧
      (∀ b, q[1]? = some b → 0x20 ≤ b.toNat → r.field1 = some (specNum b)) ∧
      (∀ b, q[2]? = some b → 0x20 ≤ b.toNat → r.field2 = some (specNum b)) ∧ r.status = none ∧ r.text = none

/-- 42_command_surface R197: the status layout, bit by bit from the least significant, flags raw, the third and fourth
byte as the numbers DEC_NUM gives for them (below 0x20 the parameter, log 15); a field is valid exactly when its byte
exists. Bit 0 as the least significant and the raw flags are the spec's own reading (00_scope R13, D17, D28; log 24). -/
def Obligations.DecodeStatusRecord : Prop :=
  ∀ (q : List Byte) (s : State), s.busy = false →
    ∃ r : StatusRecord, exec (.decodeStatus q) s = .next (ended s (.status r)) ∧
      r.feedSensorBlocked = q[0]?.map (specBit · 0) ∧ r.exitSensorBlocked = q[0]?.map (specBit · 1) ∧
      r.resetSinceLastStatus = q[0]?.map (specBit · 3) ∧ r.timingWheelSensorBlocked = q[0]?.map (specBit · 4) ∧
      r.calibratingDoubleDetect = q[1]?.map (specBit · 4) ∧
      (r.averageThickness.isSome = true ↔ 3 ≤ q.length) ∧ (r.averageLength.isSome = true ↔ 4 ≤ q.length) ∧
      (∀ b t, q[2]? = some b → exec (.decNum b) s = .next t →
        t.result = r.averageThickness.map fun n => .ok (.num n)) ∧
      (∀ b t, q[3]? = some b → exec (.decNum b) s = .next t → t.result = r.averageLength.map fun n => .ok (.num n)) ∧
      (∀ b, q[2]? = some b → 0x20 ≤ b.toNat → r.averageThickness = some (specNum b)) ∧
      (∀ b, q[3]? = some b → 0x20 ≤ b.toNat → r.averageLength = some (specNum b))

/-- 42_command_surface R173: COMMAND is PHASE <- Idle, SEND_REQ, RESP_CYCLE, DECODE_REPLY; every failure of the two parts
passes through unchanged, and after a failure of SEND_REQ nothing more happens. That it is so for the unassigned command
codes too is the model's choice (log 32). -/
def Obligations.CommandIsItsSteps : Prop :=
  ∀ (c : Byte) (p : List Byte) (s t1 : State), exec (.sendReq c p) { s with phase := .idle } = .next t1 →
    (∀ k, t1.result = some (.fail k) → exec (.command c p) s = .next t1) ∧
    (t1.result = some (.ok .unit) → ∀ t2, exec .respCycle t1 = .next t2 →
      (∀ k, t2.result = some (.fail k) → exec (.command c p) s = .next t2) ∧
      (∀ q, t2.result = some (.ok (.bytes q)) →
        exec (.command c p) s = .next { t2 with result := some (.ok (.reply (decodeReply s.params q))) }))

/-- 42_command_surface R173: a command answered smoothly completes with the reply record of its payload. That COMMAND takes
the unassigned command codes too is the model's choice (log 32). -/
def Obligations.CommandCompletes : Prop :=
  ∀ (c : Byte) (p q : List Byte) (s : State) (a : WriteAnswer) (rs : List ReadAnswer) (ws : List WriteAnswer),
    SmoothCycle s q rs → p.length ≤ s.params.maxReqPayload → s.writes = .ok :: a :: ws →
    exec (.command c p) s = .next (ended (exchangeDone s c p q a rs ws) (.reply (decodeReply s.params q)))

/-- 42_command_surface R176 to R185, R188, R192: a numeric command answered smoothly sends its code with each argument
offset by 0x20 and completes with the generic record; DISPENSE with its one argument. -/
def Obligations.NumericCommandsComplete : Prop :=
  ∀ (q : List Byte) (s : State) (a : WriteAnswer) (rs : List ReadAnswer) (ws : List WriteAnswer),
    SmoothCycle s q rs → s.writes = .ok :: a :: ws →
    (∀ e ∈ numericCommands, ∀ args : List Nat, (∀ v ∈ args, v ≤ 0xDF) → args.length ≤ s.params.maxReqPayload →
      exec (e.2 args) s =
        .next (ended (exchangeDone s e.1 (args.map fun v => BitVec.ofNat 8 (v + 0x20)) q a rs ws)
          (.reply (decodeReply s.params q)))) ∧
    (∀ n ≤ 0xDF, exec (.dispense n) s =
      .next (ended (exchangeDone s 0x42 [BitVec.ofNat 8 (n + 0x20)] q a rs ws) (.reply (decodeReply s.params q))))

/-- 42_command_surface R176 to R185, R188: on every path a numeric command is COMMAND with its code and its arguments
each offset by 0x20; a DISPENSE above 0xDF is refused. -/
def Obligations.NumericCommandsAreCommands : Prop :=
  (∀ e ∈ numericCommands, ∀ (args : List Nat) (s : State), (∀ v ∈ args, v ≤ 0xDF) →
    exec (e.2 args) s = exec (.command e.1 (args.map fun v => BitVec.ofNat 8 (v + 0x20))) s) ∧
  (∀ (n : Nat) (s : State), n ≤ 0xDF → exec (.dispense n) s = exec (.command 0x42 [BitVec.ofNat 8 (n + 0x20)]) s) ∧
  (∀ (n : Nat) (s : State), s.busy = false → 0xDF < n → exec (.dispense n) s = .refused (.numberOutOfDomain n))

/-- 42_command_surface R175: STATUS is COMMAND 0x40 with the status layout added to its record. That the layout is that of
this command's reply is the spec's own choice (R175, D28; log 24). -/
def Obligations.StatusAddsTheLayout : Prop :=
  ∀ (args : List Nat) (s t : State), (∀ v ∈ args, v ≤ 0xDF) →
    exec (.command 0x40 (args.map fun v => BitVec.ofNat 8 (v + 0x20))) s = .next t →
    (∀ k, t.result = some (.fail k) → exec (.status args) s = .next t) ∧
    (∀ r, t.result = some (.ok (.reply r)) → exec (.status args) s =
      .next { t with result := some (.ok (.reply { r with status := some (decodeStatus s.params r.payload) })) })

/-- 42_command_surface R175, R186, R187: STATUS, and READ_PARAM and WRITE_PARAM whose reply opens with the acknowledged
marker, complete when answered smoothly; the requests carry the texts of 30_encoding R93. The layout of STATUS (D28, log 24)
and the text code (D18, log 25) are the spec's own choices. -/
def Obligations.StatusAndParametersComplete : Prop :=
  ∀ (q : List Byte) (s : State) (a : WriteAnswer) (rs : List ReadAnswer) (ws : List WriteAnswer),
    SmoothCycle s q rs → s.writes = .ok :: a :: ws →
    (∀ args : List Nat, (∀ v ∈ args, v ≤ 0xDF) → args.length ≤ s.params.maxReqPayload →
      exec (.status args) s =
        .next (ended (exchangeDone s 0x40 (args.map fun v => BitVec.ofNat 8 (v + 0x20)) q a rs ws)
          (.reply { decodeReply s.params q with status := some (decodeStatus s.params q) }))) ∧
    (∀ text : List Byte, q = s.params.paramAckMarker :: text →
      (∀ k ≤ 999, exec (.readParam k) s =
        .next (ended (exchangeDone s 0x52 ([0x44, 0x2F] ++ specItem k) q a rs ws)
          (.reply { decodeReply s.params q with text := some text }))) ∧
      (∀ k ≤ 999, ∀ v : List Byte, v.length + 6 ≤ s.params.maxReqPayload → exec (.writeParam k v) s =
        .next (ended (exchangeDone s 0x57 ([0x44, 0x2F] ++ specItem k ++ [0x2F] ++ v) q a rs ws)
          (.reply { decodeReply s.params q with text := some text }))))

/-- 42_command_surface R186, R187, 60_exceptions R217: READ_PARAM and WRITE_PARAM are COMMAND with the parameter text,
then CheckParamAck: a failure of COMMAND is theirs; a reply that is empty or opens otherwise ends IllegalCommand after the
whole handshake; else the record gains the text after the marker. The text code of the request (30_encoding R93, D18; log 25)
and IllegalCommand for an empty reply (D19) are the spec's own choices. -/
def Obligations.ParameterReplyIsChecked : Prop :=
  ∀ (i : Instr) (c : Byte) (p : List Byte) (k : Nat) (s t : State), k ≤ 999 →
    (i = .readParam k ∧ c = 0x52 ∧ p = [0x44, 0x2F] ++ specItem k) ∨
      (∃ v, i = .writeParam k v ∧ c = 0x57 ∧ p = [0x44, 0x2F] ++ specItem k ++ [0x2F] ++ v) →
    exec (.command c p) s = .next t →
    (∀ e, t.result = some (.fail e) → exec i s = .next t) ∧
    (∀ r, t.result = some (.ok (.reply r)) → (r.payload = [] ∨ r.payload.head? ≠ some s.params.paramAckMarker) →
      t.phase = .complete ∧ exec i s = .next (failedWith t .illegalCommand)) ∧
    (∀ r text, t.result = some (.ok (.reply r)) → r.payload = s.params.paramAckMarker :: text →
      exec i s = .next { t with result := some (.ok (.reply { r with text := some text })) })

/-! ### Wire items -/

/-- 30_encoding R84, R91: a code byte taken by READ_CODE is latched in CODE and its class is returned as a value; no code
byte is a failure. A row of format CODE runs as READ_CODE once its byte has joined the receive stream, behind what is still
unread (20_memory R61, 70_reset_and_hazards R257), whatever that is; with nothing unread, and `n` reads before that find
nothing, it takes its own byte. That the row is run so is the model's reading (log 14). -/
def Obligations.CodeBytesAreValues : Prop :=
  (∀ (i : Instr) (b : Byte) (s : State),
    (i = .ack ∧ b = 0x06) ∨ (i = .nack ∧ b = 0x15) ∨ (i = .eot ∧ b = 0x04) ∨ i = .unrecognized b →
    exec i s = exec .readCode { s with reads := s.reads ++ [.bytes [b]] }) ∧
  ∀ (s : State) (n : Nat), s.busy = false → s.connOpen = true → n < s.params.maxReadAttempts →
    s.reads = List.replicate n (.bytes []) →
    exec .ack s = .next (ended (codeRead s n 0x06 []) (.codeClass .ack)) ∧
    exec .nack s = .next (ended (codeRead s n 0x15 []) (.codeClass .nack)) ∧
    exec .eot s = .next (ended (codeRead s n 0x04 []) (.codeClass .eot)) ∧
    ∀ b : Byte, b ≠ 0x06 → b ≠ 0x15 → b ≠ 0x04 →
      exec (.unrecognized b) s = .next (ended (codeRead s n b []) (.codeClass .errorUnrecognized))

/-- RSP_FRAME runs as READ_DATA once its frame has joined the receive stream, behind what is still unread (20_memory R61),
whatever that is; with nothing unread, a frame that one read can return is accumulated and validated, and its payload
returned (30_encoding R85, 40_frame_codec R124). That the row is run so is the model's reading (log 14). -/
def Obligations.ResponseFrameIsReceived : Prop :=
  (∀ (q : List Byte) (s : State),
    exec (.rspFrame q) s = exec .readData { s with reads := s.reads ++ [.bytes (rspFrame q)] }) ∧
  ∀ (q : List Byte) (s : State), s.busy = false → s.connOpen = true → s.reads = [] →
    q.length + 5 ≤ s.params.dataReadCap → exec (.rspFrame q) s = .next (ended (frameRead s q []) (.bytes q))

/-- Wire items on a closed connection: the connection check of the operation that consumes or writes them fails; what the
device sent stays in the receive stream (10_state R36). The model's reading (log 14). -/
def Obligations.WireItemsOnAClosedConnection : Prop :=
  ∀ (i : Instr) (s : State), s.busy = false → s.connOpen = false →
    (i = .ackEmit → exec i s = .next (failedWith s .connectionClosed)) ∧
    (arrivals i ≠ [] →
      exec i s = .next (failedWith { s with reads := s.reads ++ [.bytes (arrivals i)] } .connectionClosed))

/-! ### Whole-machine rules -/

/-- 60_exceptions R221: which operation can end with which kind. The wire items take the rows of READ_CODE, READ_DATA and
EMIT_ACK (log 14). -/
def Obligations.FailureKindsTable : Prop :=
  ∀ (i : Instr) (s t : State) (k : ErrKind), exec i s = .next t → t.result = some (.fail k) → mayFail i k = true

/-- 60_exceptions R226, 10_state R23, R34: after Fail(K) ERR holds K and PHASE is Failed; after Ok ERR is None; either way
BUSY is 0. -/
def Obligations.FailureEntry : Prop :=
  ∀ (i : Instr) (s t : State), exec i s = .next t → t.busy = false ∧
    (∀ k, t.result = some (.fail k) → t.err = some k ∧ errNumber t = k.number ∧ t.phase = .failed) ∧
    (∀ v, t.result = some (.ok v) → t.err = none ∧ errNumber t = 0)

/-- 10_state R20, the column "Written by": every operation leaves every data-path register it is not listed to write
unchanged. -/
def Obligations.RegistersWrittenOnlyByTheirOperations : Prop :=
  ∀ (i : Instr) (s t : State), exec i s = .next t →
    (runsChecksum i = false → t.chk = s.chk) ∧
    (runsReadCode i = false → runsReadData i = false → t.att = s.att) ∧
    (runsReadData i = false → t.rxlen = s.rxlen) ∧
    (requestOf i = none → t.txlen = s.txlen ∧ t.cmd = s.cmd) ∧
    (runsReadCode i = false → t.code = s.code ∧ t.clen = s.clen) ∧
    (runsParse i = false → t.paylen = s.paylen)

/-- 10_state R30, R31, R32, R37: CONN_OPEN (the flag) changes only by CONN_OPEN ending Ok and by CONN_CLOSE; ACK_WR_ERR is
sticky but for CONN_OPEN and is set only where EMIT_ACK runs; PATH, BAUD, LOG_EN are written by CONN_OPEN only; the
parameters never change; PHASE changes only by a failure or by the operations of 41_handshake_engine R150. -/
def Obligations.ControlRegistersFrame : Prop :=
  ∀ (i : Instr) (s t : State), exec i s = .next t →
    (isOpenOp i = false → isCloseOp i = false → t.connOpen = s.connOpen) ∧
    (isOpenOp i = true → (t.connOpen = true ↔ t.result = some (.ok .unit))) ∧
    (isCloseOp i = true → t.connOpen = false) ∧
    (isOpenOp i = false → s.ackWrErr = true → t.ackWrErr = true) ∧
    (isOpenOp i = false → runsEmitAck i = false → t.ackWrErr = s.ackWrErr) ∧
    (isOpenOp i = false → t.path = s.path ∧ t.baud = s.baud ∧ t.logEn = s.logEn) ∧
    t.params = s.params ∧
    (writesPhase i = false → (∀ k, t.result ≠ some (.fail k)) → t.phase = s.phase)

/-- 20_memory R51, R52, 10_state R27, R28: RXBUF is written only by READ_DATA, below the RXLEN it ends with; TXBUF only by
BUILD_REQ, below the length of the frame it builds. Every other byte of both buffers reads as before. -/
def Obligations.BuffersFrame : Prop :=
  ∀ (i : Instr) (s t : State), exec i s = .next t →
    (runsReadData i = false → ∀ a, Memory.read t.rxbuf a = Memory.read s.rxbuf a) ∧
    (∀ a, t.rxlen ≤ a → Memory.read t.rxbuf a = Memory.read s.rxbuf a) ∧
    (requestOf i = none → ∀ a, Memory.read t.txbuf a = Memory.read s.txbuf a) ∧
    (∀ c p, requestOf i = some (c, p) → ∀ a, p.length + 6 ≤ a → Memory.read t.txbuf a = Memory.read s.txbuf a)

/-- 10_state R27, R39, 41_handshake_engine R149 (d): when READ_DATA or RESP_CYCLE returns a payload, RXBUF[0 .. RXLEN-1]
is a well-formed frame and the view RXBUF[3 .. 3+PAYLEN-1] is that payload. That the row RSP_FRAME runs as READ_DATA is the
model's reading (log 14). -/
def Obligations.PayloadViewIsTheResult : Prop :=
  ∀ (i : Instr) (s t : State) (q : List Byte), i = .readData ∨ i = .respCycle ∨ (∃ p, i = .rspFrame p) →
    exec i s = .next t → t.result = some (.ok (.bytes q)) → WellFormedRsp (rxBytes t) ∧ payloadView t = q

/-- 20_memory R66 (b), 41_handshake_engine R151: the acknowledgment byte is written only after a data frame has been
received and validated. -/
def Obligations.AcknowledgmentOnlyAfterAGoodFrame : Prop :=
  ∀ (i : Instr) (s t : State), runsCycle i = true → exec i s = .next t →
    ∃ ext, t.trace = s.trace ++ ext ∧
      ((∃ e ∈ ext, ∃ a, e.act = .wrote [0x06] a) → WellFormedRsp (rxBytes t))

/-- 30_encoding R86, 41_handshake_engine R151: every write is the operation's own request frame or the single byte 0x06;
no NACK and no other byte is ever written. -/
def Obligations.OnlyRequestsAndAcknowledgmentsAreWritten : Prop :=
  ∀ (i : Instr) (s t : State), exec i s = .next t →
    ∃ ext, t.trace = s.trace ++ ext ∧
      ∀ e ∈ ext, ∀ b a, e.act = .wrote b a →
        (b = [0x06] ∧ runsEmitAck i = true) ∨ ∃ c p, requestOf i = some (c, p) ∧ b = reqFrame c p

/-- 41_handshake_engine R152, 70_reset_and_hazards R254: READ_CODE and READ_DATA issue at most MAX_READ_ATTEMPTS reads, a
cycle at most three times as many, and no operation more than 1 + 3 * MAX_READ_ATTEMPTS + 1 transactions. -/
def Obligations.TransactionsAreBounded : Prop :=
  ∀ (i : Instr) (s t : State), exec i s = .next t →
    ∃ ext, t.trace = s.trace ++ ext ∧
      (runsCycle i = false → (ext.filter isRead).length ≤ s.params.maxReadAttempts) ∧
      (ext.filter isRead).length ≤ 3 * s.params.maxReadAttempts ∧
      ext.length ≤ 1 + 3 * s.params.maxReadAttempts + 1

/-- 20_memory R66 (c), (d), 41_handshake_engine R150: a command's first transaction is the write of its request, in PHASE
Idle, and nothing follows unless it answered Ok; the PHASE of its transactions never goes back. -/
def Obligations.RequestGoesFirst : Prop :=
  ∀ (i : Instr) (s t : State) (c : Byte) (p : List Byte), runsCycle i = true → requestOf i = some (c, p) →
    exec i s = .next t →
    ∃ ext, t.trace = s.trace ++ ext ∧
      ext.Pairwise (fun e f => e.phase.number.toNat ≤ f.phase.number.toNat) ∧
      (ext = [] ∨ ∃ a rest, ext = ⟨.idle, .wrote (reqFrame c p) a⟩ :: rest ∧ (a ≠ .ok → rest = []))

/-- 20_memory R61: what the reads of an operation take and what stays are, in order, what was in the receive stream (with
what a wire item brings behind it, log 14): nothing is lost, repeated or reordered. Stated where the listed answers suffice, so that
no free answer (log 5) is drawn. That the bytes stay also across CONN_CLOSE and CONN_OPEN is the model's choice (log 31). -/
def Obligations.ReceiveStreamIsConserved : Prop :=
  ∀ (i : Instr) (s t : State), exec i s = .next t → t.draws = s.draws →
    ∃ ext, t.trace = s.trace ++ ext ∧
      pendingBytes s.reads ++ arrivals i = receivedBytes ext ++ pendingBytes t.reads

/-- 10_state R39: no operation depends on what a previous operation left in the scratch registers, the buffers, PHASE,
ERR or the result: from two states that agree on the connection, the parameters and the environment's answers, it ends
with the same result after the same port transactions, and they agree again. -/
def Obligations.ScratchStateDoesNotMatter : Prop :=
  ∀ (i : Instr) (s s' t : State), SameSession s s' → exec i s = .next t →
    ∃ t' ext ext', exec i s' = .next t' ∧ t'.result = t.result ∧ SameSession t t' ∧
      t.trace = s.trace ++ ext ∧ t'.trace = s'.trace ++ ext' ∧ ext.map (·.act) = ext'.map (·.act)

/-- 10_state R33: the logging tap changes no register, buffer or port state: whatever LOG_EN and the tap hold, an
operation ends in the same state but for LOG_EN and the tap. -/
def Obligations.LoggingChangesNothing : Prop :=
  ∀ (i : Instr) (s t : State) (on : Bool) (tap : List TapRecord), exec i s = .next t →
    ∃ t', exec i { s with logEn := on, tap := tap } = .next t' ∧ { t' with logEn := t.logEn, tap := t.tap } = t
end

