-- ==== Sys2Proof/Laws/Memory.lean ====
section
/-! SUPPORT. The laws of the buffers: a byte read after a write, ranges, the canonical form, equal memories are equal
data. The read-after-write laws hold of every list of entries, canonical or not. -/

namespace Sys2Proof.Machine

/-! ### One byte -/

@[simp] theorem Memory.read_nil (a : Nat) : Memory.read [] a = Memory.unlisted := rfl

theorem Memory.read_forget_same (m : Memory) (a : Nat) : Memory.read (Memory.forget m a) a = Memory.unlisted := by
  induction m with
  | nil => rfl
  | cons c t ih =>
    by_cases h : c.1 = a
    · simpa [Memory.forget, h] using ih
    · simpa [Memory.forget, Memory.read, h] using ih

theorem Memory.read_forget_other (m : Memory) {a x : Nat} (hx : x ≠ a) :
    Memory.read (Memory.forget m a) x = Memory.read m x := by
  induction m with
  | nil => rfl
  | cons c t ih =>
    by_cases h : c.1 = a
    · have hcx : ¬ c.1 = x := fun e => hx (e.symm.trans h)
      simp only [Memory.read, if_neg hcx]
      simpa [Memory.forget, h] using ih
    · by_cases hcx : c.1 = x
      · subst hcx
        simp [Memory.forget, Memory.read, h]
      · simpa [Memory.forget, Memory.read, h, hcx] using ih

theorem Memory.read_place_same (m : Memory) (a : Nat) (b : Byte) (h : ∀ c ∈ m, c.1 ≠ a) :
    Memory.read (Memory.place m a b) a = b := by
  induction m with
  | nil => simp [Memory.place, Memory.read]
  | cons c t ih =>
    have hc : ¬ c.1 = a := h c (by simp)
    by_cases hlt : a < c.1
    · simp [Memory.place, hlt, Memory.read]
    · simpa [Memory.place, hlt, Memory.read, hc] using ih fun d hd => h d (by simp [hd])

theorem Memory.read_place_other (m : Memory) {a x : Nat} (b : Byte) (hx : x ≠ a) :
    Memory.read (Memory.place m a b) x = Memory.read m x := by
  induction m with
  | nil => simp [Memory.place, Memory.read, Ne.symm hx]
  | cons c t ih =>
    by_cases hlt : a < c.1
    · simp [Memory.place, hlt, Memory.read, Ne.symm hx]
    · by_cases hcx : c.1 = x
      · subst hcx
        simp [Memory.place, hlt, Memory.read]
      · simp [Memory.place, hlt, Memory.read, hcx, ih]

theorem Memory.forget_keys (m : Memory) (a : Nat) : ∀ c ∈ Memory.forget m a, c.1 ≠ a := by
  intro c hc
  simpa using (List.mem_filter.mp hc).2

/-- A byte written is the byte read. -/
@[simp] theorem Memory.read_write_same (m : Memory) (a : Nat) (b : Byte) : Memory.read (Memory.write m a b) a = b := by
  unfold Memory.write
  split
  · next h => rw [Memory.read_forget_same, h]
  · exact Memory.read_place_same _ _ _ (Memory.forget_keys m a)

/-- A write leaves every other byte alone. -/
theorem Memory.read_write_other (m : Memory) {a x : Nat} (b : Byte) (hx : x ≠ a) :
    Memory.read (Memory.write m a b) x = Memory.read m x := by
  unfold Memory.write
  split
  · exact Memory.read_forget_other m hx
  · rw [Memory.read_place_other _ _ hx, Memory.read_forget_other m hx]

/-! ### Ranges -/

@[simp] theorem Memory.readRange_length (m : Memory) (i n : Nat) : (Memory.readRange m i n).length = n := by
  induction n generalizing i with
  | zero => rfl
  | succ n ih => simp [Memory.readRange, ih]

theorem Memory.readRange_getElem? (m : Memory) (i n k : Nat) (h : k < n) :
    (Memory.readRange m i n)[k]? = some (Memory.read m (i + k)) := by
  induction n generalizing i k with
  | zero => omega
  | succ n ih =>
    cases k with
    | zero => simp [Memory.readRange]
    | succ k =>
      simp only [Memory.readRange, List.getElem?_cons_succ]
      rw [ih (i + 1) k (by omega), Nat.add_assoc, Nat.add_comm 1 k]

/-- Bytes below the range written are unchanged. -/
theorem Memory.read_writeRange_below (m : Memory) (i : Nat) (v : List Byte) {x : Nat} (hx : x < i) :
    Memory.read (Memory.writeRange m i v) x = Memory.read m x := by
  induction v generalizing m i with
  | nil => rfl
  | cons b t ih =>
    rw [Memory.writeRange, ih _ _ (by omega), Memory.read_write_other _ _ (by omega)]

/-- Bytes at and above the end of the range written are unchanged. -/
theorem Memory.read_writeRange_above (m : Memory) (i : Nat) (v : List Byte) {x : Nat} (hx : i + v.length ≤ x) :
    Memory.read (Memory.writeRange m i v) x = Memory.read m x := by
  induction v generalizing m i with
  | nil => rfl
  | cons b t ih =>
    simp only [List.length_cons] at hx
    rw [Memory.writeRange, ih _ _ (by omega), Memory.read_write_other _ _ (by omega)]

/-- The bytes of the range are the bytes written. -/
@[simp] theorem Memory.readRange_writeRange (m : Memory) (i : Nat) (v : List Byte) :
    Memory.readRange (Memory.writeRange m i v) i v.length = v := by
  induction v generalizing m i with
  | nil => rfl
  | cons b t ih =>
    simp only [Memory.writeRange, List.length_cons, Memory.readRange, List.cons.injEq]
    exact ⟨by rw [Memory.read_writeRange_below _ _ _ (by omega), Memory.read_write_same], ih _ _⟩

/-- Two runs one after the other are one run. -/
theorem Memory.writeRange_append (m : Memory) (i : Nat) (v w : List Byte) :
    Memory.writeRange (Memory.writeRange m i v) (i + v.length) w = Memory.writeRange m i (v ++ w) := by
  induction v generalizing m i with
  | nil => rfl
  | cons b t ih =>
    simp only [List.length_cons, Memory.writeRange, List.cons_append]
    rw [← ih, Nat.add_assoc, Nat.add_comm 1 t.length]

/-! ### The canonical form -/

theorem Memory.wf_forget {m : Memory} (h : Memory.wf m) (a : Nat) : Memory.wf (Memory.forget m a) :=
  ⟨h.1.filter _, fun c hc => h.2 c (List.mem_filter.mp hc).1⟩

theorem Memory.mem_place {m : Memory} {a : Nat} {b : Byte} {c : Host.Cell} (h : c ∈ Memory.place m a b) :
    c = (a, b) ∨ c ∈ m := by
  induction m with
  | nil => simpa [Memory.place] using h
  | cons d t ih =>
    simp only [Memory.place] at h
    split at h
    · simpa using h
    · rcases List.mem_cons.mp h with rfl | h
      · simp
      · rcases ih h with h | h <;> simp [h]

theorem Memory.wf_place {m : Memory} (h : Memory.wf m) {a : Nat} {b : Byte} (hb : b ≠ Memory.unlisted)
    (ha : ∀ c ∈ m, c.1 ≠ a) : Memory.wf (Memory.place m a b) := by
  induction m with
  | nil => simp [Memory.place, Memory.wf, hb]
  | cons d t ih =>
    obtain ⟨hp, hn⟩ := h
    rw [List.pairwise_cons] at hp
    simp only [Memory.place]
    split
    · next hlt =>
      refine ⟨List.pairwise_cons.mpr ⟨fun c hc => ?_, List.pairwise_cons.mpr hp⟩, fun c hc => ?_⟩
      · rcases List.mem_cons.mp hc with rfl | hc
        · exact hlt
        · exact Nat.lt_trans hlt (hp.1 c hc)
      · rcases List.mem_cons.mp hc with rfl | hc
        · exact hb
        · exact hn c hc
    · next hlt =>
      have iht := ih ⟨hp.2, fun c hc => hn c (by simp [hc])⟩ fun c hc => ha c (by simp [hc])
      refine ⟨List.pairwise_cons.mpr ⟨fun c hc => ?_, iht.1⟩, fun c hc => ?_⟩
      · rcases Memory.mem_place hc with rfl | hc
        · have := ha d (by simp)
          show d.1 < a
          omega
        · exact hp.1 c hc
      · rcases List.mem_cons.mp hc with rfl | hc
        · exact hn _ (by simp)
        · exact iht.2 c hc

/-- A write keeps the canonical form. -/
theorem Memory.wf_write {m : Memory} (h : Memory.wf m) (a : Nat) (b : Byte) : Memory.wf (Memory.write m a b) := by
  unfold Memory.write
  split
  · exact Memory.wf_forget h a
  · next hb => exact Memory.wf_place (Memory.wf_forget h a) hb (Memory.forget_keys m a)

/-- A run of writes keeps the canonical form. -/
theorem Memory.wf_writeRange {m : Memory} (h : Memory.wf m) (i : Nat) (v : List Byte) :
    Memory.wf (Memory.writeRange m i v) := by
  induction v generalizing m i with
  | nil => exact h
  | cons b t ih => exact ih (Memory.wf_write h i b) _

/-- An entry after a run of writes was there before, or lies in the run. -/
theorem Memory.key_writeRange {m : Memory} {i : Nat} {v : List Byte} {c : Host.Cell}
    (h : c ∈ Memory.writeRange m i v) : c ∈ m ∨ (i ≤ c.1 ∧ c.1 < i + v.length) := by
  induction v generalizing m i with
  | nil => exact .inl h
  | cons b t ih =>
    rcases ih h with h | h
    · have : c = (i, b) ∨ c ∈ m := by
        unfold Memory.write at h
        split at h
        · exact .inr (List.mem_filter.mp h).1
        · rcases Memory.mem_place h with h | h
          · exact .inl h
          · exact .inr (List.mem_filter.mp h).1
      rcases this with rfl | h
      · right
        simp
      · exact .inl h
    · right
      simp only [List.length_cons]
      omega

/-- A byte below every entry is not listed. -/
theorem Memory.read_of_below {m : Memory} {a : Nat} (h : ∀ c ∈ m, a < c.1) : Memory.read m a = Memory.unlisted := by
  induction m with
  | nil => rfl
  | cons c t ih =>
    have : ¬ c.1 = a := by
      have := h c (by simp)
      omega
    simpa [Memory.read, this] using ih fun d hd => h d (by simp [hd])

/-- Canonical memories that read alike are the same list. -/
theorem Memory.ext_of_wf {m m' : Memory} (h : Memory.wf m) (h' : Memory.wf m')
    (hr : ∀ a, Memory.read m a = Memory.read m' a) : m = m' := by
  induction m generalizing m' with
  | nil =>
    cases m' with
    | nil => rfl
    | cons c t => exact absurd (by simpa [Memory.read] using (hr c.1).symm) (h'.2 c (by simp))
  | cons c t ih =>
    cases m' with
    | nil => exact absurd (by simpa [Memory.read] using hr c.1) (h.2 c (by simp))
    | cons d u =>
      have hc := List.pairwise_cons.mp h.1
      have hd := List.pairwise_cons.mp h'.1
      have hkey : c.1 = d.1 := by
        rcases Nat.lt_trichotomy c.1 d.1 with hlt | heq | hgt
        · have := hr c.1
          rw [Memory.read, if_pos rfl, Memory.read_of_below (m := d :: u)] at this
          · exact absurd this (h.2 c (by simp))
          · intro e he
            rcases List.mem_cons.mp he with rfl | he
            · exact hlt
            · exact Nat.lt_trans hlt (hd.1 e he)
        · exact heq
        · have := (hr d.1).symm
          rw [Memory.read, if_pos rfl, Memory.read_of_below (m := c :: t)] at this
          · exact absurd this (h'.2 d (by simp))
          · intro e he
            rcases List.mem_cons.mp he with rfl | he
            · exact hgt
            · exact Nat.lt_trans hgt (hc.1 e he)
      have hval : c.2 = d.2 := by simpa [Memory.read, hkey] using hr c.1
      have hcd : c = d := Prod.ext hkey hval
      subst hcd
      congr 1
      refine ih ⟨hc.2, fun e he => h.2 e (by simp [he])⟩ ⟨hd.2, fun e he => h'.2 e (by simp [he])⟩ fun a => ?_
      by_cases ha : c.1 = a
      · subst ha
        rw [Memory.read_of_below hc.1, Memory.read_of_below hd.1]
      · simpa [Memory.read, ha] using hr a

end Sys2Proof.Machine
end

