-- ==== Sys2Proof/Laws/State.lean ====
section
/-! SUPPORT. One lemma per field per named update of the state, true by rfl, so that no proof unfolds a record update.
The answers a port transaction takes and what it leaves of the lists are in Laws/Port.lean. -/

namespace Sys2Proof.Machine

/-! ### startCode -/

@[simp] theorem startCode_chk (s : State) : (startCode s).chk = s.chk := rfl
@[simp] theorem startCode_att (s : State) : (startCode s).att = 0 := rfl
@[simp] theorem startCode_rxlen (s : State) : (startCode s).rxlen = s.rxlen := rfl
@[simp] theorem startCode_txlen (s : State) : (startCode s).txlen = s.txlen := rfl
@[simp] theorem startCode_code (s : State) : (startCode s).code = s.code := rfl
@[simp] theorem startCode_clen (s : State) : (startCode s).clen = 0 := rfl
@[simp] theorem startCode_cmd (s : State) : (startCode s).cmd = s.cmd := rfl
@[simp] theorem startCode_paylen (s : State) : (startCode s).paylen = s.paylen := rfl
@[simp] theorem startCode_phase (s : State) : (startCode s).phase = s.phase := rfl
@[simp] theorem startCode_err (s : State) : (startCode s).err = s.err := rfl
@[simp] theorem startCode_connOpen (s : State) : (startCode s).connOpen = s.connOpen := rfl
@[simp] theorem startCode_ackWrErr (s : State) : (startCode s).ackWrErr = s.ackWrErr := rfl
@[simp] theorem startCode_busy (s : State) : (startCode s).busy = s.busy := rfl
@[simp] theorem startCode_path (s : State) : (startCode s).path = s.path := rfl
@[simp] theorem startCode_baud (s : State) : (startCode s).baud = s.baud := rfl
@[simp] theorem startCode_logEn (s : State) : (startCode s).logEn = s.logEn := rfl
@[simp] theorem startCode_rxbuf (s : State) : (startCode s).rxbuf = s.rxbuf := rfl
@[simp] theorem startCode_txbuf (s : State) : (startCode s).txbuf = s.txbuf := rfl
@[simp] theorem startCode_tap (s : State) : (startCode s).tap = s.tap := rfl
@[simp] theorem startCode_result (s : State) : (startCode s).result = s.result := rfl
@[simp] theorem startCode_inbox (s : State) : (startCode s).inbox = s.inbox := rfl
@[simp] theorem startCode_reads (s : State) : (startCode s).reads = s.reads := rfl
@[simp] theorem startCode_writes (s : State) : (startCode s).writes = s.writes := rfl
@[simp] theorem startCode_opens (s : State) : (startCode s).opens = s.opens := rfl
@[simp] theorem startCode_closes (s : State) : (startCode s).closes = s.closes := rfl
@[simp] theorem startCode_draws (s : State) : (startCode s).draws = s.draws := rfl
@[simp] theorem startCode_trace (s : State) : (startCode s).trace = s.trace := rfl
@[simp] theorem startCode_params (s : State) : (startCode s).params = s.params := rfl

/-! ### startData -/

@[simp] theorem startData_chk (s : State) : (startData s).chk = s.chk := rfl
@[simp] theorem startData_att (s : State) : (startData s).att = 0 := rfl
@[simp] theorem startData_rxlen (s : State) : (startData s).rxlen = 0 := rfl
@[simp] theorem startData_txlen (s : State) : (startData s).txlen = s.txlen := rfl
@[simp] theorem startData_code (s : State) : (startData s).code = s.code := rfl
@[simp] theorem startData_clen (s : State) : (startData s).clen = s.clen := rfl
@[simp] theorem startData_cmd (s : State) : (startData s).cmd = s.cmd := rfl
@[simp] theorem startData_paylen (s : State) : (startData s).paylen = s.paylen := rfl
@[simp] theorem startData_phase (s : State) : (startData s).phase = s.phase := rfl
@[simp] theorem startData_err (s : State) : (startData s).err = s.err := rfl
@[simp] theorem startData_connOpen (s : State) : (startData s).connOpen = s.connOpen := rfl
@[simp] theorem startData_ackWrErr (s : State) : (startData s).ackWrErr = s.ackWrErr := rfl
@[simp] theorem startData_busy (s : State) : (startData s).busy = s.busy := rfl
@[simp] theorem startData_path (s : State) : (startData s).path = s.path := rfl
@[simp] theorem startData_baud (s : State) : (startData s).baud = s.baud := rfl
@[simp] theorem startData_logEn (s : State) : (startData s).logEn = s.logEn := rfl
@[simp] theorem startData_rxbuf (s : State) : (startData s).rxbuf = s.rxbuf := rfl
@[simp] theorem startData_txbuf (s : State) : (startData s).txbuf = s.txbuf := rfl
@[simp] theorem startData_tap (s : State) : (startData s).tap = s.tap := rfl
@[simp] theorem startData_result (s : State) : (startData s).result = s.result := rfl
@[simp] theorem startData_inbox (s : State) : (startData s).inbox = s.inbox := rfl
@[simp] theorem startData_reads (s : State) : (startData s).reads = s.reads := rfl
@[simp] theorem startData_writes (s : State) : (startData s).writes = s.writes := rfl
@[simp] theorem startData_opens (s : State) : (startData s).opens = s.opens := rfl
@[simp] theorem startData_closes (s : State) : (startData s).closes = s.closes := rfl
@[simp] theorem startData_draws (s : State) : (startData s).draws = s.draws := rfl
@[simp] theorem startData_trace (s : State) : (startData s).trace = s.trace := rfl
@[simp] theorem startData_params (s : State) : (startData s).params = s.params := rfl

/-! ### countAttempt -/

@[simp] theorem countAttempt_chk (s : State) : (countAttempt s).chk = s.chk := rfl
@[simp] theorem countAttempt_att (s : State) : (countAttempt s).att = s.att + 1 := rfl
@[simp] theorem countAttempt_rxlen (s : State) : (countAttempt s).rxlen = s.rxlen := rfl
@[simp] theorem countAttempt_txlen (s : State) : (countAttempt s).txlen = s.txlen := rfl
@[simp] theorem countAttempt_code (s : State) : (countAttempt s).code = s.code := rfl
@[simp] theorem countAttempt_clen (s : State) : (countAttempt s).clen = s.clen := rfl
@[simp] theorem countAttempt_cmd (s : State) : (countAttempt s).cmd = s.cmd := rfl
@[simp] theorem countAttempt_paylen (s : State) : (countAttempt s).paylen = s.paylen := rfl
@[simp] theorem countAttempt_phase (s : State) : (countAttempt s).phase = s.phase := rfl
@[simp] theorem countAttempt_err (s : State) : (countAttempt s).err = s.err := rfl
@[simp] theorem countAttempt_connOpen (s : State) : (countAttempt s).connOpen = s.connOpen := rfl
@[simp] theorem countAttempt_ackWrErr (s : State) : (countAttempt s).ackWrErr = s.ackWrErr := rfl
@[simp] theorem countAttempt_busy (s : State) : (countAttempt s).busy = s.busy := rfl
@[simp] theorem countAttempt_path (s : State) : (countAttempt s).path = s.path := rfl
@[simp] theorem countAttempt_baud (s : State) : (countAttempt s).baud = s.baud := rfl
@[simp] theorem countAttempt_logEn (s : State) : (countAttempt s).logEn = s.logEn := rfl
@[simp] theorem countAttempt_rxbuf (s : State) : (countAttempt s).rxbuf = s.rxbuf := rfl
@[simp] theorem countAttempt_txbuf (s : State) : (countAttempt s).txbuf = s.txbuf := rfl
@[simp] theorem countAttempt_tap (s : State) : (countAttempt s).tap = s.tap := rfl
@[simp] theorem countAttempt_result (s : State) : (countAttempt s).result = s.result := rfl
@[simp] theorem countAttempt_inbox (s : State) : (countAttempt s).inbox = s.inbox := rfl
@[simp] theorem countAttempt_reads (s : State) : (countAttempt s).reads = s.reads := rfl
@[simp] theorem countAttempt_writes (s : State) : (countAttempt s).writes = s.writes := rfl
@[simp] theorem countAttempt_opens (s : State) : (countAttempt s).opens = s.opens := rfl
@[simp] theorem countAttempt_closes (s : State) : (countAttempt s).closes = s.closes := rfl
@[simp] theorem countAttempt_draws (s : State) : (countAttempt s).draws = s.draws := rfl
@[simp] theorem countAttempt_trace (s : State) : (countAttempt s).trace = s.trace := rfl
@[simp] theorem countAttempt_params (s : State) : (countAttempt s).params = s.params := rfl

/-! ### setPaylen -/

@[simp] theorem setPaylen_chk (n : Nat) (s : State) : (setPaylen n s).chk = s.chk := rfl
@[simp] theorem setPaylen_att (n : Nat) (s : State) : (setPaylen n s).att = s.att := rfl
@[simp] theorem setPaylen_rxlen (n : Nat) (s : State) : (setPaylen n s).rxlen = s.rxlen := rfl
@[simp] theorem setPaylen_txlen (n : Nat) (s : State) : (setPaylen n s).txlen = s.txlen := rfl
@[simp] theorem setPaylen_code (n : Nat) (s : State) : (setPaylen n s).code = s.code := rfl
@[simp] theorem setPaylen_clen (n : Nat) (s : State) : (setPaylen n s).clen = s.clen := rfl
@[simp] theorem setPaylen_cmd (n : Nat) (s : State) : (setPaylen n s).cmd = s.cmd := rfl
@[simp] theorem setPaylen_paylen (n : Nat) (s : State) : (setPaylen n s).paylen = n := rfl
@[simp] theorem setPaylen_phase (n : Nat) (s : State) : (setPaylen n s).phase = s.phase := rfl
@[simp] theorem setPaylen_err (n : Nat) (s : State) : (setPaylen n s).err = s.err := rfl
@[simp] theorem setPaylen_connOpen (n : Nat) (s : State) : (setPaylen n s).connOpen = s.connOpen := rfl
@[simp] theorem setPaylen_ackWrErr (n : Nat) (s : State) : (setPaylen n s).ackWrErr = s.ackWrErr := rfl
@[simp] theorem setPaylen_busy (n : Nat) (s : State) : (setPaylen n s).busy = s.busy := rfl
@[simp] theorem setPaylen_path (n : Nat) (s : State) : (setPaylen n s).path = s.path := rfl
@[simp] theorem setPaylen_baud (n : Nat) (s : State) : (setPaylen n s).baud = s.baud := rfl
@[simp] theorem setPaylen_logEn (n : Nat) (s : State) : (setPaylen n s).logEn = s.logEn := rfl
@[simp] theorem setPaylen_rxbuf (n : Nat) (s : State) : (setPaylen n s).rxbuf = s.rxbuf := rfl
@[simp] theorem setPaylen_txbuf (n : Nat) (s : State) : (setPaylen n s).txbuf = s.txbuf := rfl
@[simp] theorem setPaylen_tap (n : Nat) (s : State) : (setPaylen n s).tap = s.tap := rfl
@[simp] theorem setPaylen_result (n : Nat) (s : State) : (setPaylen n s).result = s.result := rfl
@[simp] theorem setPaylen_inbox (n : Nat) (s : State) : (setPaylen n s).inbox = s.inbox := rfl
@[simp] theorem setPaylen_reads (n : Nat) (s : State) : (setPaylen n s).reads = s.reads := rfl
@[simp] theorem setPaylen_writes (n : Nat) (s : State) : (setPaylen n s).writes = s.writes := rfl
@[simp] theorem setPaylen_opens (n : Nat) (s : State) : (setPaylen n s).opens = s.opens := rfl
@[simp] theorem setPaylen_closes (n : Nat) (s : State) : (setPaylen n s).closes = s.closes := rfl
@[simp] theorem setPaylen_draws (n : Nat) (s : State) : (setPaylen n s).draws = s.draws := rfl
@[simp] theorem setPaylen_trace (n : Nat) (s : State) : (setPaylen n s).trace = s.trace := rfl
@[simp] theorem setPaylen_params (n : Nat) (s : State) : (setPaylen n s).params = s.params := rfl

/-! ### startRequest -/

@[simp] theorem startRequest_chk (c : Byte) (s : State) : (startRequest c s).chk = s.chk := rfl
@[simp] theorem startRequest_att (c : Byte) (s : State) : (startRequest c s).att = s.att := rfl
@[simp] theorem startRequest_rxlen (c : Byte) (s : State) : (startRequest c s).rxlen = s.rxlen := rfl
@[simp] theorem startRequest_txlen (c : Byte) (s : State) : (startRequest c s).txlen = 0 := rfl
@[simp] theorem startRequest_code (c : Byte) (s : State) : (startRequest c s).code = s.code := rfl
@[simp] theorem startRequest_clen (c : Byte) (s : State) : (startRequest c s).clen = s.clen := rfl
@[simp] theorem startRequest_cmd (c : Byte) (s : State) : (startRequest c s).cmd = c := rfl
@[simp] theorem startRequest_paylen (c : Byte) (s : State) : (startRequest c s).paylen = s.paylen := rfl
@[simp] theorem startRequest_phase (c : Byte) (s : State) : (startRequest c s).phase = s.phase := rfl
@[simp] theorem startRequest_err (c : Byte) (s : State) : (startRequest c s).err = s.err := rfl
@[simp] theorem startRequest_connOpen (c : Byte) (s : State) : (startRequest c s).connOpen = s.connOpen := rfl
@[simp] theorem startRequest_ackWrErr (c : Byte) (s : State) : (startRequest c s).ackWrErr = s.ackWrErr := rfl
@[simp] theorem startRequest_busy (c : Byte) (s : State) : (startRequest c s).busy = s.busy := rfl
@[simp] theorem startRequest_path (c : Byte) (s : State) : (startRequest c s).path = s.path := rfl
@[simp] theorem startRequest_baud (c : Byte) (s : State) : (startRequest c s).baud = s.baud := rfl
@[simp] theorem startRequest_logEn (c : Byte) (s : State) : (startRequest c s).logEn = s.logEn := rfl
@[simp] theorem startRequest_rxbuf (c : Byte) (s : State) : (startRequest c s).rxbuf = s.rxbuf := rfl
@[simp] theorem startRequest_txbuf (c : Byte) (s : State) : (startRequest c s).txbuf = s.txbuf := rfl
@[simp] theorem startRequest_tap (c : Byte) (s : State) : (startRequest c s).tap = s.tap := rfl
@[simp] theorem startRequest_result (c : Byte) (s : State) : (startRequest c s).result = s.result := rfl
@[simp] theorem startRequest_inbox (c : Byte) (s : State) : (startRequest c s).inbox = s.inbox := rfl
@[simp] theorem startRequest_reads (c : Byte) (s : State) : (startRequest c s).reads = s.reads := rfl
@[simp] theorem startRequest_writes (c : Byte) (s : State) : (startRequest c s).writes = s.writes := rfl
@[simp] theorem startRequest_opens (c : Byte) (s : State) : (startRequest c s).opens = s.opens := rfl
@[simp] theorem startRequest_closes (c : Byte) (s : State) : (startRequest c s).closes = s.closes := rfl
@[simp] theorem startRequest_draws (c : Byte) (s : State) : (startRequest c s).draws = s.draws := rfl
@[simp] theorem startRequest_trace (c : Byte) (s : State) : (startRequest c s).trace = s.trace := rfl
@[simp] theorem startRequest_params (c : Byte) (s : State) : (startRequest c s).params = s.params := rfl

/-! ### configure -/

@[simp] theorem configure_chk (path : List Byte) (baud : Nat) (log : Bool) (s : State) : (configure path baud log s).chk = s.chk := rfl
@[simp] theorem configure_att (path : List Byte) (baud : Nat) (log : Bool) (s : State) : (configure path baud log s).att = s.att := rfl
@[simp] theorem configure_rxlen (path : List Byte) (baud : Nat) (log : Bool) (s : State) : (configure path baud log s).rxlen = s.rxlen := rfl
@[simp] theorem configure_txlen (path : List Byte) (baud : Nat) (log : Bool) (s : State) : (configure path baud log s).txlen = s.txlen := rfl
@[simp] theorem configure_code (path : List Byte) (baud : Nat) (log : Bool) (s : State) : (configure path baud log s).code = s.code := rfl
@[simp] theorem configure_clen (path : List Byte) (baud : Nat) (log : Bool) (s : State) : (configure path baud log s).clen = s.clen := rfl
@[simp] theorem configure_cmd (path : List Byte) (baud : Nat) (log : Bool) (s : State) : (configure path baud log s).cmd = s.cmd := rfl
@[simp] theorem configure_paylen (path : List Byte) (baud : Nat) (log : Bool) (s : State) : (configure path baud log s).paylen = s.paylen := rfl
@[simp] theorem configure_phase (path : List Byte) (baud : Nat) (log : Bool) (s : State) : (configure path baud log s).phase = s.phase := rfl
@[simp] theorem configure_err (path : List Byte) (baud : Nat) (log : Bool) (s : State) : (configure path baud log s).err = s.err := rfl
@[simp] theorem configure_connOpen (path : List Byte) (baud : Nat) (log : Bool) (s : State) : (configure path baud log s).connOpen = s.connOpen := rfl
@[simp] theorem configure_ackWrErr (path : List Byte) (baud : Nat) (log : Bool) (s : State) : (configure path baud log s).ackWrErr = s.ackWrErr := rfl
@[simp] theorem configure_busy (path : List Byte) (baud : Nat) (log : Bool) (s : State) : (configure path baud log s).busy = s.busy := rfl
@[simp] theorem configure_path (path : List Byte) (baud : Nat) (log : Bool) (s : State) : (configure path baud log s).path = path := rfl
@[simp] theorem configure_baud (path : List Byte) (baud : Nat) (log : Bool) (s : State) : (configure path baud log s).baud = baud := rfl
@[simp] theorem configure_logEn (path : List Byte) (baud : Nat) (log : Bool) (s : State) : (configure path baud log s).logEn = log := rfl
@[simp] theorem configure_rxbuf (path : List Byte) (baud : Nat) (log : Bool) (s : State) : (configure path baud log s).rxbuf = s.rxbuf := rfl
@[simp] theorem configure_txbuf (path : List Byte) (baud : Nat) (log : Bool) (s : State) : (configure path baud log s).txbuf = s.txbuf := rfl
@[simp] theorem configure_tap (path : List Byte) (baud : Nat) (log : Bool) (s : State) : (configure path baud log s).tap = s.tap := rfl
@[simp] theorem configure_result (path : List Byte) (baud : Nat) (log : Bool) (s : State) : (configure path baud log s).result = s.result := rfl
@[simp] theorem configure_inbox (path : List Byte) (baud : Nat) (log : Bool) (s : State) : (configure path baud log s).inbox = s.inbox := rfl
@[simp] theorem configure_reads (path : List Byte) (baud : Nat) (log : Bool) (s : State) : (configure path baud log s).reads = s.reads := rfl
@[simp] theorem configure_writes (path : List Byte) (baud : Nat) (log : Bool) (s : State) : (configure path baud log s).writes = s.writes := rfl
@[simp] theorem configure_opens (path : List Byte) (baud : Nat) (log : Bool) (s : State) : (configure path baud log s).opens = s.opens := rfl
@[simp] theorem configure_closes (path : List Byte) (baud : Nat) (log : Bool) (s : State) : (configure path baud log s).closes = s.closes := rfl
@[simp] theorem configure_draws (path : List Byte) (baud : Nat) (log : Bool) (s : State) : (configure path baud log s).draws = s.draws := rfl
@[simp] theorem configure_trace (path : List Byte) (baud : Nat) (log : Bool) (s : State) : (configure path baud log s).trace = s.trace := rfl
@[simp] theorem configure_params (path : List Byte) (baud : Nat) (log : Bool) (s : State) : (configure path baud log s).params = s.params := rfl

/-! ### connect -/

@[simp] theorem connect_chk (s : State) : (connect s).chk = s.chk := rfl
@[simp] theorem connect_att (s : State) : (connect s).att = s.att := rfl
@[simp] theorem connect_rxlen (s : State) : (connect s).rxlen = s.rxlen := rfl
@[simp] theorem connect_txlen (s : State) : (connect s).txlen = s.txlen := rfl
@[simp] theorem connect_code (s : State) : (connect s).code = s.code := rfl
@[simp] theorem connect_clen (s : State) : (connect s).clen = s.clen := rfl
@[simp] theorem connect_cmd (s : State) : (connect s).cmd = s.cmd := rfl
@[simp] theorem connect_paylen (s : State) : (connect s).paylen = s.paylen := rfl
@[simp] theorem connect_phase (s : State) : (connect s).phase = .idle := rfl
@[simp] theorem connect_err (s : State) : (connect s).err = s.err := rfl
@[simp] theorem connect_connOpen (s : State) : (connect s).connOpen = true := rfl
@[simp] theorem connect_ackWrErr (s : State) : (connect s).ackWrErr = false := rfl
@[simp] theorem connect_busy (s : State) : (connect s).busy = s.busy := rfl
@[simp] theorem connect_path (s : State) : (connect s).path = s.path := rfl
@[simp] theorem connect_baud (s : State) : (connect s).baud = s.baud := rfl
@[simp] theorem connect_logEn (s : State) : (connect s).logEn = s.logEn := rfl
@[simp] theorem connect_rxbuf (s : State) : (connect s).rxbuf = s.rxbuf := rfl
@[simp] theorem connect_txbuf (s : State) : (connect s).txbuf = s.txbuf := rfl
@[simp] theorem connect_tap (s : State) : (connect s).tap = s.tap := rfl
@[simp] theorem connect_result (s : State) : (connect s).result = s.result := rfl
@[simp] theorem connect_inbox (s : State) : (connect s).inbox = s.inbox := rfl
@[simp] theorem connect_reads (s : State) : (connect s).reads = s.reads := rfl
@[simp] theorem connect_writes (s : State) : (connect s).writes = s.writes := rfl
@[simp] theorem connect_opens (s : State) : (connect s).opens = s.opens := rfl
@[simp] theorem connect_closes (s : State) : (connect s).closes = s.closes := rfl
@[simp] theorem connect_draws (s : State) : (connect s).draws = s.draws := rfl
@[simp] theorem connect_trace (s : State) : (connect s).trace = s.trace := rfl
@[simp] theorem connect_params (s : State) : (connect s).params = s.params := rfl

/-! ### disconnect -/

@[simp] theorem disconnect_chk (s : State) : (disconnect s).chk = s.chk := rfl
@[simp] theorem disconnect_att (s : State) : (disconnect s).att = s.att := rfl
@[simp] theorem disconnect_rxlen (s : State) : (disconnect s).rxlen = s.rxlen := rfl
@[simp] theorem disconnect_txlen (s : State) : (disconnect s).txlen = s.txlen := rfl
@[simp] theorem disconnect_code (s : State) : (disconnect s).code = s.code := rfl
@[simp] theorem disconnect_clen (s : State) : (disconnect s).clen = s.clen := rfl
@[simp] theorem disconnect_cmd (s : State) : (disconnect s).cmd = s.cmd := rfl
@[simp] theorem disconnect_paylen (s : State) : (disconnect s).paylen = s.paylen := rfl
@[simp] theorem disconnect_phase (s : State) : (disconnect s).phase = s.phase := rfl
@[simp] theorem disconnect_err (s : State) : (disconnect s).err = s.err := rfl
@[simp] theorem disconnect_connOpen (s : State) : (disconnect s).connOpen = false := rfl
@[simp] theorem disconnect_ackWrErr (s : State) : (disconnect s).ackWrErr = s.ackWrErr := rfl
@[simp] theorem disconnect_busy (s : State) : (disconnect s).busy = s.busy := rfl
@[simp] theorem disconnect_path (s : State) : (disconnect s).path = s.path := rfl
@[simp] theorem disconnect_baud (s : State) : (disconnect s).baud = s.baud := rfl
@[simp] theorem disconnect_logEn (s : State) : (disconnect s).logEn = s.logEn := rfl
@[simp] theorem disconnect_rxbuf (s : State) : (disconnect s).rxbuf = s.rxbuf := rfl
@[simp] theorem disconnect_txbuf (s : State) : (disconnect s).txbuf = s.txbuf := rfl
@[simp] theorem disconnect_tap (s : State) : (disconnect s).tap = s.tap := rfl
@[simp] theorem disconnect_result (s : State) : (disconnect s).result = s.result := rfl
@[simp] theorem disconnect_inbox (s : State) : (disconnect s).inbox = s.inbox := rfl
@[simp] theorem disconnect_reads (s : State) : (disconnect s).reads = s.reads := rfl
@[simp] theorem disconnect_writes (s : State) : (disconnect s).writes = s.writes := rfl
@[simp] theorem disconnect_opens (s : State) : (disconnect s).opens = s.opens := rfl
@[simp] theorem disconnect_closes (s : State) : (disconnect s).closes = s.closes := rfl
@[simp] theorem disconnect_draws (s : State) : (disconnect s).draws = s.draws := rfl
@[simp] theorem disconnect_trace (s : State) : (disconnect s).trace = s.trace := rfl
@[simp] theorem disconnect_params (s : State) : (disconnect s).params = s.params := rfl

/-! ### enterFailed -/

@[simp] theorem enterFailed_chk (k : ErrKind) (s : State) : (enterFailed k s).chk = s.chk := rfl
@[simp] theorem enterFailed_att (k : ErrKind) (s : State) : (enterFailed k s).att = s.att := rfl
@[simp] theorem enterFailed_rxlen (k : ErrKind) (s : State) : (enterFailed k s).rxlen = s.rxlen := rfl
@[simp] theorem enterFailed_txlen (k : ErrKind) (s : State) : (enterFailed k s).txlen = s.txlen := rfl
@[simp] theorem enterFailed_code (k : ErrKind) (s : State) : (enterFailed k s).code = s.code := rfl
@[simp] theorem enterFailed_clen (k : ErrKind) (s : State) : (enterFailed k s).clen = s.clen := rfl
@[simp] theorem enterFailed_cmd (k : ErrKind) (s : State) : (enterFailed k s).cmd = s.cmd := rfl
@[simp] theorem enterFailed_paylen (k : ErrKind) (s : State) : (enterFailed k s).paylen = s.paylen := rfl
@[simp] theorem enterFailed_phase (k : ErrKind) (s : State) : (enterFailed k s).phase = .failed := rfl
@[simp] theorem enterFailed_err (k : ErrKind) (s : State) : (enterFailed k s).err = some k := rfl
@[simp] theorem enterFailed_connOpen (k : ErrKind) (s : State) : (enterFailed k s).connOpen = s.connOpen := rfl
@[simp] theorem enterFailed_ackWrErr (k : ErrKind) (s : State) : (enterFailed k s).ackWrErr = s.ackWrErr := rfl
@[simp] theorem enterFailed_busy (k : ErrKind) (s : State) : (enterFailed k s).busy = s.busy := rfl
@[simp] theorem enterFailed_path (k : ErrKind) (s : State) : (enterFailed k s).path = s.path := rfl
@[simp] theorem enterFailed_baud (k : ErrKind) (s : State) : (enterFailed k s).baud = s.baud := rfl
@[simp] theorem enterFailed_logEn (k : ErrKind) (s : State) : (enterFailed k s).logEn = s.logEn := rfl
@[simp] theorem enterFailed_rxbuf (k : ErrKind) (s : State) : (enterFailed k s).rxbuf = s.rxbuf := rfl
@[simp] theorem enterFailed_txbuf (k : ErrKind) (s : State) : (enterFailed k s).txbuf = s.txbuf := rfl
@[simp] theorem enterFailed_tap (k : ErrKind) (s : State) : (enterFailed k s).tap = s.tap := rfl
@[simp] theorem enterFailed_result (k : ErrKind) (s : State) : (enterFailed k s).result = s.result := rfl
@[simp] theorem enterFailed_inbox (k : ErrKind) (s : State) : (enterFailed k s).inbox = s.inbox := rfl
@[simp] theorem enterFailed_reads (k : ErrKind) (s : State) : (enterFailed k s).reads = s.reads := rfl
@[simp] theorem enterFailed_writes (k : ErrKind) (s : State) : (enterFailed k s).writes = s.writes := rfl
@[simp] theorem enterFailed_opens (k : ErrKind) (s : State) : (enterFailed k s).opens = s.opens := rfl
@[simp] theorem enterFailed_closes (k : ErrKind) (s : State) : (enterFailed k s).closes = s.closes := rfl
@[simp] theorem enterFailed_draws (k : ErrKind) (s : State) : (enterFailed k s).draws = s.draws := rfl
@[simp] theorem enterFailed_trace (k : ErrKind) (s : State) : (enterFailed k s).trace = s.trace := rfl
@[simp] theorem enterFailed_params (k : ErrKind) (s : State) : (enterFailed k s).params = s.params := rfl

/-! ### beginOp -/

@[simp] theorem beginOp_chk (s : State) : (beginOp s).chk = s.chk := rfl
@[simp] theorem beginOp_att (s : State) : (beginOp s).att = s.att := rfl
@[simp] theorem beginOp_rxlen (s : State) : (beginOp s).rxlen = s.rxlen := rfl
@[simp] theorem beginOp_txlen (s : State) : (beginOp s).txlen = s.txlen := rfl
@[simp] theorem beginOp_code (s : State) : (beginOp s).code = s.code := rfl
@[simp] theorem beginOp_clen (s : State) : (beginOp s).clen = s.clen := rfl
@[simp] theorem beginOp_cmd (s : State) : (beginOp s).cmd = s.cmd := rfl
@[simp] theorem beginOp_paylen (s : State) : (beginOp s).paylen = s.paylen := rfl
@[simp] theorem beginOp_phase (s : State) : (beginOp s).phase = s.phase := rfl
@[simp] theorem beginOp_err (s : State) : (beginOp s).err = none := rfl
@[simp] theorem beginOp_connOpen (s : State) : (beginOp s).connOpen = s.connOpen := rfl
@[simp] theorem beginOp_ackWrErr (s : State) : (beginOp s).ackWrErr = s.ackWrErr := rfl
@[simp] theorem beginOp_busy (s : State) : (beginOp s).busy = true := rfl
@[simp] theorem beginOp_path (s : State) : (beginOp s).path = s.path := rfl
@[simp] theorem beginOp_baud (s : State) : (beginOp s).baud = s.baud := rfl
@[simp] theorem beginOp_logEn (s : State) : (beginOp s).logEn = s.logEn := rfl
@[simp] theorem beginOp_rxbuf (s : State) : (beginOp s).rxbuf = s.rxbuf := rfl
@[simp] theorem beginOp_txbuf (s : State) : (beginOp s).txbuf = s.txbuf := rfl
@[simp] theorem beginOp_tap (s : State) : (beginOp s).tap = s.tap := rfl
@[simp] theorem beginOp_result (s : State) : (beginOp s).result = s.result := rfl
@[simp] theorem beginOp_inbox (s : State) : (beginOp s).inbox = s.inbox := rfl
@[simp] theorem beginOp_reads (s : State) : (beginOp s).reads = s.reads := rfl
@[simp] theorem beginOp_writes (s : State) : (beginOp s).writes = s.writes := rfl
@[simp] theorem beginOp_opens (s : State) : (beginOp s).opens = s.opens := rfl
@[simp] theorem beginOp_closes (s : State) : (beginOp s).closes = s.closes := rfl
@[simp] theorem beginOp_draws (s : State) : (beginOp s).draws = s.draws := rfl
@[simp] theorem beginOp_trace (s : State) : (beginOp s).trace = s.trace := rfl
@[simp] theorem beginOp_params (s : State) : (beginOp s).params = s.params := rfl

/-! ### setPhase -/

@[simp] theorem setPhase_chk (p : Phase) (s : State) : (setPhase p s).chk = s.chk := rfl
@[simp] theorem setPhase_att (p : Phase) (s : State) : (setPhase p s).att = s.att := rfl
@[simp] theorem setPhase_rxlen (p : Phase) (s : State) : (setPhase p s).rxlen = s.rxlen := rfl
@[simp] theorem setPhase_txlen (p : Phase) (s : State) : (setPhase p s).txlen = s.txlen := rfl
@[simp] theorem setPhase_code (p : Phase) (s : State) : (setPhase p s).code = s.code := rfl
@[simp] theorem setPhase_clen (p : Phase) (s : State) : (setPhase p s).clen = s.clen := rfl
@[simp] theorem setPhase_cmd (p : Phase) (s : State) : (setPhase p s).cmd = s.cmd := rfl
@[simp] theorem setPhase_paylen (p : Phase) (s : State) : (setPhase p s).paylen = s.paylen := rfl
@[simp] theorem setPhase_phase (p : Phase) (s : State) : (setPhase p s).phase = p := rfl
@[simp] theorem setPhase_err (p : Phase) (s : State) : (setPhase p s).err = s.err := rfl
@[simp] theorem setPhase_connOpen (p : Phase) (s : State) : (setPhase p s).connOpen = s.connOpen := rfl
@[simp] theorem setPhase_ackWrErr (p : Phase) (s : State) : (setPhase p s).ackWrErr = s.ackWrErr := rfl
@[simp] theorem setPhase_busy (p : Phase) (s : State) : (setPhase p s).busy = s.busy := rfl
@[simp] theorem setPhase_path (p : Phase) (s : State) : (setPhase p s).path = s.path := rfl
@[simp] theorem setPhase_baud (p : Phase) (s : State) : (setPhase p s).baud = s.baud := rfl
@[simp] theorem setPhase_logEn (p : Phase) (s : State) : (setPhase p s).logEn = s.logEn := rfl
@[simp] theorem setPhase_rxbuf (p : Phase) (s : State) : (setPhase p s).rxbuf = s.rxbuf := rfl
@[simp] theorem setPhase_txbuf (p : Phase) (s : State) : (setPhase p s).txbuf = s.txbuf := rfl
@[simp] theorem setPhase_tap (p : Phase) (s : State) : (setPhase p s).tap = s.tap := rfl
@[simp] theorem setPhase_result (p : Phase) (s : State) : (setPhase p s).result = s.result := rfl
@[simp] theorem setPhase_inbox (p : Phase) (s : State) : (setPhase p s).inbox = s.inbox := rfl
@[simp] theorem setPhase_reads (p : Phase) (s : State) : (setPhase p s).reads = s.reads := rfl
@[simp] theorem setPhase_writes (p : Phase) (s : State) : (setPhase p s).writes = s.writes := rfl
@[simp] theorem setPhase_opens (p : Phase) (s : State) : (setPhase p s).opens = s.opens := rfl
@[simp] theorem setPhase_closes (p : Phase) (s : State) : (setPhase p s).closes = s.closes := rfl
@[simp] theorem setPhase_draws (p : Phase) (s : State) : (setPhase p s).draws = s.draws := rfl
@[simp] theorem setPhase_trace (p : Phase) (s : State) : (setPhase p s).trace = s.trace := rfl
@[simp] theorem setPhase_params (p : Phase) (s : State) : (setPhase p s).params = s.params := rfl

/-! ### foldChk -/

@[simp] theorem foldChk_chk (b : List Byte) (s : State) : (foldChk b s).chk = checksum b := rfl
@[simp] theorem foldChk_att (b : List Byte) (s : State) : (foldChk b s).att = s.att := rfl
@[simp] theorem foldChk_rxlen (b : List Byte) (s : State) : (foldChk b s).rxlen = s.rxlen := rfl
@[simp] theorem foldChk_txlen (b : List Byte) (s : State) : (foldChk b s).txlen = s.txlen := rfl
@[simp] theorem foldChk_code (b : List Byte) (s : State) : (foldChk b s).code = s.code := rfl
@[simp] theorem foldChk_clen (b : List Byte) (s : State) : (foldChk b s).clen = s.clen := rfl
@[simp] theorem foldChk_cmd (b : List Byte) (s : State) : (foldChk b s).cmd = s.cmd := rfl
@[simp] theorem foldChk_paylen (b : List Byte) (s : State) : (foldChk b s).paylen = s.paylen := rfl
@[simp] theorem foldChk_phase (b : List Byte) (s : State) : (foldChk b s).phase = s.phase := rfl
@[simp] theorem foldChk_err (b : List Byte) (s : State) : (foldChk b s).err = s.err := rfl
@[simp] theorem foldChk_connOpen (b : List Byte) (s : State) : (foldChk b s).connOpen = s.connOpen := rfl
@[simp] theorem foldChk_ackWrErr (b : List Byte) (s : State) : (foldChk b s).ackWrErr = s.ackWrErr := rfl
@[simp] theorem foldChk_busy (b : List Byte) (s : State) : (foldChk b s).busy = s.busy := rfl
@[simp] theorem foldChk_path (b : List Byte) (s : State) : (foldChk b s).path = s.path := rfl
@[simp] theorem foldChk_baud (b : List Byte) (s : State) : (foldChk b s).baud = s.baud := rfl
@[simp] theorem foldChk_logEn (b : List Byte) (s : State) : (foldChk b s).logEn = s.logEn := rfl
@[simp] theorem foldChk_rxbuf (b : List Byte) (s : State) : (foldChk b s).rxbuf = s.rxbuf := rfl
@[simp] theorem foldChk_txbuf (b : List Byte) (s : State) : (foldChk b s).txbuf = s.txbuf := rfl
@[simp] theorem foldChk_tap (b : List Byte) (s : State) : (foldChk b s).tap = s.tap := rfl
@[simp] theorem foldChk_result (b : List Byte) (s : State) : (foldChk b s).result = s.result := rfl
@[simp] theorem foldChk_inbox (b : List Byte) (s : State) : (foldChk b s).inbox = s.inbox := rfl
@[simp] theorem foldChk_reads (b : List Byte) (s : State) : (foldChk b s).reads = s.reads := rfl
@[simp] theorem foldChk_writes (b : List Byte) (s : State) : (foldChk b s).writes = s.writes := rfl
@[simp] theorem foldChk_opens (b : List Byte) (s : State) : (foldChk b s).opens = s.opens := rfl
@[simp] theorem foldChk_closes (b : List Byte) (s : State) : (foldChk b s).closes = s.closes := rfl
@[simp] theorem foldChk_draws (b : List Byte) (s : State) : (foldChk b s).draws = s.draws := rfl
@[simp] theorem foldChk_trace (b : List Byte) (s : State) : (foldChk b s).trace = s.trace := rfl
@[simp] theorem foldChk_params (b : List Byte) (s : State) : (foldChk b s).params = s.params := rfl

/-! ### latchCode -/

@[simp] theorem latchCode_chk (b : Byte) (s : State) : (latchCode b s).chk = s.chk := rfl
@[simp] theorem latchCode_att (b : Byte) (s : State) : (latchCode b s).att = s.att := rfl
@[simp] theorem latchCode_rxlen (b : Byte) (s : State) : (latchCode b s).rxlen = s.rxlen := rfl
@[simp] theorem latchCode_txlen (b : Byte) (s : State) : (latchCode b s).txlen = s.txlen := rfl
@[simp] theorem latchCode_code (b : Byte) (s : State) : (latchCode b s).code = b := rfl
@[simp] theorem latchCode_clen (b : Byte) (s : State) : (latchCode b s).clen = 1 := rfl
@[simp] theorem latchCode_cmd (b : Byte) (s : State) : (latchCode b s).cmd = s.cmd := rfl
@[simp] theorem latchCode_paylen (b : Byte) (s : State) : (latchCode b s).paylen = s.paylen := rfl
@[simp] theorem latchCode_phase (b : Byte) (s : State) : (latchCode b s).phase = s.phase := rfl
@[simp] theorem latchCode_err (b : Byte) (s : State) : (latchCode b s).err = s.err := rfl
@[simp] theorem latchCode_connOpen (b : Byte) (s : State) : (latchCode b s).connOpen = s.connOpen := rfl
@[simp] theorem latchCode_ackWrErr (b : Byte) (s : State) : (latchCode b s).ackWrErr = s.ackWrErr := rfl
@[simp] theorem latchCode_busy (b : Byte) (s : State) : (latchCode b s).busy = s.busy := rfl
@[simp] theorem latchCode_path (b : Byte) (s : State) : (latchCode b s).path = s.path := rfl
@[simp] theorem latchCode_baud (b : Byte) (s : State) : (latchCode b s).baud = s.baud := rfl
@[simp] theorem latchCode_logEn (b : Byte) (s : State) : (latchCode b s).logEn = s.logEn := rfl
@[simp] theorem latchCode_rxbuf (b : Byte) (s : State) : (latchCode b s).rxbuf = s.rxbuf := rfl
@[simp] theorem latchCode_txbuf (b : Byte) (s : State) : (latchCode b s).txbuf = s.txbuf := rfl
@[simp] theorem latchCode_tap (b : Byte) (s : State) : (latchCode b s).tap = s.tap := rfl
@[simp] theorem latchCode_result (b : Byte) (s : State) : (latchCode b s).result = s.result := rfl
@[simp] theorem latchCode_inbox (b : Byte) (s : State) : (latchCode b s).inbox = s.inbox := rfl
@[simp] theorem latchCode_reads (b : Byte) (s : State) : (latchCode b s).reads = s.reads := rfl
@[simp] theorem latchCode_writes (b : Byte) (s : State) : (latchCode b s).writes = s.writes := rfl
@[simp] theorem latchCode_opens (b : Byte) (s : State) : (latchCode b s).opens = s.opens := rfl
@[simp] theorem latchCode_closes (b : Byte) (s : State) : (latchCode b s).closes = s.closes := rfl
@[simp] theorem latchCode_draws (b : Byte) (s : State) : (latchCode b s).draws = s.draws := rfl
@[simp] theorem latchCode_trace (b : Byte) (s : State) : (latchCode b s).trace = s.trace := rfl
@[simp] theorem latchCode_params (b : Byte) (s : State) : (latchCode b s).params = s.params := rfl

/-! ### appendRx -/

@[simp] theorem appendRx_chk (b : List Byte) (s : State) : (appendRx b s).chk = s.chk := rfl
@[simp] theorem appendRx_att (b : List Byte) (s : State) : (appendRx b s).att = s.att := rfl
@[simp] theorem appendRx_rxlen (b : List Byte) (s : State) : (appendRx b s).rxlen = s.rxlen + b.length := rfl
@[simp] theorem appendRx_txlen (b : List Byte) (s : State) : (appendRx b s).txlen = s.txlen := rfl
@[simp] theorem appendRx_code (b : List Byte) (s : State) : (appendRx b s).code = s.code := rfl
@[simp] theorem appendRx_clen (b : List Byte) (s : State) : (appendRx b s).clen = s.clen := rfl
@[simp] theorem appendRx_cmd (b : List Byte) (s : State) : (appendRx b s).cmd = s.cmd := rfl
@[simp] theorem appendRx_paylen (b : List Byte) (s : State) : (appendRx b s).paylen = s.paylen := rfl
@[simp] theorem appendRx_phase (b : List Byte) (s : State) : (appendRx b s).phase = s.phase := rfl
@[simp] theorem appendRx_err (b : List Byte) (s : State) : (appendRx b s).err = s.err := rfl
@[simp] theorem appendRx_connOpen (b : List Byte) (s : State) : (appendRx b s).connOpen = s.connOpen := rfl
@[simp] theorem appendRx_ackWrErr (b : List Byte) (s : State) : (appendRx b s).ackWrErr = s.ackWrErr := rfl
@[simp] theorem appendRx_busy (b : List Byte) (s : State) : (appendRx b s).busy = s.busy := rfl
@[simp] theorem appendRx_path (b : List Byte) (s : State) : (appendRx b s).path = s.path := rfl
@[simp] theorem appendRx_baud (b : List Byte) (s : State) : (appendRx b s).baud = s.baud := rfl
@[simp] theorem appendRx_logEn (b : List Byte) (s : State) : (appendRx b s).logEn = s.logEn := rfl
@[simp] theorem appendRx_rxbuf (b : List Byte) (s : State) : (appendRx b s).rxbuf = Memory.writeRange s.rxbuf s.rxlen b := rfl
@[simp] theorem appendRx_txbuf (b : List Byte) (s : State) : (appendRx b s).txbuf = s.txbuf := rfl
@[simp] theorem appendRx_tap (b : List Byte) (s : State) : (appendRx b s).tap = s.tap := rfl
@[simp] theorem appendRx_result (b : List Byte) (s : State) : (appendRx b s).result = s.result := rfl
@[simp] theorem appendRx_inbox (b : List Byte) (s : State) : (appendRx b s).inbox = s.inbox := rfl
@[simp] theorem appendRx_reads (b : List Byte) (s : State) : (appendRx b s).reads = s.reads := rfl
@[simp] theorem appendRx_writes (b : List Byte) (s : State) : (appendRx b s).writes = s.writes := rfl
@[simp] theorem appendRx_opens (b : List Byte) (s : State) : (appendRx b s).opens = s.opens := rfl
@[simp] theorem appendRx_closes (b : List Byte) (s : State) : (appendRx b s).closes = s.closes := rfl
@[simp] theorem appendRx_draws (b : List Byte) (s : State) : (appendRx b s).draws = s.draws := rfl
@[simp] theorem appendRx_trace (b : List Byte) (s : State) : (appendRx b s).trace = s.trace := rfl
@[simp] theorem appendRx_params (b : List Byte) (s : State) : (appendRx b s).params = s.params := rfl

/-! ### appendTx -/

@[simp] theorem appendTx_chk (b : List Byte) (s : State) : (appendTx b s).chk = s.chk := rfl
@[simp] theorem appendTx_att (b : List Byte) (s : State) : (appendTx b s).att = s.att := rfl
@[simp] theorem appendTx_rxlen (b : List Byte) (s : State) : (appendTx b s).rxlen = s.rxlen := rfl
@[simp] theorem appendTx_txlen (b : List Byte) (s : State) : (appendTx b s).txlen = s.txlen + b.length := rfl
@[simp] theorem appendTx_code (b : List Byte) (s : State) : (appendTx b s).code = s.code := rfl
@[simp] theorem appendTx_clen (b : List Byte) (s : State) : (appendTx b s).clen = s.clen := rfl
@[simp] theorem appendTx_cmd (b : List Byte) (s : State) : (appendTx b s).cmd = s.cmd := rfl
@[simp] theorem appendTx_paylen (b : List Byte) (s : State) : (appendTx b s).paylen = s.paylen := rfl
@[simp] theorem appendTx_phase (b : List Byte) (s : State) : (appendTx b s).phase = s.phase := rfl
@[simp] theorem appendTx_err (b : List Byte) (s : State) : (appendTx b s).err = s.err := rfl
@[simp] theorem appendTx_connOpen (b : List Byte) (s : State) : (appendTx b s).connOpen = s.connOpen := rfl
@[simp] theorem appendTx_ackWrErr (b : List Byte) (s : State) : (appendTx b s).ackWrErr = s.ackWrErr := rfl
@[simp] theorem appendTx_busy (b : List Byte) (s : State) : (appendTx b s).busy = s.busy := rfl
@[simp] theorem appendTx_path (b : List Byte) (s : State) : (appendTx b s).path = s.path := rfl
@[simp] theorem appendTx_baud (b : List Byte) (s : State) : (appendTx b s).baud = s.baud := rfl
@[simp] theorem appendTx_logEn (b : List Byte) (s : State) : (appendTx b s).logEn = s.logEn := rfl
@[simp] theorem appendTx_rxbuf (b : List Byte) (s : State) : (appendTx b s).rxbuf = s.rxbuf := rfl
@[simp] theorem appendTx_txbuf (b : List Byte) (s : State) : (appendTx b s).txbuf = Memory.writeRange s.txbuf s.txlen b := rfl
@[simp] theorem appendTx_tap (b : List Byte) (s : State) : (appendTx b s).tap = s.tap := rfl
@[simp] theorem appendTx_result (b : List Byte) (s : State) : (appendTx b s).result = s.result := rfl
@[simp] theorem appendTx_inbox (b : List Byte) (s : State) : (appendTx b s).inbox = s.inbox := rfl
@[simp] theorem appendTx_reads (b : List Byte) (s : State) : (appendTx b s).reads = s.reads := rfl
@[simp] theorem appendTx_writes (b : List Byte) (s : State) : (appendTx b s).writes = s.writes := rfl
@[simp] theorem appendTx_opens (b : List Byte) (s : State) : (appendTx b s).opens = s.opens := rfl
@[simp] theorem appendTx_closes (b : List Byte) (s : State) : (appendTx b s).closes = s.closes := rfl
@[simp] theorem appendTx_draws (b : List Byte) (s : State) : (appendTx b s).draws = s.draws := rfl
@[simp] theorem appendTx_trace (b : List Byte) (s : State) : (appendTx b s).trace = s.trace := rfl
@[simp] theorem appendTx_params (b : List Byte) (s : State) : (appendTx b s).params = s.params := rfl

/-! ### logTap -/

@[simp] theorem logTap_chk (d : Dir) (b : List Byte) (s : State) : (logTap d b s).chk = s.chk := rfl
@[simp] theorem logTap_att (d : Dir) (b : List Byte) (s : State) : (logTap d b s).att = s.att := rfl
@[simp] theorem logTap_rxlen (d : Dir) (b : List Byte) (s : State) : (logTap d b s).rxlen = s.rxlen := rfl
@[simp] theorem logTap_txlen (d : Dir) (b : List Byte) (s : State) : (logTap d b s).txlen = s.txlen := rfl
@[simp] theorem logTap_code (d : Dir) (b : List Byte) (s : State) : (logTap d b s).code = s.code := rfl
@[simp] theorem logTap_clen (d : Dir) (b : List Byte) (s : State) : (logTap d b s).clen = s.clen := rfl
@[simp] theorem logTap_cmd (d : Dir) (b : List Byte) (s : State) : (logTap d b s).cmd = s.cmd := rfl
@[simp] theorem logTap_paylen (d : Dir) (b : List Byte) (s : State) : (logTap d b s).paylen = s.paylen := rfl
@[simp] theorem logTap_phase (d : Dir) (b : List Byte) (s : State) : (logTap d b s).phase = s.phase := rfl
@[simp] theorem logTap_err (d : Dir) (b : List Byte) (s : State) : (logTap d b s).err = s.err := rfl
@[simp] theorem logTap_connOpen (d : Dir) (b : List Byte) (s : State) : (logTap d b s).connOpen = s.connOpen := rfl
@[simp] theorem logTap_ackWrErr (d : Dir) (b : List Byte) (s : State) : (logTap d b s).ackWrErr = s.ackWrErr := rfl
@[simp] theorem logTap_busy (d : Dir) (b : List Byte) (s : State) : (logTap d b s).busy = s.busy := rfl
@[simp] theorem logTap_path (d : Dir) (b : List Byte) (s : State) : (logTap d b s).path = s.path := rfl
@[simp] theorem logTap_baud (d : Dir) (b : List Byte) (s : State) : (logTap d b s).baud = s.baud := rfl
@[simp] theorem logTap_logEn (d : Dir) (b : List Byte) (s : State) : (logTap d b s).logEn = s.logEn := rfl
@[simp] theorem logTap_rxbuf (d : Dir) (b : List Byte) (s : State) : (logTap d b s).rxbuf = s.rxbuf := rfl
@[simp] theorem logTap_txbuf (d : Dir) (b : List Byte) (s : State) : (logTap d b s).txbuf = s.txbuf := rfl
@[simp] theorem logTap_tap (d : Dir) (b : List Byte) (s : State) : (logTap d b s).tap = if s.logEn then s.tap ++ [⟨d, b⟩] else s.tap := rfl
@[simp] theorem logTap_result (d : Dir) (b : List Byte) (s : State) : (logTap d b s).result = s.result := rfl
@[simp] theorem logTap_inbox (d : Dir) (b : List Byte) (s : State) : (logTap d b s).inbox = s.inbox := rfl
@[simp] theorem logTap_reads (d : Dir) (b : List Byte) (s : State) : (logTap d b s).reads = s.reads := rfl
@[simp] theorem logTap_writes (d : Dir) (b : List Byte) (s : State) : (logTap d b s).writes = s.writes := rfl
@[simp] theorem logTap_opens (d : Dir) (b : List Byte) (s : State) : (logTap d b s).opens = s.opens := rfl
@[simp] theorem logTap_closes (d : Dir) (b : List Byte) (s : State) : (logTap d b s).closes = s.closes := rfl
@[simp] theorem logTap_draws (d : Dir) (b : List Byte) (s : State) : (logTap d b s).draws = s.draws := rfl
@[simp] theorem logTap_trace (d : Dir) (b : List Byte) (s : State) : (logTap d b s).trace = s.trace := rfl
@[simp] theorem logTap_params (d : Dir) (b : List Byte) (s : State) : (logTap d b s).params = s.params := rfl

/-! ### arriving -/

@[simp] theorem arriving_chk (b : List Byte) (s : State) : (arriving b s).chk = s.chk := rfl
@[simp] theorem arriving_att (b : List Byte) (s : State) : (arriving b s).att = s.att := rfl
@[simp] theorem arriving_rxlen (b : List Byte) (s : State) : (arriving b s).rxlen = s.rxlen := rfl
@[simp] theorem arriving_txlen (b : List Byte) (s : State) : (arriving b s).txlen = s.txlen := rfl
@[simp] theorem arriving_code (b : List Byte) (s : State) : (arriving b s).code = s.code := rfl
@[simp] theorem arriving_clen (b : List Byte) (s : State) : (arriving b s).clen = s.clen := rfl
@[simp] theorem arriving_cmd (b : List Byte) (s : State) : (arriving b s).cmd = s.cmd := rfl
@[simp] theorem arriving_paylen (b : List Byte) (s : State) : (arriving b s).paylen = s.paylen := rfl
@[simp] theorem arriving_phase (b : List Byte) (s : State) : (arriving b s).phase = s.phase := rfl
@[simp] theorem arriving_err (b : List Byte) (s : State) : (arriving b s).err = s.err := rfl
@[simp] theorem arriving_connOpen (b : List Byte) (s : State) : (arriving b s).connOpen = s.connOpen := rfl
@[simp] theorem arriving_ackWrErr (b : List Byte) (s : State) : (arriving b s).ackWrErr = s.ackWrErr := rfl
@[simp] theorem arriving_busy (b : List Byte) (s : State) : (arriving b s).busy = s.busy := rfl
@[simp] theorem arriving_path (b : List Byte) (s : State) : (arriving b s).path = s.path := rfl
@[simp] theorem arriving_baud (b : List Byte) (s : State) : (arriving b s).baud = s.baud := rfl
@[simp] theorem arriving_logEn (b : List Byte) (s : State) : (arriving b s).logEn = s.logEn := rfl
@[simp] theorem arriving_rxbuf (b : List Byte) (s : State) : (arriving b s).rxbuf = s.rxbuf := rfl
@[simp] theorem arriving_txbuf (b : List Byte) (s : State) : (arriving b s).txbuf = s.txbuf := rfl
@[simp] theorem arriving_tap (b : List Byte) (s : State) : (arriving b s).tap = s.tap := rfl
@[simp] theorem arriving_result (b : List Byte) (s : State) : (arriving b s).result = s.result := rfl
@[simp] theorem arriving_inbox (b : List Byte) (s : State) : (arriving b s).inbox = s.inbox := rfl
@[simp] theorem arriving_reads (b : List Byte) (s : State) : (arriving b s).reads = s.reads ++ [.bytes b] := rfl
@[simp] theorem arriving_writes (b : List Byte) (s : State) : (arriving b s).writes = s.writes := rfl
@[simp] theorem arriving_opens (b : List Byte) (s : State) : (arriving b s).opens = s.opens := rfl
@[simp] theorem arriving_closes (b : List Byte) (s : State) : (arriving b s).closes = s.closes := rfl
@[simp] theorem arriving_draws (b : List Byte) (s : State) : (arriving b s).draws = s.draws := rfl
@[simp] theorem arriving_trace (b : List Byte) (s : State) : (arriving b s).trace = s.trace := rfl
@[simp] theorem arriving_params (b : List Byte) (s : State) : (arriving b s).params = s.params := rfl

/-! ### resetEngine -/

@[simp] theorem resetEngine_chk (s : State) : (resetEngine s).chk = 0x00 := rfl
@[simp] theorem resetEngine_att (s : State) : (resetEngine s).att = 0 := rfl
@[simp] theorem resetEngine_rxlen (s : State) : (resetEngine s).rxlen = 0 := rfl
@[simp] theorem resetEngine_txlen (s : State) : (resetEngine s).txlen = 0 := rfl
@[simp] theorem resetEngine_code (s : State) : (resetEngine s).code = 0x00 := rfl
@[simp] theorem resetEngine_clen (s : State) : (resetEngine s).clen = 0 := rfl
@[simp] theorem resetEngine_cmd (s : State) : (resetEngine s).cmd = 0x00 := rfl
@[simp] theorem resetEngine_paylen (s : State) : (resetEngine s).paylen = 0 := rfl
@[simp] theorem resetEngine_phase (s : State) : (resetEngine s).phase = .idle := rfl
@[simp] theorem resetEngine_err (s : State) : (resetEngine s).err = none := rfl
@[simp] theorem resetEngine_connOpen (s : State) : (resetEngine s).connOpen = false := rfl
@[simp] theorem resetEngine_ackWrErr (s : State) : (resetEngine s).ackWrErr = false := rfl
@[simp] theorem resetEngine_busy (s : State) : (resetEngine s).busy = false := rfl
@[simp] theorem resetEngine_path (s : State) : (resetEngine s).path = [] := rfl
@[simp] theorem resetEngine_baud (s : State) : (resetEngine s).baud = 0 := rfl
@[simp] theorem resetEngine_logEn (s : State) : (resetEngine s).logEn = false := rfl
@[simp] theorem resetEngine_rxbuf (s : State) : (resetEngine s).rxbuf = [] := rfl
@[simp] theorem resetEngine_txbuf (s : State) : (resetEngine s).txbuf = [] := rfl
@[simp] theorem resetEngine_tap (s : State) : (resetEngine s).tap = s.tap := rfl
@[simp] theorem resetEngine_result (s : State) : (resetEngine s).result = none := rfl
@[simp] theorem resetEngine_inbox (s : State) : (resetEngine s).inbox = s.inbox := rfl
@[simp] theorem resetEngine_reads (s : State) : (resetEngine s).reads = s.reads := rfl
@[simp] theorem resetEngine_writes (s : State) : (resetEngine s).writes = s.writes := rfl
@[simp] theorem resetEngine_opens (s : State) : (resetEngine s).opens = s.opens := rfl
@[simp] theorem resetEngine_closes (s : State) : (resetEngine s).closes = s.closes := rfl
@[simp] theorem resetEngine_draws (s : State) : (resetEngine s).draws = s.draws := rfl
@[simp] theorem resetEngine_trace (s : State) : (resetEngine s).trace = s.trace ++ [⟨s.phase, .engineReset⟩] := rfl
@[simp] theorem resetEngine_params (s : State) : (resetEngine s).params = s.params := rfl

/-! ### portRead -/

@[simp] theorem portRead_chk (cap : Nat) (s : State) : (portRead cap s).chk = s.chk := rfl
@[simp] theorem portRead_att (cap : Nat) (s : State) : (portRead cap s).att = s.att := rfl
@[simp] theorem portRead_rxlen (cap : Nat) (s : State) : (portRead cap s).rxlen = s.rxlen := rfl
@[simp] theorem portRead_txlen (cap : Nat) (s : State) : (portRead cap s).txlen = s.txlen := rfl
@[simp] theorem portRead_code (cap : Nat) (s : State) : (portRead cap s).code = s.code := rfl
@[simp] theorem portRead_clen (cap : Nat) (s : State) : (portRead cap s).clen = s.clen := rfl
@[simp] theorem portRead_cmd (cap : Nat) (s : State) : (portRead cap s).cmd = s.cmd := rfl
@[simp] theorem portRead_paylen (cap : Nat) (s : State) : (portRead cap s).paylen = s.paylen := rfl
@[simp] theorem portRead_phase (cap : Nat) (s : State) : (portRead cap s).phase = s.phase := rfl
@[simp] theorem portRead_err (cap : Nat) (s : State) : (portRead cap s).err = s.err := rfl
@[simp] theorem portRead_connOpen (cap : Nat) (s : State) : (portRead cap s).connOpen = s.connOpen := rfl
@[simp] theorem portRead_ackWrErr (cap : Nat) (s : State) : (portRead cap s).ackWrErr = s.ackWrErr := rfl
@[simp] theorem portRead_busy (cap : Nat) (s : State) : (portRead cap s).busy = s.busy := rfl
@[simp] theorem portRead_path (cap : Nat) (s : State) : (portRead cap s).path = s.path := rfl
@[simp] theorem portRead_baud (cap : Nat) (s : State) : (portRead cap s).baud = s.baud := rfl
@[simp] theorem portRead_logEn (cap : Nat) (s : State) : (portRead cap s).logEn = s.logEn := rfl
@[simp] theorem portRead_rxbuf (cap : Nat) (s : State) : (portRead cap s).rxbuf = s.rxbuf := rfl
@[simp] theorem portRead_txbuf (cap : Nat) (s : State) : (portRead cap s).txbuf = s.txbuf := rfl
@[simp] theorem portRead_tap (cap : Nat) (s : State) : (portRead cap s).tap = s.tap := rfl
@[simp] theorem portRead_result (cap : Nat) (s : State) : (portRead cap s).result = s.result := rfl
@[simp] theorem portRead_inbox (cap : Nat) (s : State) : (portRead cap s).inbox = s.inbox := rfl
@[simp] theorem portRead_writes (cap : Nat) (s : State) : (portRead cap s).writes = s.writes := rfl
@[simp] theorem portRead_opens (cap : Nat) (s : State) : (portRead cap s).opens = s.opens := rfl
@[simp] theorem portRead_closes (cap : Nat) (s : State) : (portRead cap s).closes = s.closes := rfl
@[simp] theorem portRead_trace (cap : Nat) (s : State) : (portRead cap s).trace = s.trace ++ [⟨s.phase, .got cap (readAnswer cap s)⟩] := rfl
@[simp] theorem portRead_params (cap : Nat) (s : State) : (portRead cap s).params = s.params := rfl

/-! ### portWrite -/

@[simp] theorem portWrite_chk (b : List Byte) (s : State) : (portWrite b s).chk = s.chk := rfl
@[simp] theorem portWrite_att (b : List Byte) (s : State) : (portWrite b s).att = s.att := rfl
@[simp] theorem portWrite_rxlen (b : List Byte) (s : State) : (portWrite b s).rxlen = s.rxlen := rfl
@[simp] theorem portWrite_txlen (b : List Byte) (s : State) : (portWrite b s).txlen = s.txlen := rfl
@[simp] theorem portWrite_code (b : List Byte) (s : State) : (portWrite b s).code = s.code := rfl
@[simp] theorem portWrite_clen (b : List Byte) (s : State) : (portWrite b s).clen = s.clen := rfl
@[simp] theorem portWrite_cmd (b : List Byte) (s : State) : (portWrite b s).cmd = s.cmd := rfl
@[simp] theorem portWrite_paylen (b : List Byte) (s : State) : (portWrite b s).paylen = s.paylen := rfl
@[simp] theorem portWrite_phase (b : List Byte) (s : State) : (portWrite b s).phase = s.phase := rfl
@[simp] theorem portWrite_err (b : List Byte) (s : State) : (portWrite b s).err = s.err := rfl
@[simp] theorem portWrite_connOpen (b : List Byte) (s : State) : (portWrite b s).connOpen = s.connOpen := rfl
@[simp] theorem portWrite_ackWrErr (b : List Byte) (s : State) : (portWrite b s).ackWrErr = s.ackWrErr := rfl
@[simp] theorem portWrite_busy (b : List Byte) (s : State) : (portWrite b s).busy = s.busy := rfl
@[simp] theorem portWrite_path (b : List Byte) (s : State) : (portWrite b s).path = s.path := rfl
@[simp] theorem portWrite_baud (b : List Byte) (s : State) : (portWrite b s).baud = s.baud := rfl
@[simp] theorem portWrite_logEn (b : List Byte) (s : State) : (portWrite b s).logEn = s.logEn := rfl
@[simp] theorem portWrite_rxbuf (b : List Byte) (s : State) : (portWrite b s).rxbuf = s.rxbuf := rfl
@[simp] theorem portWrite_txbuf (b : List Byte) (s : State) : (portWrite b s).txbuf = s.txbuf := rfl
@[simp] theorem portWrite_tap (b : List Byte) (s : State) : (portWrite b s).tap = s.tap := rfl
@[simp] theorem portWrite_result (b : List Byte) (s : State) : (portWrite b s).result = s.result := rfl
@[simp] theorem portWrite_inbox (b : List Byte) (s : State) : (portWrite b s).inbox = s.inbox := rfl
@[simp] theorem portWrite_reads (b : List Byte) (s : State) : (portWrite b s).reads = s.reads := rfl
@[simp] theorem portWrite_opens (b : List Byte) (s : State) : (portWrite b s).opens = s.opens := rfl
@[simp] theorem portWrite_closes (b : List Byte) (s : State) : (portWrite b s).closes = s.closes := rfl
@[simp] theorem portWrite_trace (b : List Byte) (s : State) : (portWrite b s).trace = s.trace ++ [⟨s.phase, .wrote b (writeAnswer s)⟩] := rfl
@[simp] theorem portWrite_params (b : List Byte) (s : State) : (portWrite b s).params = s.params := rfl

/-! ### portOpen -/

@[simp] theorem portOpen_chk (s : State) : (portOpen s).chk = s.chk := rfl
@[simp] theorem portOpen_att (s : State) : (portOpen s).att = s.att := rfl
@[simp] theorem portOpen_rxlen (s : State) : (portOpen s).rxlen = s.rxlen := rfl
@[simp] theorem portOpen_txlen (s : State) : (portOpen s).txlen = s.txlen := rfl
@[simp] theorem portOpen_code (s : State) : (portOpen s).code = s.code := rfl
@[simp] theorem portOpen_clen (s : State) : (portOpen s).clen = s.clen := rfl
@[simp] theorem portOpen_cmd (s : State) : (portOpen s).cmd = s.cmd := rfl
@[simp] theorem portOpen_paylen (s : State) : (portOpen s).paylen = s.paylen := rfl
@[simp] theorem portOpen_phase (s : State) : (portOpen s).phase = s.phase := rfl
@[simp] theorem portOpen_err (s : State) : (portOpen s).err = s.err := rfl
@[simp] theorem portOpen_connOpen (s : State) : (portOpen s).connOpen = s.connOpen := rfl
@[simp] theorem portOpen_ackWrErr (s : State) : (portOpen s).ackWrErr = s.ackWrErr := rfl
@[simp] theorem portOpen_busy (s : State) : (portOpen s).busy = s.busy := rfl
@[simp] theorem portOpen_path (s : State) : (portOpen s).path = s.path := rfl
@[simp] theorem portOpen_baud (s : State) : (portOpen s).baud = s.baud := rfl
@[simp] theorem portOpen_logEn (s : State) : (portOpen s).logEn = s.logEn := rfl
@[simp] theorem portOpen_rxbuf (s : State) : (portOpen s).rxbuf = s.rxbuf := rfl
@[simp] theorem portOpen_txbuf (s : State) : (portOpen s).txbuf = s.txbuf := rfl
@[simp] theorem portOpen_tap (s : State) : (portOpen s).tap = s.tap := rfl
@[simp] theorem portOpen_result (s : State) : (portOpen s).result = s.result := rfl
@[simp] theorem portOpen_inbox (s : State) : (portOpen s).inbox = s.inbox := rfl
@[simp] theorem portOpen_reads (s : State) : (portOpen s).reads = s.reads := rfl
@[simp] theorem portOpen_writes (s : State) : (portOpen s).writes = s.writes := rfl
@[simp] theorem portOpen_closes (s : State) : (portOpen s).closes = s.closes := rfl
@[simp] theorem portOpen_trace (s : State) : (portOpen s).trace = s.trace ++ [⟨s.phase, .opened (openCfg s) (openAnswer s)⟩] := rfl
@[simp] theorem portOpen_params (s : State) : (portOpen s).params = s.params := rfl

/-! ### portClose -/

@[simp] theorem portClose_chk (s : State) : (portClose s).chk = s.chk := rfl
@[simp] theorem portClose_att (s : State) : (portClose s).att = s.att := rfl
@[simp] theorem portClose_rxlen (s : State) : (portClose s).rxlen = s.rxlen := rfl
@[simp] theorem portClose_txlen (s : State) : (portClose s).txlen = s.txlen := rfl
@[simp] theorem portClose_code (s : State) : (portClose s).code = s.code := rfl
@[simp] theorem portClose_clen (s : State) : (portClose s).clen = s.clen := rfl
@[simp] theorem portClose_cmd (s : State) : (portClose s).cmd = s.cmd := rfl
@[simp] theorem portClose_paylen (s : State) : (portClose s).paylen = s.paylen := rfl
@[simp] theorem portClose_phase (s : State) : (portClose s).phase = s.phase := rfl
@[simp] theorem portClose_err (s : State) : (portClose s).err = s.err := rfl
@[simp] theorem portClose_connOpen (s : State) : (portClose s).connOpen = s.connOpen := rfl
@[simp] theorem portClose_ackWrErr (s : State) : (portClose s).ackWrErr = s.ackWrErr := rfl
@[simp] theorem portClose_busy (s : State) : (portClose s).busy = s.busy := rfl
@[simp] theorem portClose_path (s : State) : (portClose s).path = s.path := rfl
@[simp] theorem portClose_baud (s : State) : (portClose s).baud = s.baud := rfl
@[simp] theorem portClose_logEn (s : State) : (portClose s).logEn = s.logEn := rfl
@[simp] theorem portClose_rxbuf (s : State) : (portClose s).rxbuf = s.rxbuf := rfl
@[simp] theorem portClose_txbuf (s : State) : (portClose s).txbuf = s.txbuf := rfl
@[simp] theorem portClose_tap (s : State) : (portClose s).tap = s.tap := rfl
@[simp] theorem portClose_result (s : State) : (portClose s).result = s.result := rfl
@[simp] theorem portClose_inbox (s : State) : (portClose s).inbox = s.inbox := rfl
@[simp] theorem portClose_reads (s : State) : (portClose s).reads = s.reads := rfl
@[simp] theorem portClose_writes (s : State) : (portClose s).writes = s.writes := rfl
@[simp] theorem portClose_opens (s : State) : (portClose s).opens = s.opens := rfl
@[simp] theorem portClose_trace (s : State) : (portClose s).trace = s.trace ++ [⟨s.phase, .closed (closeAnswer s)⟩] := rfl
@[simp] theorem portClose_params (s : State) : (portClose s).params = s.params := rfl

/-! ### Updates by cases -/

@[simp] theorem logRead_chk (b : List Byte) (s : State) : (logRead b s).chk = s.chk := by unfold logRead; split <;> rfl
@[simp] theorem logRead_att (b : List Byte) (s : State) : (logRead b s).att = s.att := by unfold logRead; split <;> rfl
@[simp] theorem logRead_rxlen (b : List Byte) (s : State) : (logRead b s).rxlen = s.rxlen := by unfold logRead; split <;> rfl
@[simp] theorem logRead_txlen (b : List Byte) (s : State) : (logRead b s).txlen = s.txlen := by unfold logRead; split <;> rfl
@[simp] theorem logRead_code (b : List Byte) (s : State) : (logRead b s).code = s.code := by unfold logRead; split <;> rfl
@[simp] theorem logRead_clen (b : List Byte) (s : State) : (logRead b s).clen = s.clen := by unfold logRead; split <;> rfl
@[simp] theorem logRead_cmd (b : List Byte) (s : State) : (logRead b s).cmd = s.cmd := by unfold logRead; split <;> rfl
@[simp] theorem logRead_paylen (b : List Byte) (s : State) : (logRead b s).paylen = s.paylen := by unfold logRead; split <;> rfl
@[simp] theorem logRead_phase (b : List Byte) (s : State) : (logRead b s).phase = s.phase := by unfold logRead; split <;> rfl
@[simp] theorem logRead_err (b : List Byte) (s : State) : (logRead b s).err = s.err := by unfold logRead; split <;> rfl
@[simp] theorem logRead_connOpen (b : List Byte) (s : State) : (logRead b s).connOpen = s.connOpen := by unfold logRead; split <;> rfl
@[simp] theorem logRead_ackWrErr (b : List Byte) (s : State) : (logRead b s).ackWrErr = s.ackWrErr := by unfold logRead; split <;> rfl
@[simp] theorem logRead_busy (b : List Byte) (s : State) : (logRead b s).busy = s.busy := by unfold logRead; split <;> rfl
@[simp] theorem logRead_path (b : List Byte) (s : State) : (logRead b s).path = s.path := by unfold logRead; split <;> rfl
@[simp] theorem logRead_baud (b : List Byte) (s : State) : (logRead b s).baud = s.baud := by unfold logRead; split <;> rfl
@[simp] theorem logRead_logEn (b : List Byte) (s : State) : (logRead b s).logEn = s.logEn := by unfold logRead; split <;> rfl
@[simp] theorem logRead_rxbuf (b : List Byte) (s : State) : (logRead b s).rxbuf = s.rxbuf := by unfold logRead; split <;> rfl
@[simp] theorem logRead_txbuf (b : List Byte) (s : State) : (logRead b s).txbuf = s.txbuf := by unfold logRead; split <;> rfl
@[simp] theorem logRead_result (b : List Byte) (s : State) : (logRead b s).result = s.result := by unfold logRead; split <;> rfl
@[simp] theorem logRead_inbox (b : List Byte) (s : State) : (logRead b s).inbox = s.inbox := by unfold logRead; split <;> rfl
@[simp] theorem logRead_reads (b : List Byte) (s : State) : (logRead b s).reads = s.reads := by unfold logRead; split <;> rfl
@[simp] theorem logRead_writes (b : List Byte) (s : State) : (logRead b s).writes = s.writes := by unfold logRead; split <;> rfl
@[simp] theorem logRead_opens (b : List Byte) (s : State) : (logRead b s).opens = s.opens := by unfold logRead; split <;> rfl
@[simp] theorem logRead_closes (b : List Byte) (s : State) : (logRead b s).closes = s.closes := by unfold logRead; split <;> rfl
@[simp] theorem logRead_draws (b : List Byte) (s : State) : (logRead b s).draws = s.draws := by unfold logRead; split <;> rfl
@[simp] theorem logRead_trace (b : List Byte) (s : State) : (logRead b s).trace = s.trace := by unfold logRead; split <;> rfl
@[simp] theorem logRead_params (b : List Byte) (s : State) : (logRead b s).params = s.params := by unfold logRead; split <;> rfl

@[simp] theorem noteAckWrite_chk (a : WriteAnswer) (s : State) : (noteAckWrite a s).chk = s.chk := by cases a <;> rfl
@[simp] theorem noteAckWrite_att (a : WriteAnswer) (s : State) : (noteAckWrite a s).att = s.att := by cases a <;> rfl
@[simp] theorem noteAckWrite_rxlen (a : WriteAnswer) (s : State) : (noteAckWrite a s).rxlen = s.rxlen := by cases a <;> rfl
@[simp] theorem noteAckWrite_txlen (a : WriteAnswer) (s : State) : (noteAckWrite a s).txlen = s.txlen := by cases a <;> rfl
@[simp] theorem noteAckWrite_code (a : WriteAnswer) (s : State) : (noteAckWrite a s).code = s.code := by cases a <;> rfl
@[simp] theorem noteAckWrite_clen (a : WriteAnswer) (s : State) : (noteAckWrite a s).clen = s.clen := by cases a <;> rfl
@[simp] theorem noteAckWrite_cmd (a : WriteAnswer) (s : State) : (noteAckWrite a s).cmd = s.cmd := by cases a <;> rfl
@[simp] theorem noteAckWrite_paylen (a : WriteAnswer) (s : State) : (noteAckWrite a s).paylen = s.paylen := by cases a <;> rfl
@[simp] theorem noteAckWrite_phase (a : WriteAnswer) (s : State) : (noteAckWrite a s).phase = s.phase := by cases a <;> rfl
@[simp] theorem noteAckWrite_err (a : WriteAnswer) (s : State) : (noteAckWrite a s).err = s.err := by cases a <;> rfl
@[simp] theorem noteAckWrite_connOpen (a : WriteAnswer) (s : State) : (noteAckWrite a s).connOpen = s.connOpen := by cases a <;> rfl
@[simp] theorem noteAckWrite_busy (a : WriteAnswer) (s : State) : (noteAckWrite a s).busy = s.busy := by cases a <;> rfl
@[simp] theorem noteAckWrite_path (a : WriteAnswer) (s : State) : (noteAckWrite a s).path = s.path := by cases a <;> rfl
@[simp] theorem noteAckWrite_baud (a : WriteAnswer) (s : State) : (noteAckWrite a s).baud = s.baud := by cases a <;> rfl
@[simp] theorem noteAckWrite_logEn (a : WriteAnswer) (s : State) : (noteAckWrite a s).logEn = s.logEn := by cases a <;> rfl
@[simp] theorem noteAckWrite_rxbuf (a : WriteAnswer) (s : State) : (noteAckWrite a s).rxbuf = s.rxbuf := by cases a <;> rfl
@[simp] theorem noteAckWrite_txbuf (a : WriteAnswer) (s : State) : (noteAckWrite a s).txbuf = s.txbuf := by cases a <;> rfl
@[simp] theorem noteAckWrite_tap (a : WriteAnswer) (s : State) : (noteAckWrite a s).tap = s.tap := by cases a <;> rfl
@[simp] theorem noteAckWrite_result (a : WriteAnswer) (s : State) : (noteAckWrite a s).result = s.result := by cases a <;> rfl
@[simp] theorem noteAckWrite_inbox (a : WriteAnswer) (s : State) : (noteAckWrite a s).inbox = s.inbox := by cases a <;> rfl
@[simp] theorem noteAckWrite_reads (a : WriteAnswer) (s : State) : (noteAckWrite a s).reads = s.reads := by cases a <;> rfl
@[simp] theorem noteAckWrite_writes (a : WriteAnswer) (s : State) : (noteAckWrite a s).writes = s.writes := by cases a <;> rfl
@[simp] theorem noteAckWrite_opens (a : WriteAnswer) (s : State) : (noteAckWrite a s).opens = s.opens := by cases a <;> rfl
@[simp] theorem noteAckWrite_closes (a : WriteAnswer) (s : State) : (noteAckWrite a s).closes = s.closes := by cases a <;> rfl
@[simp] theorem noteAckWrite_draws (a : WriteAnswer) (s : State) : (noteAckWrite a s).draws = s.draws := by cases a <;> rfl
@[simp] theorem noteAckWrite_trace (a : WriteAnswer) (s : State) : (noteAckWrite a s).trace = s.trace := by cases a <;> rfl
@[simp] theorem noteAckWrite_params (a : WriteAnswer) (s : State) : (noteAckWrite a s).params = s.params := by cases a <;> rfl

@[simp] theorem noteAckWrite_ackWrErr (a : WriteAnswer) (s : State) :
    (noteAckWrite a s).ackWrErr = (s.ackWrErr || a != .ok) := by
  cases a <;> simp [noteAckWrite]

@[simp] theorem logRead_tap (b : List Byte) (s : State) :
    (logRead b s).tap = if s.logEn && b != [] then s.tap ++ [⟨.rx, b⟩] else s.tap := by
  unfold logRead
  by_cases h : b = [] <;> simp [h]

end Sys2Proof.Machine
end

