-- ==== Sys2Proof/Laws/Codec.lean ====
section
/-! SUPPORT. What the Frame Codec's shared operations do: the checksum over concatenations, BUILD_REQ as one update,
PARSE_RESP by its three tests. -/

namespace Sys2Proof

theorem foldl_xor (k : Byte) (s : List Byte) : s.foldl (fun k b => k ^^^ b) k = k ^^^ checksum s := by
  induction s generalizing k with
  | nil => simp [checksum]
  | cons b t ih =>
    have h0 : checksum (b :: t) = b ^^^ checksum t := by
      simp only [checksum, List.foldl_cons]
      rw [ih]
      simp [checksum]
    rw [List.foldl_cons, ih, h0, BitVec.xor_assoc]

@[simp] theorem checksum_nil : checksum [] = 0 := rfl

@[simp] theorem checksum_cons (b : Byte) (s : List Byte) : checksum (b :: s) = b ^^^ checksum s := by
  have h := foldl_xor (0 ^^^ b) s
  simpa [checksum] using h

@[simp] theorem checksum_append (s t : List Byte) : checksum (s ++ t) = checksum s ^^^ checksum t := by
  induction s with
  | nil => simp
  | cons b s ih => simp [ih, BitVec.xor_assoc]

@[simp] theorem reqFrame_length (c : Byte) (p : List Byte) : (reqFrame c p).length = p.length + 6 := by
  simp [reqFrame]

@[simp] theorem rspFrame_length (p : List Byte) : (rspFrame p).length = p.length + 5 := by
  simp [rspFrame]

namespace Machine

/-- What the next append to TXBUF gives, when TXBUF was filled from offset 0 with `l`. -/
theorem writeRange_from_zero (m : Memory) (l b : List Byte) :
    Memory.writeRange (Memory.writeRange m 0 l) l.length b = Memory.writeRange m 0 (l ++ b) := by
  have h := Memory.writeRange_append m 0 l b
  rwa [Nat.zero_add] at h

/-- BUILD_REQ as one update (40_frame_codec R122). -/
theorem buildReq_eq (c : Byte) (p : List Byte) (s : State) : buildReq c p s = requestBuilt s c p := by
  have h4 := writeRange_from_zero s.txbuf [Wire.requestStart, Wire.deviceAddress, Wire.textStart, c] p
  have h5 := writeRange_from_zero s.txbuf
    ([Wire.requestStart, Wire.deviceAddress, Wire.textStart, c] ++ p) [Wire.textEnd]
  have h6 := writeRange_from_zero s.txbuf
    ([Wire.requestStart, Wire.deviceAddress, Wire.textStart, c] ++ p ++ [Wire.textEnd])
  have hr := Memory.readRange_writeRange s.txbuf 0
    ([Wire.requestStart, Wire.deviceAddress, Wire.textStart, c] ++ p ++ [Wire.textEnd])
  have hl : ([Wire.requestStart, Wire.deviceAddress, Wire.textStart, c] ++ p).length = 4 + p.length := by
    simp only [List.length_append, List.length_cons, List.length_nil]
  have hl' : ([Wire.requestStart, Wire.deviceAddress, Wire.textStart, c] ++ p ++ [Wire.textEnd]).length =
      4 + p.length + 1 := by
    simp only [List.length_append, List.length_cons, List.length_nil]
  rw [hl] at h5
  rw [hl'] at h6 hr
  simp only [List.length_cons, List.length_nil, Nat.zero_add, Nat.reduceAdd] at h4
  simp only [buildReq, startRequest, appendTx, foldChk, txBytes, List.length_cons, List.length_nil, Nat.zero_add, Nat.reduceAdd,
    h4, h5, hr, h6]
  simp [requestBuilt, reqFrame, Wire.requestStart, Wire.deviceAddress, Wire.textStart, Wire.textEnd]
  omega

/-- TXBUF[0 .. TXLEN-1] after BUILD_REQ is the request frame (40_frame_codec R122). -/
@[simp] theorem txBytes_requestBuilt (s : State) (c : Byte) (p : List Byte) :
    txBytes (requestBuilt s c p) = reqFrame c p := by
  have h := Memory.readRange_writeRange s.txbuf 0 (reqFrame c p)
  rw [reqFrame_length] at h
  exact h

/-- PARSE_RESP by its three tests, in their order (40_frame_codec R124, 60_exceptions R223). -/
theorem parseResp_cases (raw : List Byte) (s : State) :
    (BadHeader raw ∧ parseResp raw s = raise .formatError s) ∨
    (¬ BadHeader raw ∧ BadChecksum raw ∧
      parseResp raw s = raise .checksumError (foldChk (raw.take (raw.length - 1)) s)) ∨
    (¬ BadHeader raw ∧ ¬ BadChecksum raw ∧ BadMarkers raw ∧
      parseResp raw s = raise .formatError (foldChk (raw.take (raw.length - 1)) s)) ∨
    (¬ BadHeader raw ∧ ¬ BadChecksum raw ∧ ¬ BadMarkers raw ∧
      parseResp raw s = .ok ((raw.drop 3).take (raw.length - 5))
        (setPaylen (raw.length - 5) (foldChk (raw.take (raw.length - 1)) s))) := by
  by_cases h1 : raw.length < 2
  · left
    exact ⟨.inl h1, by simp [parseResp, h1]⟩
  by_cases h2 : raw[0]? ≠ some Wire.responseStart ∨ raw[1]? ≠ some Wire.deviceAddress
  · left
    exact ⟨.inr h2, by simp only [parseResp, h1, h2, if_true, if_false]⟩
  have hh : ¬ BadHeader raw := fun h => h.elim h1 h2
  right
  by_cases h3 : raw[raw.length - 1]? ≠ some (checksum raw.dropLast)
  · left
    refine ⟨hh, by simpa [BadChecksum, List.dropLast_eq_take] using h3, ?_⟩
    simp only [parseResp, h1, h2, if_false, foldChk_chk, h3, ne_eq, not_false_eq_true, if_true]
    rw [List.dropLast_eq_take]
  have hc : ¬ BadChecksum raw := by simpa [BadChecksum, List.dropLast_eq_take] using h3
  right
  have hlen : raw.dropLast.length = raw.length - 1 := List.length_dropLast
  have hget : ∀ i, i < raw.length - 1 → raw.dropLast[i]? = raw[i]? := fun i hi => by
    rw [List.dropLast_eq_take, List.getElem?_take, if_pos hi]
  have hstep : parseResp raw s = parseMarkers raw.dropLast (foldChk raw.dropLast s) := by
    simp only [parseResp, h1, h2, if_false, foldChk_chk, h3]
  rw [hstep]
  by_cases h4 : raw.length < 4
  · left
    refine ⟨hh, hc, ?_, ?_⟩
    · rcases Nat.lt_or_ge raw.length 3 with h | h
      · exact .inr (.inl (by simp [List.getElem?_eq_none_iff.mpr (show raw.length ≤ 2 by omega)]))
      · exact .inl (by omega)
    · rw [List.dropLast_eq_take, parseMarkers, if_pos (by simp; omega)]
  have e2 := hget 2 (by omega)
  have e3 : raw.dropLast[raw.dropLast.length - 1]? = raw[raw.length - 2]? := by
    rw [hlen, Nat.sub_sub]
    exact hget _ (by omega)
  by_cases h5 : raw[2]? ≠ some Wire.textStart
  · left
    refine ⟨hh, hc, .inr (.inl h5), ?_⟩
    rw [parseMarkers, if_neg (by omega), e2, if_pos h5, List.dropLast_eq_take]
  by_cases h6 : raw[raw.length - 2]? ≠ some Wire.textEnd
  · left
    refine ⟨hh, hc, .inr (.inr h6), ?_⟩
    rw [parseMarkers, if_neg (by omega), e2, if_neg h5, e3, if_pos h6, List.dropLast_eq_take]
  right
  refine ⟨hh, hc, fun h => h.elim (by omega) (fun h => h.elim h5 h6), ?_⟩
  rw [parseMarkers, if_neg (by omega), e2, if_neg h5, e3, if_neg h6]
  rw [hlen, List.dropLast_eq_take, List.dropLast_eq_take, List.drop_take, List.take_take]
  congr 2
  · simp only [List.length_take, List.length_drop]
    omega

/-- PARSE_RESP takes one of four ways, whatever the state. -/
theorem parseResp_verdict (raw : List Byte) :
    (∀ s, parseResp raw s = raise .formatError s) ∨
    (∀ s, parseResp raw s = raise .checksumError (foldChk (raw.take (raw.length - 1)) s)) ∨
    (∀ s, parseResp raw s = raise .formatError (foldChk (raw.take (raw.length - 1)) s)) ∨
    (∀ s, parseResp raw s = .ok ((raw.drop 3).take (raw.length - 5))
      (setPaylen (raw.length - 5) (foldChk (raw.take (raw.length - 1)) s))) := by
  by_cases h1 : BadHeader raw
  · exact .inl fun s => by
      rcases parseResp_cases raw s with x | x | x | x
      exacts [x.2, absurd h1 x.1, absurd h1 x.1, absurd h1 x.1]
  by_cases h2 : BadChecksum raw
  · exact .inr <| .inl fun s => by
      rcases parseResp_cases raw s with x | x | x | x
      exacts [absurd x.1 h1, x.2.2, absurd h2 x.2.1, absurd h2 x.2.1]
  by_cases h3 : BadMarkers raw
  · exact .inr <| .inr <| .inl fun s => by
      rcases parseResp_cases raw s with x | x | x | x
      exacts [absurd x.1 h1, absurd x.2.1 h2, x.2.2.2, absurd h3 x.2.2.1]
  · exact .inr <| .inr <| .inr fun s => by
      rcases parseResp_cases raw s with x | x | x | x
      exacts [absurd x.1 h1, absurd x.2.1 h2, absurd x.2.2.1 h3, x.2.2.2]

end Machine
end Sys2Proof
end

