-- ==== Sys2Proof/Laws/Port.lean ====
section
/-! SUPPORT. What a port transaction takes from the environment's answers and what it leaves. -/

namespace Sys2Proof.Machine

@[simp] theorem nextAnswer_nil {α : Type} (free : Nat → α) (n : Nat) : nextAnswer free [] n = (free n, [], n + 1) := rfl

@[simp] theorem nextAnswer_cons {α : Type} (free : Nat → α) (a : α) (t : List α) (n : Nat) :
    nextAnswer free (a :: t) n = (a, t, n) := rfl

@[simp] theorem capAnswer_ioErr (cap : Nat) (t : List ReadAnswer) : capAnswer cap .ioErr t = (.ioErr, t) := rfl

theorem capAnswer_short {cap : Nat} {b : List Byte} (h : b.length ≤ cap) (t : List ReadAnswer) :
    capAnswer cap (.bytes b) t = (.bytes b, t) := by
  simp [capAnswer, h]

theorem capAnswer_long {cap : Nat} {b : List Byte} (h : cap < b.length) (t : List ReadAnswer) :
    capAnswer cap (.bytes b) t = (.bytes (b.take cap), .bytes (b.drop cap) :: t) := by
  simp [capAnswer, Nat.not_le.mpr h]

/-- A read returns at most the bytes asked for (20_memory R57). -/
theorem capAnswer_length {cap : Nat} {a : ReadAnswer} {t : List ReadAnswer} {b : List Byte}
    (h : (capAnswer cap a t).1 = .bytes b) : b.length ≤ cap := by
  cases a with
  | ioErr => simp [capAnswer] at h
  | bytes d =>
    simp only [capAnswer] at h
    split at h
    · next hle =>
      cases h
      exact hle
    · cases h
      simp

/-- A read returns at most the bytes asked for (20_memory R57). -/
theorem readAnswer_length {cap : Nat} {s : State} {b : List Byte} (h : readAnswer cap s = .bytes b) :
    b.length ≤ cap :=
  capAnswer_length h

/-- What a read takes and leaves when the list gives its answer. -/
theorem readAnswer_of_reads {cap : Nat} {s : State} {a : ReadAnswer} {t : List ReadAnswer} (h : s.reads = a :: t) :
    readAnswer cap s = (capAnswer cap a t).1 ∧ (portRead cap s).reads = (capAnswer cap a t).2 ∧
      (portRead cap s).draws = s.draws := by
  simp [readAnswer, portRead, h]

/-- The state after a read whose answer the list gives within the bytes asked for. -/
theorem portRead_bytes {cap : Nat} {s : State} {b : List Byte} {t : List ReadAnswer} (h : s.reads = .bytes b :: t)
    (hb : b.length ≤ cap) :
    readAnswer cap s = .bytes b ∧
      portRead cap s = { s with reads := t, trace := s.trace ++ [⟨s.phase, .got cap (.bytes b)⟩] } := by
  simp [readAnswer, portRead, h, capAnswer_short hb]

/-- The state after a read whose answer the list gives with more bytes than asked for. -/
theorem portRead_bytes_long {cap : Nat} {s : State} {b : List Byte} {t : List ReadAnswer} (h : s.reads = .bytes b :: t)
    (hb : cap < b.length) :
    readAnswer cap s = .bytes (b.take cap) ∧
      portRead cap s =
        { s with
          reads := .bytes (b.drop cap) :: t
          trace := s.trace ++ [⟨s.phase, .got cap (.bytes (b.take cap))⟩] } := by
  simp [readAnswer, portRead, h, capAnswer_long hb]

/-- The state after a read that answers IoErr from the list. -/
theorem portRead_ioErr {cap : Nat} {s : State} {t : List ReadAnswer} (h : s.reads = .ioErr :: t) :
    readAnswer cap s = .ioErr ∧
      portRead cap s = { s with reads := t, trace := s.trace ++ [⟨s.phase, .got cap .ioErr⟩] } := by
  simp [readAnswer, portRead, h]

/-- The state after a write whose answer the list gives. -/
theorem portWrite_answered {b : List Byte} {s : State} {a : WriteAnswer} {t : List WriteAnswer} (h : s.writes = a :: t) :
    writeAnswer s = a ∧ portWrite b s = { s with writes := t, trace := s.trace ++ [⟨s.phase, .wrote b a⟩] } := by
  simp [writeAnswer, portWrite, h]

/-- The state after an open whose answer the list gives. -/
theorem portOpen_answered {s : State} {a : IoAnswer} {t : List IoAnswer} (h : s.opens = a :: t) :
    openAnswer s = a ∧
      portOpen s = { s with opens := t, trace := s.trace ++ [⟨s.phase, .opened (openCfg s) a⟩] } := by
  simp [openAnswer, portOpen, h]

/-- The state after a close whose answer the list gives. -/
theorem portClose_answered {s : State} {a : IoAnswer} {t : List IoAnswer} (h : s.closes = a :: t) :
    closeAnswer s = a ∧ portClose s = { s with closes := t, trace := s.trace ++ [⟨s.phase, .closed a⟩] } := by
  simp [closeAnswer, portClose, h]

theorem sentBytes_append (a b : List Event) : sentBytes (a ++ b) = sentBytes a ++ sentBytes b := by
  induction a with
  | nil => rfl
  | cons e t ih => simp only [List.cons_append, sentBytes, ih]; split <;> simp

theorem receivedBytes_append (a b : List Event) : receivedBytes (a ++ b) = receivedBytes a ++ receivedBytes b := by
  induction a with
  | nil => rfl
  | cons e t ih => simp only [List.cons_append, receivedBytes, ih]; split <;> simp

end Sys2Proof.Machine
end

