-- ==== Sys2Proof/Laws/Engine.lean ====
section
/-! SUPPORT. How operations are put together: what a bind, a raise, the connection check and an invocation answer; every
meaning as an invocation of one body; and the induction over the engine: a preorder on states that every part an operation
runs respects is respected by the operation. Invariants, frames and whole-machine rules are instances of it. -/

namespace Sys2Proof.Machine

/-! ### Sequencing -/

@[simp] theorem Res.bind_ok {α β : Type} (v : α) (s : State) (f : α → State → Res β) : (Res.ok v s).bind f = f v s := rfl

@[simp] theorem Res.bind_fail {α β : Type} (k : ErrKind) (s : State) (f : α → State → Res β) :
    (Res.fail k s : Res α).bind f = .fail k s := rfl

@[simp] theorem Res.state_ok {α : Type} (v : α) (s : State) : (Res.ok v s).state = s := rfl

@[simp] theorem Res.state_fail {α : Type} (k : ErrKind) (s : State) : (Res.fail k s : Res α).state = s := rfl

@[simp] theorem Res.bind_raise {α β : Type} (k : ErrKind) (s : State) (f : α → State → Res β) :
    (raise k s : Res α).bind f = raise k s := rfl

/-- A sequence ends Ok only through an Ok of its first part. -/
theorem Res.bind_eq_ok {α β : Type} {r : Res α} {f : α → State → Res β} {v : β} {s : State} (h : r.bind f = .ok v s) :
    ∃ a s', r = .ok a s' ∧ f a s' = .ok v s := by
  cases r with
  | ok a s' => exact ⟨a, s', rfl, h⟩
  | fail k s' => cases h

/-- A sequence fails in its first part, or in its second after an Ok of the first. -/
theorem Res.bind_eq_fail {α β : Type} {r : Res α} {f : α → State → Res β} {k : ErrKind} {s : State}
    (h : r.bind f = .fail k s) : r = .fail k s ∨ ∃ a s', r = .ok a s' ∧ f a s' = .fail k s := by
  cases r with
  | ok a s' => exact .inr ⟨a, s', rfl, h⟩
  | fail k' s' =>
    cases h
    exact .inl rfl

@[simp] theorem Res.give_ok {α : Type} (v : α) (s : State) (f : α → Value) : (Res.ok v s).give f = .ok (f v) s := rfl

@[simp] theorem Res.give_fail {α : Type} (k : ErrKind) (s : State) (f : α → Value) :
    (Res.fail k s : Res α).give f = .fail k s := rfl

@[simp] theorem Res.give_state {α : Type} (r : Res α) (f : α → Value) : (r.give f).state = r.state := by
  cases r <;> rfl

@[simp] theorem Res.give_raise {α : Type} (k : ErrKind) (s : State) (f : α → Value) :
    (raise k s : Res α).give f = raise k s := rfl

theorem needOpen_open {α : Type} {s : State} (h : s.connOpen = true) (f : State → Res α) : needOpen s f = f s := by
  simp [needOpen, h]

theorem needOpen_closed {α : Type} {s : State} (h : s.connOpen = false) (f : State → Res α) :
    needOpen s f = raise .connectionClosed s := by
  simp [needOpen, h]

/-! ### Invocation -/

/-- What an invocation answers: a next state exactly when the engine is not busy and nothing refuses it. -/
theorem invoke_eq_next {refusal : Option Refusal} {body : State → Res Value} {s t : State} :
    invoke refusal body s = .next t ↔ s.busy = false ∧ refusal = none ∧ t = deliver (body (beginOp s)) := by
  unfold invoke
  cases s.busy <;> cases refusal <;> simp [eq_comm]

/-- An invocation the engine accepts. -/
theorem invoke_next {body : State → Res Value} {s : State} (h : s.busy = false) :
    invoke none body s = .next (deliver (body (beginOp s))) :=
  invoke_eq_next.mpr ⟨h, rfl, rfl⟩

theorem deliver_ok (v : Value) (s : State) : deliver (.ok v s) = { s with busy := false, result := some (.ok v) } := rfl

theorem deliver_fail (k : ErrKind) (s : State) :
    deliver (.fail k s) = { s with busy := false, result := some (.fail k) } := rfl

/-! ### Every meaning is an invocation of one body -/

/-- What refuses an operation beside BUSY (93_implementation_defined U11, U12). -/
def refusalOf (i : Instr) (s : State) : Option Refusal :=
  match i with
  | .connOpen _ _ _ => if s.connOpen then some .alreadyOpen else none
  | .buildReq _ p | .sendReq _ p | .command _ p => refusePayload s p
  | .encNum v => refuseNum v
  | .encItem k => refuseItem k
  | .status a | .purge a | .testDispense a | .reset a | .lastStatus a | .configStatus a | .ddDiag a | .sensorDiag a
  | .snDispense a | .snEject a | .testMode a =>
    firstRefusal (refuseNums a) (refusePayload s (numPayload a))
  | .dispense n => firstRefusal (refuseNums [n]) (refusePayload s (numPayload [n]))
  | .readParam k => firstRefusal (refuseItem k) (refusePayload s (readParamPayload k))
  | .writeParam k v => firstRefusal (refuseItem k) (refusePayload s (writeParamPayload k v))
  | _ => none

/-- The body of a command with its code and payload: what COMMAND does, and what the command adds to its record. -/
def commandBody (i : Instr) (c : Byte) (p : List Byte) (s : State) : Res Value :=
  (command c p s).bind fun rec s =>
    match i with
    | .status _ => .ok (.reply { rec with status := some (decodeStatus s.params rec.payload) }) s
    | .readParam _ | .writeParam _ _ =>
      (checkParamAck rec.payload s).bind fun _ s => .ok (.reply { rec with text := some (rec.payload.drop 1) }) s
    | _ => .ok (.reply rec) s

/-- The body of every operation. -/
def bodyOf (i : Instr) (s : State) : Res Value :=
  match i with
  | .checksum b => .ok (.byte (foldChk b s).chk) (foldChk b s)
  | .buildReq c p => .ok (.bytes (txBytes (buildReq c p s))) (buildReq c p s)
  | .parseResp raw => (parseResp raw s).give .bytes
  | .connOpen path baud log => (connOpenBody path baud log s).give fun _ => .unit
  | .connClose => (connCloseBody s).give fun _ => .unit
  | .sendReq c p => (sendReq c p s).give fun _ => .unit
  | .readCode => (readCode s).give .codeClass
  | .readData => (readData s).give .bytes
  | .emitAck | .ackEmit => (emitAck s).give fun _ => .unit
  | .respCycle => (respCycle s).give .bytes
  | .encNum v => .ok (.byte (numByte v)) s
  | .decNum b => .ok (.num (decNum s.params b)) s
  | .encItem k => .ok (.bytes (itemText k)) s
  | .decodeReply q => .ok (.reply (decodeReply s.params q)) s
  | .decodeStatus q => .ok (.status (decodeStatus s.params q)) s
  | .ack => (readCode (arriving [Wire.ack] s)).give .codeClass
  | .nack => (readCode (arriving [Wire.nack] s)).give .codeClass
  | .eot => (readCode (arriving [Wire.eot] s)).give .codeClass
  | .unrecognized b => (readCode (arriving [b] s)).give .codeClass
  | .rspFrame p => (readData (arriving (rspFrame p) s)).give .bytes
  | i =>
    match requestOf i with
    | some (c, p) => commandBody i c p s
    | none => .ok .unit s

/-- Every arm of `exec` is an invocation of its body. -/
theorem exec_eq_invoke (i : Instr) (s : State) : exec i s = invoke (refusalOf i s) (bodyOf i) s := by
  cases i <;> rfl

/-- What an operation answers, as its body's result delivered. -/
theorem exec_eq_next {i : Instr} {s t : State} :
    exec i s = .next t ↔ s.busy = false ∧ refusalOf i s = none ∧ t = deliver (bodyOf i (beginOp s)) := by
  rw [exec_eq_invoke, invoke_eq_next]

/-- An operation that nothing refuses ends in the delivery of its body's result. -/
theorem exec_next {i : Instr} {s : State} (hb : s.busy = false) (hr : refusalOf i s = none) :
    exec i s = .next (deliver (bodyOf i (beginOp s))) :=
  exec_eq_next.mpr ⟨hb, hr, rfl⟩

/-- An operation that something refuses beside BUSY. -/
theorem exec_refused {i : Instr} {s : State} {r : Refusal} (hb : s.busy = false) (hr : refusalOf i s = some r) :
    exec i s = .refused r := by
  simp [exec_eq_invoke, invoke, hb, hr]

/-- All that a step which answers a next state can have done: wait, take a reset, or run an operation on what is left of
the inbox, bytes that are no frame having joined the receive stream. -/
theorem step_cases {s t : State} (h : step s = .next t) :
    (s.inbox = [] ∧ t = s) ∨
    (∃ rest, s.inbox = .engineReset :: rest ∧ t = resetEngine { s with inbox := rest }) ∨
    ∃ it rest i u, s.inbox = .item it :: rest ∧ exec i u = .next t ∧
      (u = { s with inbox := rest } ∨ ∃ f, it = .rsp f ∧ u = arriving f { s with inbox := rest }) := by
  unfold step fetch at h
  rcases hs : s.inbox with _ | ⟨it | _, rest⟩ <;> simp only [hs] at h
  · exact .inl ⟨rfl, by cases h; rfl⟩
  · rcases hd : decode it with _ | i <;> rw [hd] at h
    · unfold runUnlisted at h
      cases it with
      | rsp f => exact .inr (.inr ⟨_, rest, .readData, _, rfl, h, .inr ⟨f, rfl, rfl⟩⟩)
      | req f =>
        simp only at h
        split at h
        · exact .inr (.inr ⟨_, rest, .sendReq _ _, _, rfl, h, .inl rfl⟩)
        · cases h
      | _ => cases h
    · exact .inr (.inr ⟨it, rest, i, _, rfl, h, .inl rfl⟩)
  · exact .inr (.inl ⟨_, rfl, by cases h; rfl⟩)

/-- The body of a command. -/
theorem bodyOf_command {i : Instr} {c : Byte} {p : List Byte} (hi : runsCycle i = true)
    (hq : requestOf i = some (c, p)) (s : State) : bodyOf i s = commandBody i c p s := by
  cases i <;> first | exact absurd hi Bool.false_ne_true | cases hq <;> rfl

/-! ### What is refused -/

theorem refusePayload_eq_none {s : State} {p : List Byte} :
    refusePayload s p = none ↔ p.length ≤ s.params.maxReqPayload := by
  simp [refusePayload]

theorem refuseNum_eq_none {v : Nat} : refuseNum v = none ↔ v ≤ 0xDF := by
  simp [refuseNum, numInDomain]

theorem refuseItem_eq_none {k : Nat} : refuseItem k = none ↔ k ≤ 999 := by
  simp [refuseItem, itemInDomain]

theorem refuseNums_eq_none {a : List Nat} : refuseNums a = none ↔ ∀ v ∈ a, v ≤ 0xDF := by
  induction a with
  | nil => simp [refuseNums]
  | cons v t ih =>
    by_cases h : v ≤ 0xDF <;> simp [refuseNums, numInDomain, h, ih]

/-- The first number above 0xDF is the one named. -/
theorem refuseNums_append {a t : List Nat} {v : Nat} (ha : ∀ n ∈ a, n ≤ 0xDF) (hv : 0xDF < v) :
    refuseNums (a ++ v :: t) = some (.numberOutOfDomain v) := by
  induction a with
  | nil => simp [refuseNums, numInDomain]; omega
  | cons n a ih =>
    have hn := ha n (by simp)
    simpa [refuseNums, numInDomain, hn] using ih fun n h => ha n (by simp [h])

theorem firstRefusal_eq_none {a b : Option Refusal} : firstRefusal a b = none ↔ a = none ∧ b = none := by
  cases a <;> simp [firstRefusal]

/-- A well-formed operation whose request fits is refused only as a second CONN_OPEN. -/
theorem refusalOf_eq_none {i : Instr} {s : State} (hw : i.wellFormed = true) (hf : requestFits i s)
    (ho : isOpenOp i = true → s.connOpen = false) : refusalOf i s = none := by
  cases i
  all_goals
    first
    | rfl
    | (simpa [refusalOf, refusePayload_eq_none] using hf _ _ rfl)
    | (have hf' := hf _ _ rfl
       simp only [refusalOf, firstRefusal_eq_none, refuseNums_eq_none, refuseItem_eq_none, refusePayload_eq_none]
       refine ⟨?_, hf'⟩
       simpa [Instr.wellFormed, numInDomain, itemInDomain] using hw)
    | (simpa [refusalOf, refuseNum_eq_none, refuseItem_eq_none, Instr.wellFormed, numInDomain, itemInDomain] using hw)
    | (have := ho rfl; simp [refusalOf, this])

/-- A request that is not refused fits. -/
theorem requestFits_of_refusalOf {i : Instr} {s : State} (h : refusalOf i s = none) : requestFits i s := by
  intro c p hr
  cases i <;> simp only [requestOf, Option.some.injEq, Prod.mk.injEq, reduceCtorEq] at hr <;>
    obtain ⟨rfl, rfl⟩ := hr <;> simp only [refusalOf, firstRefusal_eq_none, refusePayload_eq_none] at h
  all_goals first | exact h | exact h.2

/-! ### How a body ends -/

/-- Ok leaves ERR as it was, a failure shows in ERR and PHASE (60_exceptions R226). -/
def Res.Ends {α : Type} (s : State) (r : Res α) : Prop :=
  match r with
  | .ok _ t => t.err = s.err
  | .fail k t => t.err = some k ∧ t.phase = .failed

theorem Res.ends_raise {α : Type} (s : State) (k : ErrKind) (t : State) : Res.Ends s (raise k t : Res α) := ⟨rfl, rfl⟩

theorem Res.Ends.of_err {α : Type} {s s' : State} {r : Res α} (h : Res.Ends s' r) (he : s'.err = s.err) :
    Res.Ends s r := by
  cases r with
  | ok v t => exact Eq.trans h he
  | fail k t => exact h

theorem Res.Ends.bind {α β : Type} {s : State} {r : Res α} {f : α → State → Res β} (h : Res.Ends s r)
    (hf : ∀ v t, Res.Ends t (f v t)) : Res.Ends s (r.bind f) := by
  cases r with
  | ok v t => exact (hf v t).of_err h
  | fail k t => exact h

theorem Res.Ends.give {α : Type} {s : State} {r : Res α} (h : Res.Ends s r) (f : α → Value) : Res.Ends s (r.give f) :=
  h.bind fun _ _ => rfl

theorem needOpen_ends {α : Type} {s : State} {f : State → Res α} (h : Res.Ends s (f s)) :
    Res.Ends s (needOpen s f) := by
  unfold needOpen
  split
  · exact h
  · exact Res.ends_raise _ _ _

theorem parseResp_ends (raw : List Byte) (s : State) : Res.Ends s (parseResp raw s) := by
  rcases parseResp_cases raw s with h | h | h | h
  · rw [h.2]; exact Res.ends_raise _ _ _
  · rw [h.2.2]; exact Res.ends_raise _ _ _
  · rw [h.2.2.2]; exact Res.ends_raise _ _ _
  · rw [h.2.2.2]; exact rfl

theorem sendReq_ends (c : Byte) (p : List Byte) (s : State) : Res.Ends s (sendReq c p s) := by
  refine needOpen_ends ?_
  simp only [buildReq_eq]
  split
  · exact Res.ends_raise _ _ _
  · exact rfl

theorem readCodeLoop_ends (n : Nat) (s : State) : Res.Ends s (readCodeLoop n s) := by
  induction n generalizing s with
  | zero => exact Res.ends_raise _ _ _
  | succ n ih =>
    unfold readCodeLoop
    dsimp only
    split
    · exact Res.ends_raise _ _ _
    · exact (ih _).of_err rfl
    · exact rfl

theorem readCode_ends (s : State) : Res.Ends s (readCode s) := needOpen_ends ((readCodeLoop_ends _ _).of_err rfl)

theorem readDataLoop_ends (n : Nat) (s : State) : Res.Ends s (readDataLoop n s) := by
  induction n generalizing s with
  | zero => exact Res.ends_raise _ _ _
  | succ n ih =>
    unfold readDataLoop
    dsimp only
    split
    · exact Res.ends_raise _ _ _
    · split
      · exact (parseResp_ends _ _).of_err (by simp)
      · exact (ih _).of_err (by simp)

theorem readData_ends (s : State) : Res.Ends s (readData s) := needOpen_ends ((readDataLoop_ends _ _).of_err rfl)

theorem emitAck_ends (s : State) : Res.Ends s (emitAck s) := needOpen_ends (by simp [Res.Ends])

theorem respCycle_ends (s : State) : Res.Ends s (respCycle s) := by
  refine needOpen_ends ?_
  refine ((readCode_ends _).of_err rfl).bind fun c1 s1 => ?_
  split
  · exact Res.ends_raise _ _ _
  refine ((readData_ends _).of_err rfl).bind fun p s2 => (emitAck_ends s2).bind fun _ s3 => ?_
  refine ((readCode_ends _).of_err rfl).bind fun c2 s4 => ?_
  split
  · exact Res.ends_raise _ _ _
  · exact rfl

theorem command_ends (c : Byte) (p : List Byte) (s : State) : Res.Ends s (command c p s) :=
  ((sendReq_ends c p _).of_err rfl).bind fun _ s1 => (respCycle_ends s1).bind fun _ _ => rfl

theorem checkParamAck_ends (q : List Byte) (s : State) : Res.Ends s (checkParamAck q s) := by
  unfold checkParamAck
  split
  · exact rfl
  · exact Res.ends_raise _ _ _

theorem commandBody_ends (i : Instr) (c : Byte) (p : List Byte) (s : State) : Res.Ends s (commandBody i c p s) := by
  refine (command_ends c p s).bind fun rec t => ?_
  split
  · exact rfl
  · exact (checkParamAck_ends _ _).bind fun _ _ => rfl
  · exact (checkParamAck_ends _ _).bind fun _ _ => rfl
  · exact rfl

/-- How every operation's body ends. -/
theorem bodyOf_ends (i : Instr) (s : State) : Res.Ends s (bodyOf i s) := by
  cases i
  case checksum | encNum | decNum | encItem | decodeReply | decodeStatus => exact rfl
  case buildReq => simp [bodyOf, buildReq_eq, Res.Ends, requestBuilt]
  case parseResp => exact (parseResp_ends _ _).give _
  case connOpen =>
    refine Res.Ends.give ?_ _
    unfold connOpenBody
    dsimp only
    split
    · exact Res.ends_raise _ _ _
    · exact rfl
  case connClose =>
    refine Res.Ends.give (needOpen_ends ?_) _
    split
    · exact Res.ends_raise _ _ _
    · exact rfl
  case sendReq => exact (sendReq_ends _ _ _).give _
  case readCode => exact (readCode_ends _).give _
  case readData => exact (readData_ends _).give _
  case emitAck | ackEmit => exact (emitAck_ends _).give _
  case respCycle => exact (respCycle_ends _).give _
  case ack | nack | eot | unrecognized => exact ((readCode_ends _).of_err rfl).give _
  case rspFrame => exact ((readData_ends _).of_err rfl).give _
  all_goals (rw [bodyOf_command rfl rfl]; exact commandBody_ends _ _ _ _)

/-! ### The induction over the engine, by stages -/

/-- A preorder on states that every stage the operation `i` runs respects: what fails, PHASE, the checksum, the payload
length, the request, the tap, the writes, the two read loops as wholes, what a wire item brings, and opening and
closing. -/
structure Stages (i : Instr) (R : State → State → Prop) : Prop where
  refl : ∀ s, R s s
  trans : ∀ {a b c}, R a b → R b c → R a c
  raising : ∀ k s, mayFail i k = true → R s (enterFailed k s)
  phase : ∀ p s, writesPhase i = true → R s (setPhase p s)
  chk : ∀ b s, runsChecksum i = true → R s (foldChk b s)
  paylen : ∀ n s, runsParse i = true → R s (setPaylen n s)
  request : ∀ c p s, requestOf i = some (c, p) → p.length ≤ s.params.maxReqPayload → R s (requestBuilt s c p)
  logTap : ∀ d b s, R s (logTap d b s)
  noteAck : ∀ a s, runsEmitAck i = true → R s (noteAckWrite a s)
  writeRequest : ∀ c p s, s.connOpen = true → requestOf i = some (c, p) → R s (portWrite (reqFrame c p) s)
  writeAck : ∀ s, s.connOpen = true → runsEmitAck i = true → R s (portWrite [Wire.ack] s)
  code : ∀ s, s.connOpen = true → runsReadCode i = true →
    R s (readCodeLoop s.params.maxReadAttempts (startCode s)).state
  data : ∀ s, s.connOpen = true → runsReadData i = true →
    R s (readDataLoop s.params.maxReadAttempts (startData s)).state
  arrive : ∀ s, arrivals i ≠ [] → R s (arriving (arrivals i) s)
  opening : ∀ path baud log s, i = .connOpen path baud log → s.connOpen = false →
    R s (connOpenBody path baud log s).state
  closing : ∀ s, i = .connClose → s.connOpen = true → R s (disconnect (portClose s))

section
variable {i : Instr} {R : State → State → Prop}

theorem Stages.raised (h : Stages i R) {α : Type} {k : ErrKind} (hk : mayFail i k = true) (s : State) :
    R s (raise k s : Res α).state :=
  h.raising k s hk

theorem Stages.bind (h : Stages i R) {α β : Type} {s : State} {r : Res α} {f : α → State → Res β}
    (hr : R s r.state) (hf : ∀ v s', r = .ok v s' → R s' (f v s').state) : R s (r.bind f).state := by
  cases r with
  | ok v s' => exact h.trans hr (hf v s' rfl)
  | fail k s' => exact hr

theorem Stages.needOpen (h : Stages i R) {α : Type} (hk : mayFail i .connectionClosed = true) {s : State}
    {f : State → Res α} (hf : s.connOpen = true → R s (f s).state) : R s (needOpen s f).state := by
  unfold Machine.needOpen
  split
  · exact hf ‹_›
  · exact h.raised hk _

theorem runsCycle_parts {i : Instr} (h : runsCycle i = true) :
    runsReadCode i = true ∧ runsReadData i = true ∧ runsParse i = true ∧ runsChecksum i = true ∧
      runsEmitAck i = true ∧ writesPhase i = true ∧ ∀ k, cycleKind k = true → mayFail i k = true := by
  cases i <;> first | exact absurd h Bool.false_ne_true | exact ⟨rfl, rfl, rfl, rfl, rfl, rfl, fun k hk => by first | exact hk | rfl⟩

theorem Stages.parseResp (h : Stages i R) (hp : runsParse i = true) (hf : mayFail i .formatError = true)
    (hc : mayFail i .checksumError = true) (hx : runsChecksum i = true) (raw : List Byte) (s : State) :
    R s (parseResp raw s).state := by
  rcases parseResp_cases raw s with e | e | e | e
  · rw [e.2]; exact h.raised hf _
  · rw [e.2.2]; exact h.trans (h.chk _ _ hx) (h.raised hc _)
  · rw [e.2.2.2]; exact h.trans (h.chk _ _ hx) (h.raised hf _)
  · rw [e.2.2.2]; exact h.trans (h.chk _ _ hx) (h.paylen _ _ hp)

theorem Stages.sendReq (h : Stages i R) {c : Byte} {p : List Byte} (hq : requestOf i = some (c, p))
    (hw : writesPhase i = true) (hi : mayFail i .ioError = true) (hc : mayFail i .connectionClosed = true)
    {s : State} (hl : p.length ≤ s.params.maxReqPayload) : R s (sendReq c p s).state := by
  refine h.needOpen hc fun ho => ?_
  simp only [buildReq_eq, txBytes_requestBuilt]
  have e : txBytes (Machine.logTap .tx (reqFrame c p) (requestBuilt s c p)) = reqFrame c p := txBytes_requestBuilt s c p
  rw [e]
  have h1 := h.trans (h.request c p s hq hl) (h.logTap .tx (reqFrame c p) _)
  have h2 := h.trans h1 (h.writeRequest c p _ ho hq)
  split
  · exact h.trans h2 (h.raised hi _)
  · exact h.trans h2 (h.phase _ _ hw)

theorem Stages.readCode (h : Stages i R) (hc : runsReadCode i = true) (hk : mayFail i .connectionClosed = true)
    (s : State) : R s (readCode s).state :=
  h.needOpen hk fun ho => h.code s ho hc

theorem Stages.readData (h : Stages i R) (hd : runsReadData i = true) (hk : mayFail i .connectionClosed = true)
    (s : State) : R s (readData s).state :=
  h.needOpen hk fun ho => h.data s ho hd

theorem Stages.emitAck (h : Stages i R) (ha : runsEmitAck i = true) (hk : mayFail i .connectionClosed = true)
    (s : State) : R s (emitAck s).state :=
  h.needOpen hk fun ho => h.trans (h.logTap _ _ _) (h.trans (h.writeAck _ ho ha) (h.noteAck _ _ ha))

theorem Stages.respCycle (h : Stages i R) (hi : runsCycle i = true) (s : State) : R s (respCycle s).state := by
  obtain ⟨hc, hd, -, -, ha, hw, hk⟩ := runsCycle_parts hi
  refine h.needOpen (hk _ rfl) fun _ => ?_
  refine h.trans (h.phase .awaitingAck s hw) (h.bind (h.readCode hc (hk _ rfl) _) fun c1 s1 _ => ?_)
  split
  · exact h.raised (hk _ rfl) _
  refine h.trans (h.phase .awaitingData s1 hw) (h.bind (h.readData hd (hk _ rfl) _) fun p s2 _ => ?_)
  refine h.bind (h.emitAck ha (hk _ rfl) _) fun _ s3 _ => ?_
  refine h.trans (h.phase .awaitingEot s3 hw) (h.bind (h.readCode hc (hk _ rfl) _) fun c2 s4 _ => ?_)
  split
  · exact h.raised (hk _ rfl) _
  · exact h.phase _ _ hw

theorem Stages.command (h : Stages i R) (hi : runsCycle i = true) {c : Byte} {p : List Byte}
    (hq : requestOf i = some (c, p)) {s : State} (hl : p.length ≤ s.params.maxReqPayload) :
    R s (command c p s).state := by
  obtain ⟨-, -, -, -, -, hw, hk⟩ := runsCycle_parts hi
  exact h.trans (h.phase .idle s hw) <| h.bind (h.sendReq hq hw (hk _ rfl) (hk _ rfl) hl) fun _ _ _ =>
    h.bind (h.respCycle hi _) fun _ s2 _ => h.refl s2

theorem Stages.commandBody (h : Stages i R) (hi : runsCycle i = true) {c : Byte} {p : List Byte}
    (hq : requestOf i = some (c, p)) {s : State} (hl : p.length ≤ s.params.maxReqPayload) :
    R s (commandBody i c p s).state := by
  refine h.bind (h.command hi hq hl) fun rec t _ => ?_
  have hcheck : mayFail i .illegalCommand = true → R t (checkParamAck rec.payload t).state := fun hk => by
    unfold Machine.checkParamAck
    split
    · exact h.refl t
    · exact h.raised hk _
  cases i
  case readParam | writeParam => exact h.bind (hcheck rfl) fun _ _ _ => h.refl _
  all_goals exact h.refl t

/-- The induction: what every stage of an operation respects, its body respects. -/
theorem Stages.body (h : Stages i R) {s : State} (hr : refusalOf i s = none) : R s (bodyOf i s).state := by
  have hl : requestFits i s := requestFits_of_refusalOf hr
  cases i
  case checksum => exact h.chk _ _ rfl
  case buildReq c p =>
    show R s (buildReq c p s)
    rw [buildReq_eq]
    exact h.request c p s rfl (hl _ _ rfl)
  case parseResp => exact (Res.give_state _ _).symm ▸ h.parseResp rfl rfl rfl rfl _ _
  case connOpen path baud log =>
    refine (Res.give_state _ _).symm ▸ h.opening path baud log s rfl ?_
    cases ho : s.connOpen
    · rfl
    · simp [refusalOf, ho] at hr
  case connClose =>
    refine (Res.give_state _ _).symm ▸ h.needOpen rfl fun ho => ?_
    split
    · exact h.trans (h.closing s rfl ho) (h.raised rfl _)
    · exact h.closing s rfl ho
  case sendReq => exact (Res.give_state _ _).symm ▸ h.sendReq rfl rfl rfl rfl (hl _ _ rfl)
  case readCode => exact (Res.give_state _ _).symm ▸ h.readCode rfl rfl s
  case readData => exact (Res.give_state _ _).symm ▸ h.readData rfl rfl s
  case emitAck | ackEmit => exact (Res.give_state _ _).symm ▸ h.emitAck rfl rfl s
  case respCycle => exact (Res.give_state _ _).symm ▸ h.respCycle rfl s
  case encNum | decNum | encItem | decodeReply | decodeStatus => exact h.refl s
  case ack | nack | eot | unrecognized =>
    exact (Res.give_state _ _).symm ▸ h.trans (h.arrive s (by simp [arrivals])) (h.readCode rfl rfl _)
  case rspFrame =>
    exact (Res.give_state _ _).symm ▸ h.trans (h.arrive s (by simp [arrivals, rspFrame])) (h.readData rfl rfl _)
  all_goals (rw [bodyOf_command rfl rfl]; exact h.commandBody rfl rfl (hl _ _ rfl))

/-- The induction, on an operation that answers a next state. -/
theorem Stages.exec (h : Stages i R) {s t : State} (e : exec i s = .next t) :
    ∃ r : Res Value, R (beginOp s) r.state ∧ Res.Ends (beginOp s) r ∧ t = deliver r := by
  obtain ⟨-, hr, ht⟩ := exec_eq_next.mp e
  exact ⟨_, h.body (s := beginOp s) hr, bodyOf_ends i (beginOp s), ht⟩

end

/-! ### The induction over the engine, by primitive actions -/

/-- A preorder on states that every primitive action of the operation `i` respects. -/
structure Prims (i : Instr) (R : State → State → Prop) : Prop where
  refl : ∀ s, R s s
  trans : ∀ {a b c}, R a b → R b c → R a c
  raising : ∀ k s, mayFail i k = true → R s (enterFailed k s)
  phase : ∀ p s, writesPhase i = true → R s (setPhase p s)
  chk : ∀ b s, runsChecksum i = true → R s (foldChk b s)
  paylen : ∀ n s, runsParse i = true → R s (setPaylen n s)
  request : ∀ c p s, requestOf i = some (c, p) → p.length ≤ s.params.maxReqPayload → R s (requestBuilt s c p)
  logTap : ∀ d b s, R s (logTap d b s)
  noteAck : ∀ a s, runsEmitAck i = true → R s (noteAckWrite a s)
  writeRequest : ∀ c p s, s.connOpen = true → requestOf i = some (c, p) → R s (portWrite (reqFrame c p) s)
  writeAck : ∀ s, s.connOpen = true → runsEmitAck i = true → R s (portWrite [Wire.ack] s)
  startCode : ∀ s, runsReadCode i = true → R s (startCode s)
  latch : ∀ b s, runsReadCode i = true → R s (latchCode b s)
  startData : ∀ s, runsReadData i = true → R s (startData s)
  appendRx : ∀ b s, runsReadData i = true → R s (appendRx b s)
  attempt : ∀ s, runsReadCode i = true ∨ runsReadData i = true → R s (countAttempt s)
  read : ∀ cap s, s.connOpen = true → runsReadCode i = true ∨ runsReadData i = true → R s (portRead cap s)
  arrive : ∀ s, arrivals i ≠ [] → R s (arriving (arrivals i) s)
  opening : ∀ path baud log s, i = .connOpen path baud log → s.connOpen = false →
    R s (connOpenBody path baud log s).state
  closing : ∀ s, i = .connClose → s.connOpen = true → R s (disconnect (portClose s))

theorem runsReadCode_fails {i : Instr} (h : runsReadCode i = true) :
    mayFail i .ioError = true ∧ mayFail i .retryExhausted = true := by
  cases i <;> first | exact absurd h Bool.false_ne_true | exact ⟨rfl, rfl⟩

theorem runsReadData_fails {i : Instr} (h : runsReadData i = true) :
    mayFail i .ioError = true ∧ mayFail i .retryExhausted = true ∧ mayFail i .formatError = true ∧
      mayFail i .checksumError = true ∧ runsParse i = true ∧ runsChecksum i = true := by
  cases i <;> first | exact absurd h Bool.false_ne_true | exact ⟨rfl, rfl, rfl, rfl, rfl, rfl⟩

section
variable {i : Instr} {R : State → State → Prop}

theorem Prims.readCodeLoop (h : Prims i R) (hc : runsReadCode i = true) (n : Nat) (s : State)
    (ho : s.connOpen = true) : R s (readCodeLoop n s).state := by
  obtain ⟨hi, hx⟩ := runsReadCode_fails hc
  induction n generalizing s with
  | zero => exact h.raising _ _ hx
  | succ n ih =>
    unfold Machine.readCodeLoop
    have h1 := h.trans (h.attempt s (.inl hc)) (h.read codeReadCap (countAttempt s) ho (.inl hc))
    dsimp only
    split
    · exact h.trans h1 (h.raising _ _ hi)
    · exact h.trans h1 (ih _ ho)
    · exact h.trans h1 (h.trans (h.logTap _ _ _) (h.latch _ _ hc))

theorem Prims.readDataLoop (h : Prims i R) (hd : runsReadData i = true) (n : Nat) (s : State)
    (ho : s.connOpen = true) : R s (readDataLoop n s).state := by
  obtain ⟨hi, hx, hf, hk, hp, hs⟩ := runsReadData_fails hd
  induction n generalizing s with
  | zero => exact h.raising _ _ hx
  | succ n ih =>
    unfold Machine.readDataLoop
    have h1 := h.trans (h.attempt s (.inr hd)) (h.read s.params.dataReadCap (countAttempt s) ho (.inr hd))
    dsimp only
    split
    · exact h.trans h1 (h.raising _ _ hi)
    · next b _ =>
      have hl : ∀ t, R t (logRead b t) := fun t => by
        unfold Machine.logRead
        split
        · exact h.refl t
        · exact h.logTap _ _ _
      have h2 := h.trans h1 (h.trans (hl _) (h.appendRx b _ hd))
      split
      · refine h.trans h2 ?_
        rcases parseResp_cases _ _ with e | e | e | e
        · rw [e.2]; exact h.raising _ _ hf
        · rw [e.2.2]; exact h.trans (h.chk _ _ hs) (h.raising _ _ hk)
        · rw [e.2.2.2]; exact h.trans (h.chk _ _ hs) (h.raising _ _ hf)
        · rw [e.2.2.2]; exact h.trans (h.chk _ _ hs) (h.paylen _ _ hp)
      · exact h.trans h2 (ih _ (by simpa using ho))

/-- What the primitive actions respect, the stages respect. -/
theorem Prims.stages (h : Prims i R) : Stages i R where
  refl := h.refl
  trans := h.trans
  raising := h.raising
  phase := h.phase
  chk := h.chk
  paylen := h.paylen
  request := h.request
  logTap := h.logTap
  noteAck := h.noteAck
  writeRequest := h.writeRequest
  writeAck := h.writeAck
  code s ho hc := h.trans (h.startCode s hc) (h.readCodeLoop hc _ _ ho)
  data s ho hd := h.trans (h.startData s hd) (h.readDataLoop hd _ _ ho)
  arrive := h.arrive
  opening := h.opening
  closing := h.closing

theorem Prims.exec (h : Prims i R) {s t : State} (e : exec i s = .next t) :
    ∃ r : Res Value, R (beginOp s) r.state ∧ Res.Ends (beginOp s) r ∧ t = deliver r :=
  h.stages.exec e

end
end Sys2Proof.Machine
end

