-- ==== Sys2Proof/Laws/Loops.lean ====
section
/-! SUPPORT. What the shared operations of the Handshake Engine do: a request sent, a code byte read, a data frame
accumulated, an acknowledgment written, a whole cycle; and the bounds the read loops keep. -/

namespace Sys2Proof.Machine

/-! ### Frames received -/

/-- PARSE_RESP on a well-formed frame (40_frame_codec R126). -/
theorem parseResp_wellFormed {raw : List Byte} (h : WellFormedRsp raw) (s : State) :
    parseResp raw s = .ok ((raw.drop 3).take (raw.length - 5))
      (setPaylen (raw.length - 5) (foldChk (raw.take (raw.length - 1)) s)) := by
  obtain ⟨hl, h0, h1, h2, h3, h4⟩ := h
  have nh : ¬ BadHeader raw := by rintro (h | h | h) <;> [omega; exact h h0; exact h h1]
  have nc : ¬ BadChecksum raw := fun h => h h4
  have nm : ¬ BadMarkers raw := by rintro (h | h | h) <;> [omega; exact h h2; exact h h3]
  rcases parseResp_cases raw s with h | h | h | h
  · exact absurd h.1 nh
  · exact absurd h.2.1 nc
  · exact absurd h.2.2.1 nm
  · exact h.2.2.2

/-- PARSE_RESP ends Ok only on a well-formed frame, with its payload (40_frame_codec R126). -/
theorem parseResp_eq_ok {raw q : List Byte} {s t : State} (h : parseResp raw s = .ok q t) :
    WellFormedRsp raw ∧ q = (raw.drop 3).take (raw.length - 5) ∧
      t = setPaylen (raw.length - 5) (foldChk (raw.take (raw.length - 1)) s) := by
  rcases parseResp_cases raw s with e | e | e | e
  · rw [e.2] at h; cases h
  · rw [e.2.2] at h; cases h
  · rw [e.2.2.2] at h; cases h
  · obtain ⟨nh, nc, nm, e⟩ := e
    rw [e] at h
    cases h
    refine ⟨?_, rfl, rfl⟩
    simp only [BadHeader, BadChecksum, BadMarkers, not_or, ne_eq, not_not, Nat.not_lt] at nh nc nm
    refine ⟨?_, nh.2.1, nh.2.2, nm.2.1, nm.2.2, nc⟩
    have h2 := (List.getElem?_eq_some_iff.mp nm.2.1).1
    have h3 := nm.2.2
    by_contra hlt
    have hl : raw.length = 4 := by omega
    rw [hl, nm.2.1] at h3
    exact absurd h3 (by decide)

theorem rspFrame_take_init (q : List Byte) :
    (rspFrame q).take ((rspFrame q).length - 1) = [0x01, 0x30, 0x02] ++ q ++ [0x03] := by
  rw [rspFrame_length]
  simp only [rspFrame]
  exact List.take_left' (by simp)

/-- The frame of format RSP is well formed (40_frame_codec R126). -/
theorem wellFormed_rspFrame (q : List Byte) : WellFormedRsp (rspFrame q) := by
  refine ⟨by simp, rfl, rfl, rfl, ?_, ?_⟩
  · rw [rspFrame_length]
    simp [rspFrame, Wire.textEnd]
  · rw [rspFrame_take_init, rspFrame_length]
    simp [rspFrame, Wire.textEnd, Wire.textStart, Wire.responseStart, Wire.deviceAddress]

theorem rspFrame_ne_nil (q : List Byte) : rspFrame q ≠ [] := by simp [rspFrame]

theorem rspFrame_payload (q : List Byte) : ((rspFrame q).drop 3).take ((rspFrame q).length - 5) = q := by
  rw [rspFrame_length]
  simp [rspFrame]

/-- PARSE_RESP on the frame of payload `q` (40_frame_codec R124). -/
theorem parseResp_rspFrame (q : List Byte) (s : State) :
    parseResp (rspFrame q) s = .ok q (setPaylen q.length (foldChk ([0x01, 0x30, 0x02] ++ q ++ [0x03]) s)) := by
  rw [parseResp_wellFormed (wellFormed_rspFrame q), rspFrame_payload, rspFrame_take_init, rspFrame_length]
  rfl

/-! ### The start and the end of an operation -/

@[simp] theorem tapped_beginOp (s : State) (l : List TapRecord) : tapped (beginOp s) l = tapped s l := rfl

/-- An operation that fails at once. -/
theorem deliver_raise {s : State} (hb : s.busy = false) (k : ErrKind) :
    deliver (raise k (beginOp s)) = failedWith s k := by
  simp [deliver, raise, enterFailed, failedWith, beginOp, hb]

/-! ### SEND_REQ -/

@[simp] theorem txBytes_logTap (d : Dir) (b : List Byte) (s : State) : txBytes (logTap d b s) = txBytes s := rfl

/-- SEND_REQ on an open connection, by what its write answers (41_handshake_engine R143). -/
theorem sendReq_open {s : State} (ho : s.connOpen = true) (c : Byte) (p : List Byte) :
    sendReq c p s =
      match writeAnswer s with
      | .ioErr _ => raise .ioError (portWrite (reqFrame c p) (logTap .tx (reqFrame c p) (requestBuilt s c p)))
      | .ok => .ok () (setPhase .requestSent
          (portWrite (reqFrame c p) (logTap .tx (reqFrame c p) (requestBuilt s c p)))) := by
  rw [sendReq, needOpen_open ho]
  simp only [buildReq_eq, txBytes_requestBuilt, txBytes_logTap]
  rfl

/-- SEND_REQ whose write answers Ok. -/
theorem sendReq_ok {s : State} (ho : s.connOpen = true) {ws : List WriteAnswer} (hw : s.writes = .ok :: ws) (c : Byte)
    (p : List Byte) : sendReq c p s = .ok () (requestSent s c p ws) := by
  rw [sendReq_open ho]
  simp [writeAnswer, hw, portWrite, logTap, requestBuilt, requestSent, tapped, setPhase]

/-- SEND_REQ whose write answers IoErr. -/
theorem sendReq_ioErr {s : State} (ho : s.connOpen = true) {n : Nat} {ws : List WriteAnswer}
    (hw : s.writes = .ioErr n :: ws) (c : Byte) (p : List Byte) :
    sendReq c p s = raise .ioError
      { requestBuilt s c p with
        writes := ws
        tap := tapped s [⟨.tx, reqFrame c p⟩]
        trace := s.trace ++ [⟨s.phase, .wrote (reqFrame c p) (.ioErr n)⟩] } := by
  rw [sendReq_open ho]
  simp [writeAnswer, hw, portWrite, logTap, requestBuilt, tapped]

/-! ### READ_CODE -/

/-- The loop after `n` reads that returned nothing (41_handshake_engine R153). -/
theorem readCodeLoop_empties (n m : Nat) {s : State} {rest : List ReadAnswer}
    (h : s.reads = List.replicate n (.bytes []) ++ rest) :
    readCodeLoop (n + m) s = readCodeLoop m
      { s with
        att := s.att + n
        reads := rest
        trace := s.trace ++ List.replicate n ⟨s.phase, .got 1 (.bytes [])⟩ } := by
  induction n generalizing s with
  | zero =>
    simp only [List.replicate_zero, List.nil_append] at h
    simp [h.symm]
  | succ n ih =>
    rw [List.replicate_succ, List.cons_append] at h
    obtain ⟨e1, e2⟩ := portRead_bytes (cap := codeReadCap) (s := countAttempt s) (b := []) h (by simp)
    rw [Nat.succ_add_eq_add_succ, Nat.add_succ, readCodeLoop]
    simp only [e1, e2]
    rw [ih (by rfl)]
    simp [countAttempt, codeReadCap, List.replicate_succ, Nat.add_assoc, Nat.add_comm 1 n]

/-- READ_CODE after `n` empty reads and a read that finds the byte `b` (41_handshake_engine R144). -/
theorem readCode_byte {s : State} (ho : s.connOpen = true) {n : Nat} (hn : n < s.params.maxReadAttempts) {b : Byte}
    {more : List Byte} {rest : List ReadAnswer}
    (h : s.reads = List.replicate n (.bytes []) ++ .bytes (b :: more) :: rest) :
    readCode s = .ok (classify b) (codeRead s n b (if more = [] then rest else .bytes more :: rest)) := by
  obtain ⟨m, hm⟩ : ∃ m, s.params.maxReadAttempts = n + (m + 1) := ⟨s.params.maxReadAttempts - n - 1, by omega⟩
  have h' : (startCode s).reads = List.replicate n (.bytes []) ++ .bytes (b :: more) :: rest := h
  rw [readCode, needOpen_open ho, hm, readCodeLoop_empties n (m + 1) h', readCodeLoop]
  cases more with
  | nil =>
    simp [portRead, readAnswer, countAttempt, startCode, codeReadCap, capAnswer, latchCode, logTap, codeRead, tapped]
  | cons d t =>
    simp [portRead, readAnswer, countAttempt, startCode, codeReadCap, capAnswer, latchCode, logTap, codeRead, tapped]

/-- READ_CODE when every allowed read returns nothing (60_exceptions R212). -/
theorem readCode_exhausted {s : State} (ho : s.connOpen = true) {rest : List ReadAnswer}
    (h : s.reads = List.replicate s.params.maxReadAttempts (.bytes []) ++ rest) :
    readCode s = raise .retryExhausted
      { s with
        clen := 0
        att := s.params.maxReadAttempts
        reads := rest
        trace := s.trace ++ List.replicate s.params.maxReadAttempts ⟨s.phase, .got 1 (.bytes [])⟩ } := by
  have h' : (startCode s).reads = List.replicate s.params.maxReadAttempts (.bytes []) ++ rest := h
  have e := readCodeLoop_empties s.params.maxReadAttempts 0 h'
  rw [Nat.add_zero] at e
  rw [readCode, needOpen_open ho, e]
  simp [readCodeLoop, startCode]

/-- READ_CODE when a read answers IoErr (60_exceptions R224). -/
theorem readCode_ioErr {s : State} (ho : s.connOpen = true) {n : Nat} (hn : n < s.params.maxReadAttempts)
    {rest : List ReadAnswer} (h : s.reads = List.replicate n (.bytes []) ++ .ioErr :: rest) :
    readCode s = raise .ioError
      { s with
        clen := 0
        att := n + 1
        reads := rest
        trace := s.trace ++ List.replicate n ⟨s.phase, .got 1 (.bytes [])⟩ ++ [⟨s.phase, .got 1 .ioErr⟩] } := by
  obtain ⟨m, hm⟩ : ∃ m, s.params.maxReadAttempts = n + (m + 1) := ⟨s.params.maxReadAttempts - n - 1, by omega⟩
  have h' : (startCode s).reads = List.replicate n (.bytes []) ++ .ioErr :: rest := h
  rw [readCode, needOpen_open ho, hm, readCodeLoop_empties n (m + 1) h', readCodeLoop]
  simp [portRead, readAnswer, countAttempt, startCode, codeReadCap]

/-! ### READ_DATA -/

@[simp] theorem rxBytes_accumulated (s : State) (cs : List (List Byte)) (rs : List ReadAnswer) :
    rxBytes (accumulated s cs rs) = cs.flatten :=
  Memory.readRange_writeRange s.rxbuf 0 cs.flatten

/-- The tail condition on what was accumulated (41_handshake_engine R147). -/
theorem tailCondition_accumulated (s : State) (cs : List (List Byte)) (rs : List ReadAnswer) :
    tailCondition (accumulated s cs rs) = tailHolds cs.flatten := by
  by_cases h : 2 ≤ cs.flatten.length
  · have e := rxBytes_accumulated s cs rs
    have g := Memory.readRange_getElem? (accumulated s cs rs).rxbuf 0 (accumulated s cs rs).rxlen
      (cs.flatten.length - 2) (show cs.flatten.length - 2 < cs.flatten.length by omega)
    rw [← rxBytes, e, Nat.zero_add] at g
    simp only [tailCondition, tailHolds, g, Wire.textEnd]
    simp [accumulated, Bool.beq_eq_decide_eq]
  · have e : (accumulated s cs rs).rxlen = cs.flatten.length := rfl
    simp only [tailCondition, tailHolds, e, h, decide_false, Bool.false_and]

/-- One more read of a chunk. -/
theorem accumulate_chunk (s : State) (pre : List (List Byte)) (c : List Byte) (rs : List ReadAnswer)
    (hc : c.length ≤ s.params.dataReadCap) :
    readAnswer s.params.dataReadCap (countAttempt (accumulated s pre (.bytes c :: rs))) = .bytes c ∧
    appendRx c (logRead c (portRead s.params.dataReadCap (countAttempt (accumulated s pre (.bytes c :: rs))))) =
      accumulated s (pre ++ [c]) rs := by
  obtain ⟨e1, e2⟩ := portRead_bytes (cap := s.params.dataReadCap)
    (s := countAttempt (accumulated s pre (.bytes c :: rs))) (b := c) (t := rs) rfl hc
  refine ⟨e1, ?_⟩
  rw [e2]
  have hw := writeRange_from_zero s.rxbuf pre.flatten c
  rw [List.length_flatten] at hw
  by_cases h : c = []
  · subst h
    simp [logRead, appendRx, accumulated, countAttempt, Memory.writeRange]
  · by_cases hl : s.logEn <;>
      simp [logRead, h, logTap, appendRx, accumulated, countAttempt, hw, tapped, hl]

/-- The loop after reads that returned chunks with the tail condition after none of them. -/
theorem readDataLoop_chunks (s : State) (pre cs : List (List Byte)) (rs : List ReadAnswer) (m : Nat)
    (hc : ∀ b ∈ cs, b.length ≤ s.params.dataReadCap)
    (ht : ∀ k, 1 ≤ k → k ≤ cs.length → tailHolds (pre ++ cs.take k).flatten = false) :
    readDataLoop (cs.length + m) (accumulated s pre (cs.map .bytes ++ rs)) =
      readDataLoop m (accumulated s (pre ++ cs) rs) := by
  induction cs generalizing pre with
  | nil => simp
  | cons c cs ih =>
    have h1 := ht 1 (by simp) (by simp)
    obtain ⟨e1, e2⟩ := accumulate_chunk s pre c (cs.map .bytes ++ rs) (hc c (by simp))
    rw [List.length_cons, Nat.succ_add, readDataLoop]
    simp only [List.map_cons, List.cons_append]
    rw [show (countAttempt (accumulated s pre (.bytes c :: (cs.map .bytes ++ rs)))).params.dataReadCap =
      s.params.dataReadCap from rfl, e1]
    simp only [e2, tailCondition_accumulated]
    rw [List.take_succ_cons, List.take_zero] at h1
    rw [h1]
    simp only [Bool.false_eq_true, if_false]
    rw [ih (pre ++ [c]) (fun b hb => hc b (by simp [hb])) fun k hk hkl => by
      have := ht (k + 1) (by omega) (by simpa using hkl)
      simpa using this]
    simp

/-- READ_DATA up to the tail condition: the last of the chunks is parsed, or the next answer decides. -/
theorem readData_chunks {s : State} (ho : s.connOpen = true) {cs : List (List Byte)} {rs : List ReadAnswer}
    (hr : s.reads = cs.map .bytes ++ rs) (hc : ∀ b ∈ cs, b.length ≤ s.params.dataReadCap) {m : Nat}
    (hm : s.params.maxReadAttempts = cs.length + m) (ht : NoTailWithin cs cs.length) :
    readData s = readDataLoop m (accumulated s cs rs) := by
  rw [readData, needOpen_open ho, hm]
  have e : startData s = accumulated s [] (cs.map .bytes ++ rs) := by
    simp [startData, accumulated, tapped, Memory.writeRange, ← hr]
  rw [e, readDataLoop_chunks s [] cs rs m hc fun k _ hk => by simpa using ht k hk]
  simp

/-- READ_DATA stops at the first tail and parses all it has (41_handshake_engine R146). -/
theorem readData_tail {s : State} (ho : s.connOpen = true) {cs : List (List Byte)} {rs : List ReadAnswer}
    (hr : s.reads = cs.map .bytes ++ rs) (hc : ∀ b ∈ cs, b.length ≤ s.params.dataReadCap)
    (hl : cs.length ≤ s.params.maxReadAttempts) (ht : NoTailWithin cs (cs.length - 1))
    (hlast : tailHolds cs.flatten = true) : readData s = parseResp cs.flatten (accumulated s cs rs) := by
  rcases List.eq_nil_or_concat cs with rfl | ⟨pre, c, rfl⟩
  · exact absurd hlast (by decide)
  rw [List.concat_eq_append] at *
  simp only [List.length_append, List.length_cons, List.length_nil] at hl ht
  obtain ⟨m, hm⟩ : ∃ m, s.params.maxReadAttempts = pre.length + (m + 1) :=
    ⟨s.params.maxReadAttempts - pre.length - 1, by omega⟩
  rw [readData_chunks (rs := .bytes c :: rs) ho (by simpa using hr) (fun b hb => hc b (by simp [hb])) hm fun k hk => by
    have := ht k (by omega)
    rwa [List.take_append_of_le_length hk] at this]
  obtain ⟨e1, e2⟩ := accumulate_chunk s pre c rs (hc c (by simp))
  rw [readDataLoop]
  rw [show (countAttempt (accumulated s pre (.bytes c :: rs))).params.dataReadCap = s.params.dataReadCap from rfl, e1]
  simp only [e2, tailCondition_accumulated, hlast, if_true, rxBytes_accumulated]

/-- READ_DATA when the one read returns the whole frame of payload `q`. -/
theorem readData_frame {s : State} (ho : s.connOpen = true) {q : List Byte} {rs : List ReadAnswer}
    (h : s.reads = .bytes (rspFrame q) :: rs) (hl : q.length + 5 ≤ s.params.dataReadCap) :
    readData s = .ok q (frameRead s q rs) := by
  have e2 : tailCondition (accumulated s [rspFrame q] rs) = true := by
    rw [tailCondition_accumulated]
    obtain ⟨h5, -, -, -, h3, -⟩ := wellFormed_rspFrame q
    simp only [List.flatten_cons, List.flatten_nil, List.append_nil, tailHolds, h3]
    simp
  obtain ⟨a1, a2⟩ := accumulate_chunk s [] (rspFrame q) rs (by simpa using hl)
  have e : startData s = accumulated s [] (.bytes (rspFrame q) :: rs) := by
    simp [startData, accumulated, tapped, Memory.writeRange, ← h]
  rw [List.nil_append] at a2
  have r := rxBytes_accumulated s [rspFrame q] rs
  rw [readData, needOpen_open ho, Params.maxReadAttempts, readDataLoop, e]
  rw [show (countAttempt (accumulated s [] (.bytes (rspFrame q) :: rs))).params.dataReadCap = s.params.dataReadCap from rfl,
    a1]
  simp only [a2, e2, if_true, r, List.flatten_cons, List.flatten_nil, List.append_nil, parseResp_rspFrame]
  simp [accumulated, frameRead, foldChk, setPaylen, rspFrame_ne_nil]

/-! ### EMIT_ACK and a whole cycle -/

/-- EMIT_ACK by what its write answers (41_handshake_engine R148). -/
theorem emitAck_answered {s : State} (ho : s.connOpen = true) {a : WriteAnswer} {ws : List WriteAnswer}
    (hw : s.writes = a :: ws) : emitAck s = .ok () (ackWritten s a ws) := by
  rw [emitAck, needOpen_open ho]
  cases a <;> simp [writeAnswer, hw, portWrite, logTap, ackWritten, tapped, noteAckWrite, Wire.ack]

/-- RESP_CYCLE with its items whole in one read each (41_handshake_engine R149). -/
theorem respCycle_smooth {s : State} (ho : s.connOpen = true) {q : List Byte} {a : WriteAnswer} {rs : List ReadAnswer}
    {ws : List WriteAnswer} (hr : s.reads = smoothReads q rs) (hl : q.length + 5 ≤ s.params.dataReadCap)
    (hw : s.writes = a :: ws) : respCycle s = .ok q (cycleDone s q a rs ws) := by
  have hm : 0 < s.params.maxReadAttempts := Nat.succ_pos _
  generalize h1 : codeRead (setPhase .awaitingAck s) 0 0x06 (.bytes (rspFrame q) :: .bytes [0x04] :: rs) = s1
  generalize h2 : frameRead (setPhase .awaitingData s1) q (.bytes [0x04] :: rs) = s2
  generalize h3 : ackWritten s2 a ws = s3
  have e1 : readCode (setPhase .awaitingAck s) = .ok .ack s1 := by
    rw [← h1]
    exact readCode_byte (s := setPhase .awaitingAck s) ho (n := 0) hm (more := []) hr
  have e2 : readData (setPhase .awaitingData s1) = .ok q s2 := by
    rw [← h2]
    exact readData_frame (by subst h1; exact ho) (by subst h1; rfl) (by subst h1; exact hl)
  have e3 : emitAck s2 = .ok () s3 := by
    rw [← h3]
    exact emitAck_answered (by subst h2 h1; exact ho) (by subst h2 h1; exact hw)
  have e4 : readCode (setPhase .awaitingEot s3) = .ok .eot (codeRead (setPhase .awaitingEot s3) 0 0x04 rs) :=
    readCode_byte (by subst h3 h2 h1; exact ho) (n := 0) (by subst h3 h2 h1; exact hm) (b := 0x04) (more := [])
      (rest := rs) (by subst h3 h2 h1; rfl)
  rw [respCycle, needOpen_open ho, e1]
  simp only [Res.bind_ok]
  rw [if_neg (by simp), e2]
  simp only [Res.bind_ok]
  rw [e3]
  simp only [Res.bind_ok]
  rw [e4]
  simp only [Res.bind_ok]
  rw [if_neg (by simp)]
  subst h3 h2 h1
  rfl

/-- COMMAND with its request written and its items whole in one read each (42_command_surface R173). -/
theorem command_smooth {s : State} (ho : s.connOpen = true) (c : Byte) (p : List Byte) {q : List Byte} {a : WriteAnswer}
    {rs : List ReadAnswer} {ws : List WriteAnswer} (hr : s.reads = smoothReads q rs)
    (hl : q.length + 5 ≤ s.params.dataReadCap) (hw : s.writes = .ok :: a :: ws) :
    command c p s = .ok (decodeReply s.params q) (exchangeDone s c p q a rs ws) := by
  rw [command, sendReq_ok (s := setPhase .idle s) ho hw]
  simp only [Res.bind_ok]
  rw [respCycle_smooth (s := requestSent (setPhase .idle s) c p (a :: ws)) ho hr hl rfl]
  rfl

/-! ### Bounds -/

theorem parseResp_keeps (raw : List Byte) (s : State) :
    (parseResp raw s).state.att = s.att ∧ (parseResp raw s).state.rxlen = s.rxlen ∧
      (parseResp raw s).state.rxbuf = s.rxbuf ∧ (parseResp raw s).state.trace = s.trace := by
  rcases parseResp_verdict raw with v | v | v | v <;> rw [v] <;> exact ⟨rfl, rfl, rfl, rfl⟩

/-- READ_CODE's loop issues no more reads than it has left (41_handshake_engine R152). -/
theorem readCodeLoop_att (n : Nat) (s : State) : (readCodeLoop n s).state.att ≤ s.att + n := by
  induction n generalizing s with
  | zero => exact Nat.le_refl _
  | succ n ih =>
    unfold readCodeLoop
    dsimp only
    split
    · simp [raise]
    · exact Nat.le_trans (ih _) (by simp; omega)
    · simp

/-- READ_DATA's loop issues no more reads than it has left, and stays within what they can bring (20_memory R65). -/
theorem readDataLoop_bounds (n : Nat) (s : State) {cap : Nat} (hl : s.rxlen + n * s.params.dataReadCap ≤ cap)
    (hw : Memory.wf s.rxbuf) (hc : Memory.within s.rxbuf cap) :
    (readDataLoop n s).state.att ≤ s.att + n ∧ (readDataLoop n s).state.rxlen ≤ cap ∧
      Memory.wf (readDataLoop n s).state.rxbuf ∧ Memory.within (readDataLoop n s).state.rxbuf cap := by
  induction n generalizing s with
  | zero => exact ⟨Nat.le_refl _, show s.rxlen ≤ cap by omega, hw, hc⟩
  | succ n ih =>
    rw [Nat.succ_mul] at hl
    unfold readDataLoop
    dsimp only
    split
    · exact ⟨by simp [raise], by simp [raise]; omega, hw, hc⟩
    · next b hb =>
      have hlen : b.length ≤ s.params.dataReadCap := readAnswer_length hb
      have hwb : Memory.wf (appendRx b (logRead b (portRead (countAttempt s).params.dataReadCap
          (countAttempt s)))).rxbuf := by simpa using Memory.wf_writeRange hw _ _
      have hcb : Memory.within (appendRx b (logRead b (portRead (countAttempt s).params.dataReadCap
          (countAttempt s)))).rxbuf cap := by
        intro c h
        rcases Memory.key_writeRange (by simpa using h) with h | h
        · exact hc c h
        · omega
      split
      · obtain ⟨e1, e2, e3, -⟩ := parseResp_keeps
          (rxBytes (appendRx b (logRead b (portRead (countAttempt s).params.dataReadCap (countAttempt s)))))
          (appendRx b (logRead b (portRead (countAttempt s).params.dataReadCap (countAttempt s))))
        rw [e1, e2, e3]
        exact ⟨by simp, by simp; omega, hwb, hcb⟩
      · obtain ⟨i1, i2, i3, i4⟩ := ih _ (by simp; omega) hwb hcb
        exact ⟨Nat.le_trans i1 (by simp; omega), i2, i3, i4⟩

end Sys2Proof.Machine
end

