-- ==== Sys2Proof/Laws/TwoRuns.lean ====
section
/-! SUPPORT. Two runs of one operation side by side: a relation between states that every primitive action respects and
that decides the connection flag, the parameters and the environment's answers is respected by every operation, which
then ends alike in both. What an operation depends on (10_state R39, R33) is an instance of it. -/

namespace Sys2Proof.Machine

/-! ### What a read loop has in its buffer -/

/-- An append is an append to what the buffer holds, whatever it held before (20_memory R51). -/
theorem rxBytes_appendRx (b : List Byte) (s : State) : rxBytes (appendRx b s) = rxBytes s ++ b := by
  have h1 : ∀ (m : Memory) (i n : Nat) (v : List Byte), Memory.readRange (Memory.writeRange m (i + n) v) i n =
      Memory.readRange m i n := by
    intro m i n v
    refine List.ext_getElem? fun k => ?_
    rcases Nat.lt_or_ge k n with hk | hk
    · rw [Memory.readRange_getElem? _ _ _ _ hk, Memory.readRange_getElem? _ _ _ _ hk,
        Memory.read_writeRange_below _ _ _ (by omega)]
    · rw [List.getElem?_eq_none (by simpa using hk), List.getElem?_eq_none (by simpa using hk)]
  have h2 : ∀ (m : Memory) (i n k : Nat), Memory.readRange m i (n + k) =
      Memory.readRange m i n ++ Memory.readRange m (i + n) k := by
    intro m i n k
    induction n generalizing i with
    | zero => simp [Memory.readRange]
    | succ n ih => rw [Nat.succ_add]; simp [Memory.readRange, ih, Nat.add_assoc, Nat.add_comm 1 n]
  have h3 := h1 s.rxbuf 0 s.rxlen b
  rw [Nat.zero_add] at h3
  simp only [rxBytes, appendRx, h2, h3, Nat.zero_add, Memory.readRange_writeRange]

/-- The tail condition as a test of what the buffer holds (41_handshake_engine R147). -/
theorem tailCondition_eq (s : State) : tailCondition s = tailHolds (rxBytes s) := by
  have hl : (rxBytes s).length = s.rxlen := Memory.readRange_length _ _ _
  by_cases h : 2 ≤ s.rxlen
  · have g : (rxBytes s)[s.rxlen - 2]? = some (Memory.read s.rxbuf (s.rxlen - 2)) := by
      rw [rxBytes, Memory.readRange_getElem? _ _ _ _ (by omega), Nat.zero_add]
    rw [tailCondition, tailHolds, hl, g]
    rfl
  · rw [tailCondition, tailHolds, hl]
    simp only [h, decide_false, Bool.false_and]

/-! ### Two runs -/

/-- The same end, in related states. -/
def Res.Rel {α : Type} (R : State → State → Prop) : Res α → Res α → Prop
  | .ok v s, .ok w t => v = w ∧ R s t
  | .fail k s, .fail l t => k = l ∧ R s t
  | _, _ => False

/-- A relation between the states of two runs that every primitive action respects. -/
structure Twin (R : State → State → Prop) : Prop where
  connOpen : ∀ {s t}, R s t → s.connOpen = t.connOpen
  params : ∀ {s t}, R s t → s.params = t.params
  readAnswer : ∀ {s t} cap, R s t → readAnswer cap s = readAnswer cap t
  writeAnswer : ∀ {s t}, R s t → writeAnswer s = writeAnswer t
  closeAnswer : ∀ {s t}, R s t → closeAnswer s = closeAnswer t
  raising : ∀ {s t} k, R s t → R (enterFailed k s) (enterFailed k t)
  phase : ∀ {s t} p, R s t → R (setPhase p s) (setPhase p t)
  chk : ∀ {s t} b, R s t → R (foldChk b s) (foldChk b t)
  paylen : ∀ {s t} n, R s t → R (setPaylen n s) (setPaylen n t)
  request : ∀ {s t} c p, R s t → R (requestBuilt s c p) (requestBuilt t c p)
  logTap : ∀ {s t} d b, R s t → R (logTap d b s) (logTap d b t)
  noteAck : ∀ {s t} a, R s t → R (noteAckWrite a s) (noteAckWrite a t)
  startCode : ∀ {s t}, R s t → R (startCode s) (startCode t)
  latch : ∀ {s t} b, R s t → R (latchCode b s) (latchCode b t)
  startData : ∀ {s t}, R s t → R (startData s) (startData t)
  appendRx : ∀ {s t} b, R s t → R (appendRx b s) (appendRx b t)
  attempt : ∀ {s t}, R s t → R (countAttempt s) (countAttempt t)
  read : ∀ {s t} cap, R s t → R (portRead cap s) (portRead cap t)
  write : ∀ {s t} b, R s t → R (portWrite b s) (portWrite b t)
  arrive : ∀ {s t} b, R s t → R (arriving b s) (arriving b t)
  opening : ∀ {s t} path baud log, R s t → Res.Rel R (connOpenBody path baud log s) (connOpenBody path baud log t)
  closing : ∀ {s t}, R s t → R (disconnect (portClose s)) (disconnect (portClose t))

theorem Res.Rel.bind {R : State → State → Prop} {α β : Type} {r q : Res α} {f g : α → State → Res β}
    (h : Res.Rel R r q) (hf : ∀ v s t, R s t → Res.Rel R (f v s) (g v t)) : Res.Rel R (r.bind f) (q.bind g) := by
  cases r with
  | ok v s =>
    cases q with
    | ok w t =>
      obtain ⟨e, h⟩ := h
      subst e
      exact hf v s t h
    | fail k t => exact False.elim h
  | fail k s =>
    cases q with
    | ok w t => exact False.elim h
    | fail l t => exact h

theorem Res.Rel.give {R : State → State → Prop} {α : Type} {r q : Res α} (h : Res.Rel R r q) (f : α → Value) :
    Res.Rel R (r.give f) (q.give f) :=
  h.bind fun _ _ _ h => ⟨rfl, h⟩

section
variable {R : State → State → Prop}

theorem Twin.raised (h : Twin R) {α : Type} (k : ErrKind) {s t : State} (e : R s t) :
    Res.Rel R (raise k s : Res α) (raise k t) :=
  ⟨rfl, h.raising k e⟩

theorem Twin.needOpen (h : Twin R) {α : Type} {s t : State} (e : R s t) {f g : State → Res α}
    (hf : Res.Rel R (f s) (g t)) : Res.Rel R (needOpen s f) (needOpen t g) := by
  unfold Machine.needOpen
  rw [h.connOpen e]
  split
  · exact hf
  · exact h.raised _ e

theorem Twin.parseResp (h : Twin R) (raw : List Byte) {s t : State} (e : R s t) :
    Res.Rel R (parseResp raw s) (parseResp raw t) := by
  rcases parseResp_verdict raw with v | v | v | v
  · rw [v, v]; exact h.raised _ e
  · rw [v, v]; exact h.raised _ (h.chk _ e)
  · rw [v, v]; exact h.raised _ (h.chk _ e)
  · rw [v, v]; exact ⟨rfl, h.paylen _ (h.chk _ e)⟩

theorem Twin.sendReq (h : Twin R) (c : Byte) (p : List Byte) {s t : State} (e : R s t) :
    Res.Rel R (sendReq c p s) (sendReq c p t) := by
  refine h.needOpen e ?_
  simp only [buildReq_eq, txBytes_requestBuilt, txBytes_logTap]
  have e1 := h.logTap .tx (reqFrame c p) (h.request c p e)
  rw [h.writeAnswer e1]
  split
  · exact h.raised _ (h.write _ e1)
  · exact ⟨rfl, h.phase _ (h.write _ e1)⟩

theorem Twin.readCodeLoop (h : Twin R) (n : Nat) {s t : State} (e : R s t) :
    Res.Rel R (readCodeLoop n s) (readCodeLoop n t) := by
  induction n generalizing s t with
  | zero => exact h.raised _ e
  | succ n ih =>
    simp only [Machine.readCodeLoop]
    have e1 := h.attempt e
    rw [h.readAnswer _ e1]
    have e2 := h.read codeReadCap e1
    split
    · exact h.raised _ e2
    · exact ih e2
    · exact ⟨rfl, h.latch _ (h.logTap _ _ e2)⟩

theorem Twin.readCode (h : Twin R) {s t : State} (e : R s t) : Res.Rel R (readCode s) (readCode t) :=
  h.needOpen e (by rw [h.params e]; exact h.readCodeLoop _ (h.startCode e))

theorem Twin.readDataLoop (h : Twin R) (n : Nat) {s t : State} (e : R s t) (hb : rxBytes s = rxBytes t) :
    Res.Rel R (readDataLoop n s) (readDataLoop n t) := by
  induction n generalizing s t with
  | zero => exact h.raised _ e
  | succ n ih =>
    simp only [Machine.readDataLoop]
    have e1 := h.attempt e
    rw [h.params e1, h.readAnswer _ e1]
    have e2 := h.read (countAttempt t).params.dataReadCap e1
    split
    · exact h.raised _ e2
    · next b _ =>
      have e3 := h.appendRx b (show R (logRead b _) (logRead b _) by
        unfold Machine.logRead
        split
        · exact e2
        · exact h.logTap _ _ e2)
      have r : ∀ u : State, rxBytes (Machine.appendRx b (logRead b (portRead (countAttempt t).params.dataReadCap
          (countAttempt u)))) = rxBytes u ++ b := fun u => by
        rw [rxBytes_appendRx]
        simp [rxBytes]
      rw [tailCondition_eq, tailCondition_eq, r, r, hb]
      split
      · exact h.parseResp _ e3
      · exact ih e3 (by rw [r, r, hb])

theorem Twin.readData (h : Twin R) {s t : State} (e : R s t) : Res.Rel R (readData s) (readData t) :=
  h.needOpen e (by rw [h.params e]; exact h.readDataLoop _ (h.startData e) rfl)

theorem Twin.emitAck (h : Twin R) {s t : State} (e : R s t) : Res.Rel R (emitAck s) (emitAck t) := by
  refine h.needOpen e ⟨rfl, ?_⟩
  have e1 := h.logTap .tx [Wire.ack] e
  rw [h.writeAnswer e1]
  exact h.noteAck _ (h.write _ e1)

theorem Twin.respCycle (h : Twin R) {s t : State} (e : R s t) : Res.Rel R (respCycle s) (respCycle t) := by
  refine h.needOpen e ((h.readCode (h.phase _ e)).bind fun c1 s1 t1 e1 => ?_)
  split
  · exact h.raised _ e1
  refine (h.readData (h.phase _ e1)).bind fun p s2 t2 e2 => (h.emitAck e2).bind fun _ s3 t3 e3 => ?_
  refine (h.readCode (h.phase _ e3)).bind fun c2 s4 t4 e4 => ?_
  split
  · exact h.raised _ e4
  · exact ⟨rfl, h.phase _ e4⟩

theorem Twin.command (h : Twin R) (c : Byte) (p : List Byte) {s t : State} (e : R s t) :
    Res.Rel R (command c p s) (command c p t) :=
  (h.sendReq c p (h.phase _ e)).bind fun _ _ _ e1 => (h.respCycle e1).bind fun _ _ _ e2 =>
    ⟨by rw [h.params e2], e2⟩

theorem Twin.commandBody (h : Twin R) (i : Instr) (c : Byte) (p : List Byte) {s t : State} (e : R s t) :
    Res.Rel R (commandBody i c p s) (commandBody i c p t) := by
  refine (h.command c p e).bind fun rec u v e => ?_
  have hc : Res.Rel R (checkParamAck rec.payload u) (checkParamAck rec.payload v) := by
    unfold Machine.checkParamAck
    rw [h.params e]
    split
    · exact ⟨rfl, e⟩
    · exact h.raised _ e
  split
  · exact ⟨by rw [h.params e], e⟩
  · exact hc.bind fun _ _ _ e => ⟨rfl, e⟩
  · exact hc.bind fun _ _ _ e => ⟨rfl, e⟩
  · exact ⟨rfl, e⟩

/-- Every operation's body ends alike in two runs that are related at its start. -/
theorem Twin.body (h : Twin R) (i : Instr) {s t : State} (e : R s t) : Res.Rel R (bodyOf i s) (bodyOf i t) := by
  cases i
  case checksum => exact ⟨rfl, h.chk _ e⟩
  case buildReq c p =>
    show Res.Rel R (.ok _ (buildReq c p s)) (.ok _ (buildReq c p t))
    simp only [buildReq_eq, txBytes_requestBuilt]
    exact ⟨rfl, h.request c p e⟩
  case parseResp => exact (h.parseResp _ e).give _
  case connOpen => exact (h.opening _ _ _ e).give _
  case connClose =>
    refine Res.Rel.give (h.needOpen e ?_) _
    rw [h.closeAnswer e]
    split
    · exact h.raised _ (h.closing e)
    · exact ⟨rfl, h.closing e⟩
  case sendReq => exact (h.sendReq _ _ e).give _
  case readCode => exact (h.readCode e).give _
  case readData => exact (h.readData e).give _
  case emitAck | ackEmit => exact (h.emitAck e).give _
  case respCycle => exact (h.respCycle e).give _
  case encNum | encItem => exact ⟨rfl, e⟩
  case decNum | decodeReply | decodeStatus => exact ⟨by rw [h.params e], e⟩
  case ack | nack | eot | unrecognized => exact (h.readCode (h.arrive _ e)).give _
  case rspFrame => exact (h.readData (h.arrive _ e)).give _
  all_goals (rw [bodyOf_command rfl rfl, bodyOf_command rfl rfl]; exact h.commandBody _ _ _ e)

end

/-! ### The host's fields -/

/-- With another result left over from before. -/
def withResult (r : Option OpResult) (s : State) : State := { s with result := r }

/-- No operation depends on the result that was delivered last. -/
theorem twin_result (r : Option OpResult) : Twin fun s t => t = withResult r s where
  connOpen h := by subst h; rfl
  params h := by subst h; rfl
  readAnswer _ h := by subst h; rfl
  writeAnswer h := by subst h; rfl
  closeAnswer h := by subst h; rfl
  raising _ h := by subst h; rfl
  phase _ h := by subst h; rfl
  chk _ h := by subst h; rfl
  paylen _ h := by subst h; rfl
  request _ _ h := by subst h; rfl
  logTap _ _ h := by subst h; rfl
  noteAck a h := by subst h; cases a <;> rfl
  startCode h := by subst h; rfl
  latch _ h := by subst h; rfl
  startData h := by subst h; rfl
  appendRx _ h := by subst h; rfl
  attempt h := by subst h; rfl
  read _ h := by subst h; rfl
  write _ h := by subst h; rfl
  arrive _ h := by subst h; rfl
  opening {s t} path baud log h := by
    subst h
    cases ha : openAnswer (configure path baud log s)
    all_goals
      have hb : openAnswer (configure path baud log (withResult r s)) = _ := ha
      rw [connOpenBody, connOpenBody]
      simp only [ha, hb]
      exact ⟨rfl, rfl⟩
  closing h := by subst h; rfl

end Sys2Proof.Machine
end

