-- ==== Sys2Proof/Laws/Frames.lean ====
section
/-! SUPPORT. What no operation's body touches, what only CONN_OPEN and CONN_CLOSE touch, what the read loops leave alone,
and how an operation runs after another one that ended Ok. -/

namespace Sys2Proof.Machine

/-- The fields no operation's body writes: BUSY and the result (the host interface's), the parameters, the inbox. -/
structure Kept (s t : State) : Prop where
  busy : t.busy = s.busy
  result : t.result = s.result
  params : t.params = s.params
  inbox : t.inbox = s.inbox

theorem prims_kept (i : Instr) : Prims i Kept where
  refl _ := ⟨rfl, rfl, rfl, rfl⟩
  trans h g := ⟨g.1.trans h.1, g.2.trans h.2, g.3.trans h.3, g.4.trans h.4⟩
  raising _ _ _ := ⟨rfl, rfl, rfl, rfl⟩
  phase _ _ _ := ⟨rfl, rfl, rfl, rfl⟩
  chk _ _ _ := ⟨rfl, rfl, rfl, rfl⟩
  paylen _ _ _ := ⟨rfl, rfl, rfl, rfl⟩
  request _ _ _ _ _ := ⟨rfl, rfl, rfl, rfl⟩
  logTap _ _ _ := ⟨rfl, rfl, rfl, rfl⟩
  noteAck a _ _ := by cases a <;> exact ⟨rfl, rfl, rfl, rfl⟩
  writeRequest _ _ _ _ _ := ⟨rfl, rfl, rfl, rfl⟩
  writeAck _ _ _ := ⟨rfl, rfl, rfl, rfl⟩
  startCode _ _ := ⟨rfl, rfl, rfl, rfl⟩
  latch _ _ _ := ⟨rfl, rfl, rfl, rfl⟩
  startData _ _ := ⟨rfl, rfl, rfl, rfl⟩
  appendRx _ _ _ := ⟨rfl, rfl, rfl, rfl⟩
  attempt _ _ := ⟨rfl, rfl, rfl, rfl⟩
  read _ _ _ _ := ⟨rfl, rfl, rfl, rfl⟩
  arrive _ _ := ⟨rfl, rfl, rfl, rfl⟩
  opening path baud log s _ _ := by
    rw [connOpenBody]
    cases openAnswer (configure path baud log s) <;> exact ⟨rfl, rfl, rfl, rfl⟩
  closing _ _ _ := ⟨rfl, rfl, rfl, rfl⟩

/-- The fields of the connection: its flag and its configuration (10_state R30, R32). -/
structure SessionKept (s t : State) : Prop where
  connOpen : t.connOpen = s.connOpen
  path : t.path = s.path
  baud : t.baud = s.baud
  logEn : t.logEn = s.logEn

theorem prims_session {i : Instr} (h1 : isOpenOp i = false) (h2 : isCloseOp i = false) : Prims i SessionKept where
  refl _ := ⟨rfl, rfl, rfl, rfl⟩
  trans h g := ⟨g.1.trans h.1, g.2.trans h.2, g.3.trans h.3, g.4.trans h.4⟩
  raising _ _ _ := ⟨rfl, rfl, rfl, rfl⟩
  phase _ _ _ := ⟨rfl, rfl, rfl, rfl⟩
  chk _ _ _ := ⟨rfl, rfl, rfl, rfl⟩
  paylen _ _ _ := ⟨rfl, rfl, rfl, rfl⟩
  request _ _ _ _ _ := ⟨rfl, rfl, rfl, rfl⟩
  logTap _ _ _ := ⟨rfl, rfl, rfl, rfl⟩
  noteAck a _ _ := by cases a <;> exact ⟨rfl, rfl, rfl, rfl⟩
  writeRequest _ _ _ _ _ := ⟨rfl, rfl, rfl, rfl⟩
  writeAck _ _ _ := ⟨rfl, rfl, rfl, rfl⟩
  startCode _ _ := ⟨rfl, rfl, rfl, rfl⟩
  latch _ _ _ := ⟨rfl, rfl, rfl, rfl⟩
  startData _ _ := ⟨rfl, rfl, rfl, rfl⟩
  appendRx _ _ _ := ⟨rfl, rfl, rfl, rfl⟩
  attempt _ _ := ⟨rfl, rfl, rfl, rfl⟩
  read _ _ _ _ := ⟨rfl, rfl, rfl, rfl⟩
  arrive _ _ := ⟨rfl, rfl, rfl, rfl⟩
  opening _ _ _ _ h _ := by subst h; cases h1
  closing _ h _ := by subst h; cases h2

/-- The fields READ_CODE's loop leaves alone: it works on ATT, CODE, CLEN, the tap and the receive stream, and PHASE and ERR
when it fails (41_handshake_engine R144). -/
structure CodeKept (s t : State) : Prop where
  chk : t.chk = s.chk
  rxlen : t.rxlen = s.rxlen
  txlen : t.txlen = s.txlen
  cmd : t.cmd = s.cmd
  paylen : t.paylen = s.paylen
  rxbuf : t.rxbuf = s.rxbuf
  txbuf : t.txbuf = s.txbuf
  ackWrErr : t.ackWrErr = s.ackWrErr
  writes : t.writes = s.writes

theorem prims_codeKept : Prims .readCode CodeKept where
  refl _ := ⟨rfl, rfl, rfl, rfl, rfl, rfl, rfl, rfl, rfl⟩
  trans h g := ⟨g.1.trans h.1, g.2.trans h.2, g.3.trans h.3, g.4.trans h.4, g.5.trans h.5, g.6.trans h.6, g.7.trans h.7,
    g.8.trans h.8, g.9.trans h.9⟩
  raising _ _ _ := ⟨rfl, rfl, rfl, rfl, rfl, rfl, rfl, rfl, rfl⟩
  phase _ _ h := by cases h
  chk _ _ h := by cases h
  paylen _ _ h := by cases h
  request _ _ _ h _ := by cases h
  logTap _ _ _ := ⟨rfl, rfl, rfl, rfl, rfl, rfl, rfl, rfl, rfl⟩
  noteAck _ _ h := by cases h
  writeRequest _ _ _ _ h := by cases h
  writeAck _ _ h := by cases h
  startCode _ _ := ⟨rfl, rfl, rfl, rfl, rfl, rfl, rfl, rfl, rfl⟩
  latch _ _ _ := ⟨rfl, rfl, rfl, rfl, rfl, rfl, rfl, rfl, rfl⟩
  startData _ h := by cases h
  appendRx _ _ h := by cases h
  attempt _ _ := ⟨rfl, rfl, rfl, rfl, rfl, rfl, rfl, rfl, rfl⟩
  read _ _ _ _ := ⟨rfl, rfl, rfl, rfl, rfl, rfl, rfl, rfl, rfl⟩
  arrive _ h := absurd rfl h
  opening _ _ _ _ h := by cases h
  closing _ h := by cases h

/-- The fields READ_DATA's loop leaves alone (41_handshake_engine R146). -/
structure DataKept (s t : State) : Prop where
  txlen : t.txlen = s.txlen
  code : t.code = s.code
  clen : t.clen = s.clen
  cmd : t.cmd = s.cmd
  txbuf : t.txbuf = s.txbuf
  ackWrErr : t.ackWrErr = s.ackWrErr
  writes : t.writes = s.writes

theorem prims_dataKept : Prims .readData DataKept where
  refl _ := ⟨rfl, rfl, rfl, rfl, rfl, rfl, rfl⟩
  trans h g := ⟨g.1.trans h.1, g.2.trans h.2, g.3.trans h.3, g.4.trans h.4, g.5.trans h.5, g.6.trans h.6, g.7.trans h.7⟩
  raising _ _ _ := ⟨rfl, rfl, rfl, rfl, rfl, rfl, rfl⟩
  phase _ _ h := by cases h
  chk _ _ _ := ⟨rfl, rfl, rfl, rfl, rfl, rfl, rfl⟩
  paylen _ _ _ := ⟨rfl, rfl, rfl, rfl, rfl, rfl, rfl⟩
  request _ _ _ h _ := by cases h
  logTap _ _ _ := ⟨rfl, rfl, rfl, rfl, rfl, rfl, rfl⟩
  noteAck _ _ h := by cases h
  writeRequest _ _ _ _ h := by cases h
  writeAck _ _ h := by cases h
  startCode _ h := by cases h
  latch _ _ h := by cases h
  startData _ _ := ⟨rfl, rfl, rfl, rfl, rfl, rfl, rfl⟩
  appendRx _ _ _ := ⟨rfl, rfl, rfl, rfl, rfl, rfl, rfl⟩
  attempt _ _ := ⟨rfl, rfl, rfl, rfl, rfl, rfl, rfl⟩
  read _ _ _ _ := ⟨rfl, rfl, rfl, rfl, rfl, rfl, rfl⟩
  arrive _ h := absurd rfl h
  opening _ _ _ _ h := by cases h
  closing _ h := by cases h

/-! ### The record of transactions -/

/-- A record is in order when its two parts are (20_memory R61). -/
theorem runPort_append (b : Bool) (l m : List Event) :
    runPort b (l ++ m) = (runPort b l).bind fun c => runPort c m := by
  induction l generalizing b with
  | nil => rfl
  | cons e t ih =>
    simp only [List.cons_append, runPort]
    cases portAfter b e with
    | none => rfl
    | some c => exact ih c

/-- After a reset the engine has no port open, whatever went before (70_reset_and_hazards R250). -/
theorem runPort_reset {b c : Bool} {l : List Event} (h : runPort b l = some c) (p : Phase) :
    runPort b (l ++ [⟨p, .engineReset⟩]) = some false := by
  rw [runPort_append, h]; rfl

/-- `t`'s record of transactions is `s`'s with some more, each of them as `P` says. -/
def Extends (P : Event → Prop) (s t : State) : Prop := ∃ ext, t.trace = s.trace ++ ext ∧ ∀ e ∈ ext, P e

theorem Extends.refl {P : Event → Prop} {s t : State} (h : t.trace = s.trace) : Extends P s t :=
  ⟨[], by simp [h], by simp⟩

theorem Extends.trans {P : Event → Prop} {a b c : State} (h : Extends P a b) (g : Extends P b c) : Extends P a c := by
  obtain ⟨x, hx, px⟩ := h
  obtain ⟨y, hy, py⟩ := g
  refine ⟨x ++ y, by simp [hx, hy], fun e he => ?_⟩
  rcases List.mem_append.mp he with he | he
  · exact px e he
  · exact py e he

theorem Extends.one {P : Event → Prop} {s t : State} {e : Event} (h : t.trace = s.trace ++ [e]) (p : P e) :
    Extends P s t :=
  ⟨[e], h, by simpa using p⟩

/-- The bytes a list of read answers holds, part by part, in order (20_memory R61). -/
theorem pendingBytes_append (l m : List ReadAnswer) : pendingBytes (l ++ m) = pendingBytes l ++ pendingBytes m := by
  induction l with
  | nil => rfl
  | cons a t ih => cases a <;> simp [pendingBytes, ih]

/-- What the device sends comes behind all that is unread (20_memory R61). -/
theorem pendingBytes_arriving (b : List Byte) (s : State) :
    pendingBytes (arriving b s).reads = pendingBytes s.reads ++ b := by
  simp [pendingBytes_append, pendingBytes]

/-! ### One operation after another -/

/-- Two ends that differ in the result left over are delivered as one. -/
theorem deliver_rel {r : Option OpResult} {a b : Res Value} (h : Res.Rel (fun s t => t = withResult r s) a b) :
    deliver a = deliver b := by
  cases a <;> cases b
  · obtain ⟨h1, h2⟩ := h; subst h1 h2; rfl
  · exact h.elim
  · exact h.elim
  · obtain ⟨h1, h2⟩ := h; subst h1 h2; rfl

/-- After an operation that ended Ok in `u`, the next one starts from `u`, whatever result is left over. -/
theorem exec_after {i : Instr} {v : Value} {u : State} (p : Phase) (hu : u.busy = true) (he : u.err = none)
    (hr : ∀ s, refusalOf i s = none) :
    exec i { deliver (.ok v u) with phase := p } = .next (deliver (bodyOf i (setPhase p u))) := by
  rw [exec_next (by rfl) (hr _)]
  congr 1
  refine (deliver_rel (r := some (.ok v)) ?_).symm
  refine (twin_result (some (.ok v))).body i ?_
  cases u
  simp_all [beginOp, deliver, withResult, setPhase]

end Sys2Proof.Machine
end

