-- ==== Sys2Proof/Laws/Cycles.lean ====
section
/-! SUPPORT. A response cycle step by step: how a part ends as a pair of conditions, a rule that carries conditions through
the four steps of RESP_CYCLE, and what each step does to the buffers, the view of the payload and the record of
transactions. -/

namespace Sys2Proof.Machine

/-- A delivery writes BUSY and the result, nothing else (10_state R34). -/
theorem deliver_fields (r : Res Value) : ∃ b x, deliver r = { r.state with busy := b, result := x } := by
  cases r <;> exact ⟨_, _, rfl⟩

/-- What refuses an operation depends on the connection flag and the parameters only. -/
theorem refusalOf_params {i : Instr} {s t : State} (h : s.connOpen = t.connOpen) (g : s.params = t.params) :
    refusalOf i s = refusalOf i t := by
  cases i <;> simp [refusalOf, refusePayload, h, g]

/-! ### Conditions at the end of a part -/

/-- How a part ends: Ok with `P`, or a failure with `F`. -/
def Res.Post {α : Type} (P : α → State → Prop) (F : State → Prop) : Res α → Prop
  | .ok v s => P v s
  | .fail _ s => F s

theorem Res.Post.bind {α β : Type} {P : α → State → Prop} {Q : β → State → Prop} {F : State → Prop} {r : Res α}
    {f : α → State → Res β} (h : Res.Post P F r) (hf : ∀ v s, P v s → Res.Post Q F (f v s)) :
    Res.Post Q F (r.bind f) := by
  cases r with
  | ok v s => exact hf v s h
  | fail k s => exact h

theorem Res.Post.mono {α : Type} {P Q : α → State → Prop} {F G : State → Prop} {r : Res α} (h : Res.Post P F r)
    (hp : ∀ v s, P v s → Q v s) (hf : ∀ s, F s → G s) : Res.Post Q G r := by
  cases r with
  | ok v s => exact hp v s h
  | fail k s => exact hf s h

theorem Res.Post.of_state {α : Type} {F : State → Prop} {r : Res α} (h : F r.state) : Res.Post (fun _ => F) F r := by
  cases r <;> exact h

/-- Two conditions at once. -/
theorem Res.Post.and {α : Type} {P Q : α → State → Prop} {F G : State → Prop} {r : Res α} (h : Res.Post P F r)
    (g : Res.Post Q G r) :
    Res.Post (fun v t => P v t ∧ Q v t) (fun t => F t ∧ G t) r := by
  cases r <;> exact ⟨h, g⟩

/-! ### The connection flag and the parameters through the steps -/

theorem readCode_conn (s : State) : (readCode s).state.connOpen = s.connOpen :=
  ((prims_session (i := .readCode) rfl rfl).stages.readCode rfl rfl s).1

theorem readData_conn (s : State) : (readData s).state.connOpen = s.connOpen :=
  ((prims_session (i := .readData) rfl rfl).stages.readData rfl rfl s).1

theorem emitAck_conn (s : State) : (emitAck s).state.connOpen = s.connOpen :=
  ((prims_session (i := .emitAck) rfl rfl).stages.emitAck rfl rfl s).1

theorem readCode_params (s : State) : (readCode s).state.params = s.params :=
  ((prims_kept .readCode).stages.readCode rfl rfl s).params

theorem readData_params (s : State) : (readData s).state.params = s.params :=
  ((prims_kept .readData).stages.readData rfl rfl s).params

theorem emitAck_params (s : State) : (emitAck s).state.params = s.params :=
  ((prims_kept .emitAck).stages.emitAck rfl rfl s).params

/-! ### The four steps of RESP_CYCLE (41_handshake_engine R149) -/

/-- What a cycle's four steps establish one after the other. -/
structure CycleWalk (P1 Q1 P2 : State → Prop) (Q2 Q3 P4 Q4 R : List Byte → State → Prop) (F : State → Prop) : Prop where
  code1 : ∀ s, s.connOpen = true → P1 s → Res.Post (fun _ => Q1) F (readCode s)
  notAck : ∀ s, Q1 s → F (enterFailed .responseNotAck s)
  toData : ∀ s, Q1 s → P2 (setPhase .awaitingData s)
  data : ∀ s, s.connOpen = true → P2 s → Res.Post Q2 F (readData s)
  ack : ∀ q s, s.connOpen = true → Q2 q s → Res.Post (fun _ => Q3 q) F (emitAck s)
  toEot : ∀ q s, Q3 q s → P4 q (setPhase .awaitingEot s)
  code2 : ∀ q s, s.connOpen = true → P4 q s → Res.Post (fun _ => Q4 q) F (readCode s)
  notEot : ∀ q s, Q4 q s → F (enterFailed .responseNotEot s)
  complete : ∀ q s, Q4 q s → R q (setPhase .complete s)

/-- The cycle, from what its steps establish. -/
theorem CycleWalk.respCycle {P1 Q1 P2 : State → Prop} {Q2 Q3 P4 Q4 R : List Byte → State → Prop} {F : State → Prop}
    (h : CycleWalk P1 Q1 P2 Q2 Q3 P4 Q4 R F) {s : State} (ho : s.connOpen = true) (h1 : P1 (setPhase .awaitingAck s)) :
    Res.Post R F (respCycle s) := by
  have conn : ∀ {α : Type} {r : Res α} {P : α → State → Prop}, r.state.connOpen = true → Res.Post P F r →
      Res.Post (fun v t => t.connOpen = true ∧ P v t) F r := by
    intro α r P hc h
    cases r with
    | ok v t => exact ⟨hc, h⟩
    | fail k t => exact h
  rw [Machine.respCycle, needOpen_open ho]
  refine Res.Post.bind (conn ((readCode_conn _).trans ho) (h.code1 _ ho h1)) fun c1 s1 ⟨o1, q1⟩ => ?_
  split
  · exact h.notAck _ q1
  refine Res.Post.bind (conn ((readData_conn _).trans o1) (h.data _ o1 (h.toData _ q1))) fun q s2 ⟨o2, q2⟩ => ?_
  refine Res.Post.bind (conn ((emitAck_conn _).trans o2) (h.ack _ _ o2 q2)) fun _ s3 ⟨o3, q3⟩ => ?_
  refine Res.Post.bind (h.code2 q _ o3 (h.toEot _ _ q3)) fun c2 s4 q4 => ?_
  split
  · exact h.notEot _ _ q4
  · exact h.complete _ _ q4

/-! ### What each step does to the buffers -/

/-- READ_CODE's frame (41_handshake_engine R144). -/
theorem readCode_kept (s : State) (ho : s.connOpen = true) : CodeKept s (readCode s).state := by
  rw [readCode, needOpen_open ho]
  exact prims_codeKept.trans (prims_codeKept.startCode s rfl) (prims_codeKept.readCodeLoop rfl _ _ ho)

/-- READ_DATA's loop writes RXBUF below the RXLEN it ends with (20_memory R51). -/
theorem readDataLoop_above (n : Nat) (s : State) (m : Memory)
   (hm : ∀ a, s.rxlen ≤ a → Memory.read s.rxbuf a = Memory.read m a) :
   ∀ a, (readDataLoop n s).state.rxlen ≤ a → Memory.read (readDataLoop n s).state.rxbuf a = Memory.read m a := by
  induction n generalizing s with
  | zero => exact hm
  | succ n ih =>
    unfold readDataLoop
    dsimp only
    split
    · exact hm
    · next b hb =>
      have h2 : ∀ a, (appendRx b (logRead b (portRead (countAttempt s).params.dataReadCap (countAttempt s)))).rxlen ≤ a →
         Memory.read (appendRx b (logRead b (portRead (countAttempt s).params.dataReadCap (countAttempt s)))).rxbuf a = Memory.read m a := by
        intro a ha
        simp only [appendRx_rxlen, logRead_rxlen, portRead_rxlen, countAttempt_rxlen] at ha
        simp only [appendRx_rxbuf, logRead_rxbuf, portRead_rxbuf, countAttempt_rxbuf, logRead_rxlen, portRead_rxlen, countAttempt_rxlen]
        rw [Memory.read_writeRange_above _ _ _ ha]
        exact hm a (by omega)
      split
      · obtain ⟨-, e2, e3, -⟩ := parseResp_keeps
          (rxBytes (appendRx b (logRead b (portRead (countAttempt s).params.dataReadCap (countAttempt s)))))
          (appendRx b (logRead b (portRead (countAttempt s).params.dataReadCap (countAttempt s))))
        rw [e2, e3]; exact h2
      · exact ih _ h2

/-- READ_DATA writes RXBUF below the RXLEN it ends with (20_memory R51). -/
theorem readData_above (s : State) : ∀ a, (readData s).state.rxlen ≤ a →
    Memory.read (readData s).state.rxbuf a = Memory.read s.rxbuf a := by
  unfold readData needOpen
  split
  · exact readDataLoop_above _ _ _ (fun _ _ => rfl)
  · exact fun _ _ => rfl

/-- A payload returned by the loop is the view of a well-formed frame in RXBUF. -/
theorem readDataLoop_post (n : Nat) (s : State) :
    Res.Post (fun q t => WellFormedRsp (rxBytes t) ∧ payloadView t = q) (fun _ => True) (readDataLoop n s) := by
  induction n generalizing s with
  | zero => trivial
  | succ n ih =>
    unfold readDataLoop
    dsimp only
    split
    · trivial
    · split
      · next b _ _ =>
        generalize appendRx b _ = u
        cases e : parseResp (rxBytes u) u with
        | fail k t => trivial
        | ok q t =>
          obtain ⟨hw, hq, ht⟩ := parseResp_eq_ok e
          subst ht
          refine ⟨hw, ?_⟩
          show Memory.readRange u.rxbuf 3 ((rxBytes u).length - 5) = q
          rw [hq]
          have hl : (rxBytes u).length = u.rxlen := Memory.readRange_length _ _ _
          have h5 := hw.1
          refine List.ext_getElem? fun k => ?_
          rcases Nat.lt_or_ge k ((rxBytes u).length - 5) with hk | hk
          · rw [Memory.readRange_getElem? _ _ _ _ hk, List.getElem?_take, if_pos hk, List.getElem?_drop, rxBytes,
              Memory.readRange_getElem? _ _ _ _ (by omega), Nat.zero_add]
          · rw [List.getElem?_eq_none (by simpa using hk), List.getElem?_eq_none (by simp; omega)]
      · exact ih _

/-- A payload returned by READ_DATA is the view of a well-formed frame in RXBUF (10_state R39). -/
theorem readData_post (s : State) :
    Res.Post (fun q t => WellFormedRsp (rxBytes t) ∧ payloadView t = q) (fun _ => True) (readData s) := by
  unfold readData needOpen
  split
  · exact readDataLoop_post _ _
  · trivial

/-- What EMIT_ACK leaves of a received frame (41_handshake_engine R148). -/
structure AckKept (s t : State) : Prop where
  rxbuf : t.rxbuf = s.rxbuf
  rxlen : t.rxlen = s.rxlen
  paylen : t.paylen = s.paylen

theorem emitAck_kept (s : State) : AckKept s (emitAck s).state := by
  unfold emitAck needOpen
  split <;> constructor <;> simp [raise, enterFailed]

/-! ### What each step adds to the record of transactions -/

/-- A record grows by events that are as `P` says when every transaction of the operation is. -/
theorem prims_extends (i : Instr) (P : Event → Prop)
   (hw : ∀ c p ph a, requestOf i = some (c, p) → P ⟨ph, .wrote (reqFrame c p) a⟩)
   (ha : ∀ ph a, runsEmitAck i = true → P ⟨ph, .wrote [Wire.ack] a⟩)
   (hr : ∀ ph cap a, P ⟨ph, .got cap a⟩) (ho : ∀ ph cfg a, P ⟨ph, .opened cfg a⟩) (hc : ∀ ph a, P ⟨ph, .closed a⟩) :
   Prims i (Extends P) where
  refl _ := .refl rfl
  trans h g := h.trans g
  raising k _ hk := .refl rfl
  phase _ _ _ := .refl rfl
  chk _ _ _ := .refl rfl
  paylen _ _ _ := .refl rfl
  request _ _ _ _ _ := .refl rfl
  logTap _ _ _ := .refl rfl
  noteAck a _ _ := by cases a <;> exact .refl rfl
  writeRequest c p s _ h := .one (e := ⟨s.phase, .wrote (reqFrame c p) (writeAnswer s)⟩) rfl (hw _ _ _ _ h)
  writeAck s _ h := .one (e := ⟨s.phase, .wrote [Wire.ack] (writeAnswer s)⟩) rfl (ha _ _ h)
  startCode _ _ := .refl rfl
  latch _ _ _ := .refl rfl
  startData _ _ := .refl rfl
  appendRx _ _ _ := .refl rfl
  attempt _ _ := .refl rfl
  read cap s _ _ := .one (e := ⟨s.phase, .got cap (readAnswer cap s)⟩) rfl (hr _ _ _)
  arrive _ _ := .refl rfl
  opening path baud log s h _ := by
    rw [connOpenBody]
    cases e : openAnswer (configure path baud log s)
    all_goals exact .one (e := ⟨s.phase, .opened _ (openAnswer (configure path baud log s))⟩) rfl (ho _ _ _)
  closing s _ _ := .one (e := ⟨s.phase, .closed (closeAnswer s)⟩) rfl (hc _ _)

/-- The record grows by at most `n` reads, all in phase `p`. -/
def ReadsIn (p : Phase) (n : Nat) (s t : State) : Prop :=
  ∃ ext, t.trace = s.trace ++ ext ∧ ext.length ≤ n ∧ ∀ e ∈ ext, isRead e = true ∧ e.phase = p

/-- READ_CODE's loop reads in one phase and keeps it when it ends Ok (41_handshake_engine R152). -/
theorem readCodeLoop_reads (n : Nat) (s : State) : ReadsIn s.phase n s (readCodeLoop n s).state ∧
   Res.Post (fun _ t => t.phase = s.phase) (fun _ => True) (readCodeLoop n s) := by
  induction n generalizing s with
  | zero => exact ⟨⟨[], by simp [readCodeLoop, raise, enterFailed]⟩, trivial⟩
  | succ n ih =>
    unfold readCodeLoop
    dsimp only
    split
    · exact ⟨⟨[⟨s.phase, .got codeReadCap _⟩], rfl, by simp, by simp [isRead]⟩, trivial⟩
    · obtain ⟨⟨ext, h1, h2, h3⟩, h4⟩ := ih (portRead codeReadCap (countAttempt s))
      refine ⟨⟨⟨s.phase, .got codeReadCap _⟩ :: ext, by rw [h1]; simp only [portRead, List.append_assoc]; rfl, by simpa using h2, ?_⟩, h4⟩
      intro e he
      rcases List.mem_cons.mp he with rfl | he
      · exact ⟨rfl, rfl⟩
      · exact h3 e he
    · refine ⟨⟨[⟨s.phase, .got codeReadCap _⟩], by simp only [Res.state_ok, latchCode_trace, logTap_trace]; rfl, by simp, by simp [isRead]⟩, ?_⟩
      simp [Res.Post]

theorem parseResp_phase (raw : List Byte) (s : State) : Res.Post (fun _ t => t.phase = s.phase) (fun _ => True) (parseResp raw s) := by
  rcases parseResp_verdict raw with v | v | v | v <;> rw [v] <;> trivial

/-- READ_DATA's loop reads in one phase and keeps it when it ends Ok (41_handshake_engine R152). -/
theorem readDataLoop_reads (n : Nat) (s : State) : ReadsIn s.phase n s (readDataLoop n s).state ∧
   Res.Post (fun _ t => t.phase = s.phase) (fun _ => True) (readDataLoop n s) := by
  induction n generalizing s with
  | zero => exact ⟨⟨[], by simp [readDataLoop, raise, enterFailed]⟩, trivial⟩
  | succ n ih =>
    unfold readDataLoop
    dsimp only
    split
    · exact ⟨⟨[⟨s.phase, .got _ _⟩], rfl, by simp, by simp [isRead]⟩, trivial⟩
    · next b hb =>
      generalize hu : appendRx b (logRead b (portRead (countAttempt s).params.dataReadCap (countAttempt s))) = u
      have ht : u.trace = s.trace ++ [⟨s.phase, .got s.params.dataReadCap (readAnswer s.params.dataReadCap (countAttempt s))⟩] := by
        subst hu; simp only [appendRx_trace, logRead_trace]; rfl
      have hp : u.phase = s.phase := by subst hu; simp
      split
      · obtain ⟨-, -, -, h4⟩ := parseResp_keeps (rxBytes u) u
        refine ⟨⟨[_], h4.trans ht, by simp, by simp [isRead]⟩, ?_⟩
        exact (parseResp_phase _ _).mono (fun _ _ h => h.trans hp) fun _ h => h
      · obtain ⟨⟨ext, h1, h2, h3⟩, h4⟩ := ih u
        refine ⟨⟨_ :: ext, by rw [h1, ht, List.append_assoc]; rfl, by simpa using h2, ?_⟩, h4.mono (fun _ _ h => h.trans hp) fun _ h => h⟩
        intro e he
        rcases List.mem_cons.mp he with rfl | he
        · exact ⟨rfl, rfl⟩
        · exact ⟨(h3 e he).1, (h3 e he).2.trans hp⟩

theorem readCode_reads (s : State) : ReadsIn s.phase s.params.maxReadAttempts s (readCode s).state ∧
   Res.Post (fun _ t => t.phase = s.phase) (fun _ => True) (readCode s) := by
  unfold readCode needOpen
  split
  · exact readCodeLoop_reads _ (startCode s)
  · exact ⟨⟨[], by simp [raise, enterFailed]⟩, trivial⟩

theorem readData_reads (s : State) : ReadsIn s.phase s.params.maxReadAttempts s (readData s).state ∧
   Res.Post (fun _ t => t.phase = s.phase) (fun _ => True) (readData s) := by
  unfold readData needOpen
  split
  · exact readDataLoop_reads _ (startData s)
  · exact ⟨⟨[], by simp [raise, enterFailed]⟩, trivial⟩

/-- EMIT_ACK on an open connection writes once and ends Ok (41_handshake_engine R148). -/
theorem emitAck_open {s : State} (ho : s.connOpen = true) : ∃ a t, emitAck s = .ok () t ∧ t.trace = s.trace ++ [⟨s.phase, .wrote [0x06] a⟩] ∧ t.phase = s.phase := by
  rw [emitAck, needOpen_open ho]
  refine ⟨writeAnswer s, _, rfl, ?_, ?_⟩
  · simp only [noteAckWrite_trace]; rfl
  · simp

/-- SEND_REQ writes its frame at most once, and ends Ok only when the write answered Ok (41_handshake_engine R143). -/
theorem sendReq_trace (c p) (s : State) :
   (∃ a k t, sendReq c p s = .fail k t ∧ (t.trace = s.trace ∨ t.trace = s.trace ++ [⟨s.phase, .wrote (reqFrame c p) a⟩] ∧ a ≠ .ok)) ∨
   ∃ t, sendReq c p s = .ok () t ∧ t.params = s.params ∧ t.trace = s.trace ++ [⟨s.phase, .wrote (reqFrame c p) .ok⟩] := by
  by_cases ho : s.connOpen = true
  · rw [sendReq_open ho]
    cases e : writeAnswer s with
    | ok => 
      right; refine ⟨_, rfl, ?_, ?_⟩
      · rfl
      · rw [← e]; rfl
    | ioErr n => 
      left; refine ⟨.ioErr n, _, _, rfl, .inr ⟨?_, by simp⟩⟩
      rw [← e]; rfl
  · left; rw [sendReq, needOpen_closed (by simpa using ho)]; exact ⟨.ok, _, _, rfl, .inl rfl⟩

/-- What a command adds to its record is no transaction. -/
theorem commandBody_trace (i c p) (s : State) : (commandBody i c p s).state.trace = (command c p s).state.trace := by
  unfold commandBody
  cases e2 : command c p s
  · simp only [Res.bind_ok]
    cases i
    case readParam | writeParam => simp only [checkParamAck]; split <;> rfl
    all_goals rfl
  · rfl

end Sys2Proof.Machine
end

