-- ==== Sys2Proof/Laws/Decode.lean ====
section
/-! SUPPORT. The laws of the decoder's and the encoder's parts: frames, numbers, items and code bytes come back as they
were put in, and what is read comes from one frame only. -/

namespace Sys2Proof

/-- Any code byte but three is unrecognized (30_encoding R91). -/
theorem classify_other {b : Byte} (h1 : b ≠ 0x06) (h2 : b ≠ 0x15) (h3 : b ≠ 0x04) :
    classify b = .errorUnrecognized := by
  have g1 : ¬ b = Wire.ack := h1
  have g2 : ¬ b = Wire.nack := h2
  have g3 : ¬ b = Wire.eot := h3
  rw [classify, if_neg g1, if_neg g2, if_neg g3]

/-- A code byte is the one its class names, or no other (30_encoding R91). -/
theorem classify_cases (b : Byte) :
    (b = 0x06 ∧ classify b = .ack) ∨ (b = 0x15 ∧ classify b = .nack) ∨ (b = 0x04 ∧ classify b = .eot) ∨
      (b ≠ 0x06 ∧ b ≠ 0x15 ∧ b ≠ 0x04 ∧ classify b = .errorUnrecognized) := by
  by_cases h1 : b = 0x06
  · subst h1; exact .inl ⟨rfl, rfl⟩
  by_cases h2 : b = 0x15
  · subst h2; exact .inr <| .inl ⟨rfl, rfl⟩
  by_cases h3 : b = 0x04
  · subst h3; exact .inr <| .inr <| .inl ⟨rfl, rfl⟩
  · exact .inr <| .inr <| .inr ⟨h1, h2, h3, classify_other h1 h2 h3⟩

/-- Numbers put into a payload are the numbers read from it (30_encoding R92). -/
theorem payloadNums_numPayload (a : List Nat) (h : ∀ v ∈ a, v ≤ 0xDF) :
    payloadNums (numPayload a) = some a := by
  induction a with
  | nil => rfl
  | cons v t ih =>
    have hv := h v (by simp)
    have e : (numByte v).toNat = v + 0x20 := by simp [numByte, Wire.numOffset]; omega
    have ih' := ih (fun v hv => h v (by simp [hv]))
    simp only [numPayload] at ih'
    simp [numPayload, payloadNums, e, Wire.numOffset, ih']

/-- A payload before TextEnd and checksum is found by position (30_encoding R88). -/
theorem splitFrame_ok (hd p : List Byte) :
    splitFrame hd (p ++ [Wire.textEnd, checksum (hd ++ p ++ [Wire.textEnd])]) = .ok p := by
  have h1 : (p ++ [Wire.textEnd, checksum (hd ++ p ++ [Wire.textEnd])]).length - 2 = p.length := by simp
  unfold splitFrame
  rw [h1, List.drop_left, List.take_left]
  simp

/-- A request frame read back (40_frame_codec R127). -/
theorem decodeReqFrame_reqFrame (c : Byte) (p : List Byte) : decodeReqFrame (reqFrame c p) = .ok (c, p) := by
  have := splitFrame_ok [Wire.requestStart, Wire.deviceAddress, Wire.textStart, c] p
  simp only [reqFrame, List.cons_append, List.nil_append, List.append_assoc] at *
  simp [decodeReqFrame, this, -checksum_cons, -checksum_append]

/-- A response frame read back (30_encoding R85). -/
theorem decodeRspFrame_rspFrame (p : List Byte) : decodeRspFrame (rspFrame p) = .ok p := by
  have := splitFrame_ok [Wire.responseStart, Wire.deviceAddress, Wire.textStart] p
  simp only [rspFrame, List.cons_append, List.nil_append, List.append_assoc] at *
  simp [decodeRspFrame, this, -checksum_cons, -checksum_append]

/-- An item's three digits name it (30_encoding R93). -/
theorem itemOfText_item (k : Nat) (h : k ≤ 999) :
    itemOfText (BitVec.ofNat 8 (0x30 + k / 100)) (BitVec.ofNat 8 (0x30 + k / 10 % 10)) (BitVec.ofNat 8 (0x30 + k % 10)) =
      some k := by
  have h1 : (BitVec.ofNat 8 (0x30 + k / 100)).toNat = 0x30 + k / 100 := by simp; omega
  have h2 : (BitVec.ofNat 8 (0x30 + k / 10 % 10)).toNat = 0x30 + k / 10 % 10 := by simp; omega
  have h3 : (BitVec.ofNat 8 (0x30 + k % 10)).toNat = 0x30 + k % 10 := by simp; omega
  unfold itemOfText
  rw [h1, h2, h3, if_pos (by omega)]
  congr 1; omega

/-- What is split off ends in TextEnd and the checksum. -/
theorem splitFrame_eq_ok {hd rest p : List Byte} (h : splitFrame hd rest = .ok p) :
    rest = p ++ [Wire.textEnd, checksum (hd ++ p ++ [Wire.textEnd])] := by
  unfold splitFrame at h
  split at h
  · next e k hk =>
    split at h
    · next he =>
      subst he
      split at h
      · next hc =>
        cases h
        rw [← hc, ← hk, List.take_append_drop]
      · cases h
    · cases h
  · cases h

/-- The numbers read are the payload's, each within 0xDF. -/
theorem payloadNums_inv {p : List Byte} {a : List Nat} (h : payloadNums p = some a) : numPayload a = p ∧ ∀ v ∈ a, v ≤ 0xDF := by
  induction p generalizing a with
  | nil => cases h; simp [numPayload]
  | cons b t ih =>
    simp only [payloadNums] at h
    split at h
    · next hb =>
      split at h
      · next r hr =>
        cases h
        obtain ⟨i1, i2⟩ := ih hr
        have hlt := b.isLt
        simp only [Wire.numOffset] at *
        refine ⟨?_, ?_⟩
        · simp only [numPayload, List.map_cons] at *
          rw [i1]
          congr 1
          simp only [numByte, Wire.numOffset]
          rw [Nat.sub_add_cancel hb]; simp
        · intro v hv
          rcases List.mem_cons.mp hv with rfl | hv
          · omega
          · exact i2 v hv
      · cases h
    · cases h

/-- The item read is the text's, within 999. -/
theorem itemOfText_inv {h t u : Byte} {k : Nat} (e : itemOfText h t u = some k) : itemText k = [h, t, u] ∧ k ≤ 999 := by
  unfold itemOfText at e
  split at e
  · next hh =>
    cases e
    refine ⟨?_, by omega⟩
    simp only [itemText]
    have e1 : 0x30 + (100 * (h.toNat - 48) + 10 * (t.toNat - 48) + (u.toNat - 48)) / 100 = h.toNat := by omega
    have e2 : 0x30 + (100 * (h.toNat - 48) + 10 * (t.toNat - 48) + (u.toNat - 48)) / 10 % 10 = t.toNat := by omega
    have e3 : 0x30 + (100 * (h.toNat - 48) + 10 * (t.toNat - 48) + (u.toNat - 48)) % 10 = u.toNat := by omega
    rw [e1, e2, e3]; simp
  · cases e

/-- Only the request frame of a command code and payload decodes to them. -/
theorem decodeReqFrame_inv {f p : List Byte} {c : Byte} (h : decodeReqFrame f = .ok (c, p)) : f = reqFrame c p := by
  unfold decodeReqFrame at h
  split at h
  · next a b t c' rest =>
    split at h
    · next hh =>
      obtain ⟨rfl, rfl, rfl⟩ := hh
      split at h
      · next p' hp =>
        cases h
        rw [splitFrame_eq_ok hp]
        simp [reqFrame]
      · cases h
    · cases h
  · cases h

/-- Only the response frame of a payload decodes to it. -/
theorem decodeRspFrame_inv {f p : List Byte} (h : decodeRspFrame f = .ok p) : f = rspFrame p := by
  unfold decodeRspFrame at h
  split at h
  · next a b t rest =>
    split at h
    · next hh =>
      obtain ⟨rfl, rfl, rfl⟩ := hh
      rw [splitFrame_eq_ok h]
      simp [rspFrame]
    · cases h
  · cases h

/-- A numeric command read comes from its numbers. -/
theorem withNums_inv {c : Byte} {p : List Byte} {f : List Nat → Instr} {i : Instr} (h : withNums c p f = .ok i) :
    ∃ a, i = f a ∧ numPayload a = p ∧ ∀ v ∈ a, v ≤ 0xDF := by
  unfold withNums at h
  split at h
  · next a ha => cases h; exact ⟨a, rfl, payloadNums_inv ha⟩
  · cases h


/-- The one number of DISPENSE. -/
theorem withOneNum_inv {c : Byte} {p : List Byte} {f : Nat → Instr} {i : Instr} (h : withOneNum c p f = .ok i) :
    ∃ n, i = f n ∧ numPayload [n] = p ∧ n ≤ 0xDF := by
  rcases hn : payloadNums p with _ | (_ | ⟨n, _ | _⟩) <;> simp only [withOneNum, hn] at h <;> cases h
  obtain ⟨h1, h2⟩ := payloadNums_inv hn
  exact ⟨n, rfl, h1, h2 n (by simp)⟩

/-- The item of READ_PARAM. -/
theorem withItem_inv {c : Byte} {p : List Byte} {f : Nat → Instr} {i : Instr} (h : withItem c p f = .ok i) :
    ∃ k, i = f k ∧ readParamPayload k = p ∧ k ≤ 999 := by
  unfold withItem at h
  split at h
  · split at h
    · next hh =>
      obtain ⟨rfl, rfl⟩ := hh
      split at h
      · next k hk =>
        cases h
        obtain ⟨h1, h2⟩ := itemOfText_inv hk
        exact ⟨k, rfl, by simp [readParamPayload, h1], h2⟩
      · cases h
    · cases h
  · cases h

/-- The item and the value of WRITE_PARAM. -/
theorem withItemValue_inv {c : Byte} {p : List Byte} {f : Nat → List Byte → Instr} {i : Instr}
    (h : withItemValue c p f = .ok i) : ∃ k v, i = f k v ∧ writeParamPayload k v = p ∧ k ≤ 999 := by
  unfold withItemValue at h
  split at h
  · split at h
    · next hh =>
      obtain ⟨rfl, rfl, rfl⟩ := hh
      split at h
      · next k hk =>
        cases h
        obtain ⟨h1, h2⟩ := itemOfText_inv hk
        exact ⟨k, _, rfl, by simp [writeParamPayload, h1], h2⟩
      · cases h
    · cases h
  · cases h

/-- The command a code and payload decode to is well formed and is encoded by that frame (30_encoding R89). -/
theorem decodeCommand_inv {c : Byte} {p : List Byte} {i : Instr} (h : decodeCommand c p = .ok i) :
    encode i = .req (reqFrame c p) ∧ i.wellFormed = true := by
  unfold decodeCommand at h
  by_cases e : c = 0x40
  · rw [if_pos e] at h
    subst e
    obtain ⟨a, rfl, rfl, ha⟩ := withNums_inv h
    exact ⟨rfl, by simpa [Instr.wellFormed, numInDomain] using ha⟩
  rw [if_neg e] at h
  clear e
  by_cases e : c = 0x41
  · rw [if_pos e] at h
    subst e
    obtain ⟨a, rfl, rfl, ha⟩ := withNums_inv h
    exact ⟨rfl, by simpa [Instr.wellFormed, numInDomain] using ha⟩
  rw [if_neg e] at h
  clear e
  by_cases e : c = 0x42
  · rw [if_pos e] at h
    subst e
    obtain ⟨a, rfl, rfl, ha⟩ := withOneNum_inv h
    exact ⟨rfl, by simpa [Instr.wellFormed, numInDomain] using ha⟩
  rw [if_neg e] at h
  clear e
  by_cases e : c = 0x43
  · rw [if_pos e] at h
    subst e
    obtain ⟨a, rfl, rfl, ha⟩ := withNums_inv h
    exact ⟨rfl, by simpa [Instr.wellFormed, numInDomain] using ha⟩
  rw [if_neg e] at h
  clear e
  by_cases e : c = 0x44
  · rw [if_pos e] at h
    subst e
    obtain ⟨a, rfl, rfl, ha⟩ := withNums_inv h
    exact ⟨rfl, by simpa [Instr.wellFormed, numInDomain] using ha⟩
  rw [if_neg e] at h
  clear e
  by_cases e : c = 0x45
  · rw [if_pos e] at h
    subst e
    obtain ⟨a, rfl, rfl, ha⟩ := withNums_inv h
    exact ⟨rfl, by simpa [Instr.wellFormed, numInDomain] using ha⟩
  rw [if_neg e] at h
  clear e
  by_cases e : c = 0x46
  · rw [if_pos e] at h
    subst e
    obtain ⟨a, rfl, rfl, ha⟩ := withNums_inv h
    exact ⟨rfl, by simpa [Instr.wellFormed, numInDomain] using ha⟩
  rw [if_neg e] at h
  clear e
  by_cases e : c = 0x47
  · rw [if_pos e] at h
    subst e
    obtain ⟨a, rfl, rfl, ha⟩ := withNums_inv h
    exact ⟨rfl, by simpa [Instr.wellFormed, numInDomain] using ha⟩
  rw [if_neg e] at h
  clear e
  by_cases e : c = 0x48
  · rw [if_pos e] at h
    subst e
    obtain ⟨a, rfl, rfl, ha⟩ := withNums_inv h
    exact ⟨rfl, by simpa [Instr.wellFormed, numInDomain] using ha⟩
  rw [if_neg e] at h
  clear e
  by_cases e : c = 0x4A
  · rw [if_pos e] at h
    subst e
    obtain ⟨a, rfl, rfl, ha⟩ := withNums_inv h
    exact ⟨rfl, by simpa [Instr.wellFormed, numInDomain] using ha⟩
  rw [if_neg e] at h
  clear e
  by_cases e : c = 0x4B
  · rw [if_pos e] at h
    subst e
    obtain ⟨a, rfl, rfl, ha⟩ := withNums_inv h
    exact ⟨rfl, by simpa [Instr.wellFormed, numInDomain] using ha⟩
  rw [if_neg e] at h
  clear e
  by_cases e : c = 0x52
  · rw [if_pos e] at h
    subst e
    obtain ⟨a, rfl, rfl, ha⟩ := withItem_inv h
    exact ⟨rfl, by simpa [Instr.wellFormed, itemInDomain] using ha⟩
  rw [if_neg e] at h
  clear e
  by_cases e : c = 0x57
  · rw [if_pos e] at h
    subst e
    obtain ⟨a, v, rfl, rfl, ha⟩ := withItemValue_inv h
    exact ⟨rfl, by simpa [Instr.wellFormed, itemInDomain] using ha⟩
  rw [if_neg e] at h
  clear e
  by_cases e : c = 0x54
  · rw [if_pos e] at h
    subst e
    obtain ⟨a, rfl, rfl, ha⟩ := withNums_inv h
    exact ⟨rfl, by simpa [Instr.wellFormed, numInDomain] using ha⟩
  rw [if_neg e] at h
  clear e
  cases h

end Sys2Proof
end

