-- ==== Sys2Proof/Laws/PerInstr.lean ====
section
/-! SUPPORT. The family EncodeRow: the encoding of every operation has the format and the fixed bits of its row of
spec/opcode_table.json (30_encoding R100). One lemma a constructor. -/

namespace Sys2Proof.Laws.EncodeRow

/-- A row of the table: its format, and the fixed bits of the row (the OPSEL, the header bytes, the byte). -/
inductive Row where
  | hostop (opsel : BitVec 4)
  | frame (header : List Byte)
  | response (header : List Byte)
  | code (b : Byte)
  | anyCode
  | ackb (b : Byte)

/-- An item has the format and the fixed bits of a row. -/
def Row.matches (r : Row) (it : Item) : Prop :=
  match r with
  | .hostop n => ∃ args, it = .hostop n args
  | .frame h => ∃ rest, it = .req (h ++ rest)
  | .response h => ∃ rest, it = .rsp (h ++ rest)
  | .code b => it = .code b
  | .anyCode => ∃ b, it = .code b
  | .ackb b => it = .ackb b

/-- The row of each operation, column "match" of the table. -/
def rowOf (i : Instr) : Row :=
  match i with
  | .checksum _ => .hostop 0x0
  | .buildReq _ _ => .hostop 0x1
  | .parseResp _ => .hostop 0x2
  | .connOpen _ _ _ => .hostop 0x3
  | .connClose => .hostop 0x4
  | .sendReq _ _ => .hostop 0x5
  | .readCode => .hostop 0x6
  | .readData => .hostop 0x7
  | .emitAck => .hostop 0x8
  | .respCycle => .hostop 0x9
  | .encNum _ => .hostop 0xA
  | .decNum _ => .hostop 0xB
  | .encItem _ => .hostop 0xC
  | .command _ _ => .hostop 0xD
  | .decodeReply _ => .hostop 0xE
  | .decodeStatus _ => .hostop 0xF
  | .status _ => .frame [0x04, 0x30, 0x02, 0x40]
  | .purge _ => .frame [0x04, 0x30, 0x02, 0x41]
  | .dispense _ => .frame [0x04, 0x30, 0x02, 0x42]
  | .testDispense _ => .frame [0x04, 0x30, 0x02, 0x43]
  | .reset _ => .frame [0x04, 0x30, 0x02, 0x44]
  | .lastStatus _ => .frame [0x04, 0x30, 0x02, 0x45]
  | .configStatus _ => .frame [0x04, 0x30, 0x02, 0x46]
  | .ddDiag _ => .frame [0x04, 0x30, 0x02, 0x47]
  | .sensorDiag _ => .frame [0x04, 0x30, 0x02, 0x48]
  | .snDispense _ => .frame [0x04, 0x30, 0x02, 0x4A]
  | .snEject _ => .frame [0x04, 0x30, 0x02, 0x4B]
  | .readParam _ => .frame [0x04, 0x30, 0x02, 0x52]
  | .writeParam _ _ => .frame [0x04, 0x30, 0x02, 0x57]
  | .testMode _ => .frame [0x04, 0x30, 0x02, 0x54]
  | .ack => .code 0x06
  | .nack => .code 0x15
  | .eot => .code 0x04
  | .unrecognized _ => .anyCode
  | .ackEmit => .ackb 0x06
  | .rspFrame _ => .response [0x01, 0x30, 0x02]

/-- The encoding of an operation matches its row. -/
def Statement (i : Instr) : Prop := (rowOf i).matches (encode i)

theorem checksum (s : List Byte) : Statement (.checksum s) := ⟨_, rfl⟩
theorem buildReq (c : Byte) (p : List Byte) : Statement (.buildReq c p) := ⟨_, rfl⟩
theorem parseResp (raw : List Byte) : Statement (.parseResp raw) := ⟨_, rfl⟩
theorem connOpen (path : List Byte) (baud : Nat) (log : Bool) : Statement (.connOpen path baud log) := ⟨_, rfl⟩
theorem connClose : Statement .connClose := ⟨_, rfl⟩
theorem sendReq (c : Byte) (p : List Byte) : Statement (.sendReq c p) := ⟨_, rfl⟩
theorem readCode : Statement .readCode := ⟨_, rfl⟩
theorem readData : Statement .readData := ⟨_, rfl⟩
theorem emitAck : Statement .emitAck := ⟨_, rfl⟩
theorem respCycle : Statement .respCycle := ⟨_, rfl⟩
theorem encNum (v : Nat) : Statement (.encNum v) := ⟨_, rfl⟩
theorem decNum (b : Byte) : Statement (.decNum b) := ⟨_, rfl⟩
theorem encItem (k : Nat) : Statement (.encItem k) := ⟨_, rfl⟩
theorem command (c : Byte) (p : List Byte) : Statement (.command c p) := ⟨_, rfl⟩
theorem decodeReply (q : List Byte) : Statement (.decodeReply q) := ⟨_, rfl⟩
theorem decodeStatus (q : List Byte) : Statement (.decodeStatus q) := ⟨_, rfl⟩
theorem status (args : List Nat) : Statement (.status args) := ⟨_, rfl⟩
theorem purge (args : List Nat) : Statement (.purge args) := ⟨_, rfl⟩
theorem dispense (n : Nat) : Statement (.dispense n) := ⟨_, rfl⟩
theorem testDispense (args : List Nat) : Statement (.testDispense args) := ⟨_, rfl⟩
theorem reset (args : List Nat) : Statement (.reset args) := ⟨_, rfl⟩
theorem lastStatus (args : List Nat) : Statement (.lastStatus args) := ⟨_, rfl⟩
theorem configStatus (args : List Nat) : Statement (.configStatus args) := ⟨_, rfl⟩
theorem ddDiag (args : List Nat) : Statement (.ddDiag args) := ⟨_, rfl⟩
theorem sensorDiag (args : List Nat) : Statement (.sensorDiag args) := ⟨_, rfl⟩
theorem snDispense (args : List Nat) : Statement (.snDispense args) := ⟨_, rfl⟩
theorem snEject (args : List Nat) : Statement (.snEject args) := ⟨_, rfl⟩
theorem readParam (k : Nat) : Statement (.readParam k) := ⟨_, rfl⟩
theorem writeParam (k : Nat) (v : List Byte) : Statement (.writeParam k v) := ⟨_, rfl⟩
theorem testMode (args : List Nat) : Statement (.testMode args) := ⟨_, rfl⟩
theorem ack : Statement .ack := rfl
theorem nack : Statement .nack := rfl
theorem eot : Statement .eot := rfl
theorem unrecognized (b : Byte) : Statement (.unrecognized b) := ⟨_, rfl⟩
theorem ackEmit : Statement .ackEmit := rfl
theorem rspFrame (p : List Byte) : Statement (.rspFrame p) := ⟨_, rfl⟩

end Sys2Proof.Laws.EncodeRow
end

