-- ==== Sys2Proof/Tests/Slice0.lean ====
section
/-! SUPPORT. Tests: ill-formed terms, words written out from the spec's encodings, the vectors of 95_test_vectors section 2
and the programs of its section 3, and a witness for the hypotheses of each statement. The expected values are the
spec's own. -/

namespace Sys2Proof.Tests
open Sys2Proof Sys2Proof.Machine

/-! ### WellFormed refuses -/

theorem test_wf_encNum : Instr.wellFormed (.encNum 0xE0) = false := by decide
theorem test_wf_encItem : Instr.wellFormed (.encItem 1000) = false := by decide
theorem test_wf_numeric_command : Instr.wellFormed (.purge [1, 0xE0]) = false := by decide
theorem test_wf_dispense : Instr.wellFormed (.dispense 0xE0) = false := by decide
theorem test_wf_readParam : Instr.wellFormed (.readParam 1000) = false := by decide
theorem test_wf_writeParam : Instr.wellFormed (.writeParam 1000 []) = false := by decide
theorem test_wf_unrecognized :
    Instr.wellFormed (.unrecognized 0x06) = false ∧ Instr.wellFormed (.unrecognized 0x15) = false ∧
      Instr.wellFormed (.unrecognized 0x04) = false := by decide

/-! ### Decoding (30_encoding R83 to R95; frames of 95_test_vectors 2.8) -/

/-- R95: OPSEL 0 to 15. -/
theorem test_decode_hostops :
    decode (.hostop 0x0 [.bytes [1]]) = .ok (.checksum [1]) ∧
    decode (.hostop 0x1 [.byte 2, .bytes [1]]) = .ok (.buildReq 2 [1]) ∧
    decode (.hostop 0x2 [.bytes [1]]) = .ok (.parseResp [1]) ∧
    decode (.hostop 0x3 [.bytes [0x70], .num 9600, .flag true]) = .ok (.connOpen [0x70] 9600 true) ∧
    decode (.hostop 0x4 []) = .ok .connClose ∧
    decode (.hostop 0x5 [.byte 2, .bytes [1]]) = .ok (.sendReq 2 [1]) ∧
    decode (.hostop 0x6 []) = .ok .readCode ∧ decode (.hostop 0x7 []) = .ok .readData ∧
    decode (.hostop 0x8 []) = .ok .emitAck ∧ decode (.hostop 0x9 []) = .ok .respCycle ∧
    decode (.hostop 0xA [.num 5]) = .ok (.encNum 5) ∧ decode (.hostop 0xB [.byte 5]) = .ok (.decNum 5) ∧
    decode (.hostop 0xC [.num 5]) = .ok (.encItem 5) ∧
    decode (.hostop 0xD [.byte 2, .bytes [1]]) = .ok (.command 2 [1]) ∧
    decode (.hostop 0xE [.bytes [1]]) = .ok (.decodeReply [1]) ∧
    decode (.hostop 0xF [.bytes [1]]) = .ok (.decodeStatus [1]) := by decide

theorem test_decode_requests :
    decode (.req [0x04, 0x30, 0x02, 0x40, 0x03, 0x75]) = .ok (.status []) ∧
    decode (.req [0x04, 0x30, 0x02, 0x41, 0x03, 0x74]) = .ok (.purge []) ∧
    decode (.req [0x04, 0x30, 0x02, 0x42, 0xFF, 0x03, 0x88]) = .ok (.dispense 223) ∧
    decode (.req [0x04, 0x30, 0x02, 0x43, 0x21, 0x03, 0x57]) = .ok (.testDispense [1]) ∧
    decode (.req [0x04, 0x30, 0x02, 0x44, 0x03, 0x71]) = .ok (.reset []) ∧
    decode (.req [0x04, 0x30, 0x02, 0x45, 0x21, 0x03, 0x51]) = .ok (.lastStatus [1]) ∧
    decode (.req [0x04, 0x30, 0x02, 0x46, 0x03, 0x73]) = .ok (.configStatus []) ∧
    decode (.req [0x04, 0x30, 0x02, 0x47, 0x03, 0x72]) = .ok (.ddDiag []) ∧
    decode (.req [0x04, 0x30, 0x02, 0x48, 0x21, 0x03, 0x5C]) = .ok (.sensorDiag [1]) ∧
    decode (.req [0x04, 0x30, 0x02, 0x4A, 0x03, 0x7F]) = .ok (.snDispense []) ∧
    decode (.req [0x04, 0x30, 0x02, 0x4B, 0x21, 0x03, 0x5F]) = .ok (.snEject [1]) ∧
    decode (.req [0x04, 0x30, 0x02, 0x54, 0x03, 0x61]) = .ok (.testMode []) := by decide

theorem test_decode_parameters :
    decode (.req [0x04, 0x30, 0x02, 0x52, 0x44, 0x2F, 0x39, 0x39, 0x39, 0x03, 0x35]) = .ok (.readParam 999) ∧
    decode (.req [0x04, 0x30, 0x02, 0x57, 0x44, 0x2F, 0x31, 0x32, 0x33, 0x2F, 0x39, 0x36, 0x30, 0x30, 0x03, 0x19]) =
      .ok (.writeParam 123 [0x39, 0x36, 0x30, 0x30]) := by decide

theorem test_decode_wire_items :
    decode (.code 0x06) = .ok .ack ∧ decode (.code 0x15) = .ok .nack ∧ decode (.code 0x04) = .ok .eot ∧
    decode (.code 0x86) = .ok (.unrecognized 0x86) ∧ decode (.ackb 0x06) = .ok .ackEmit ∧
    decode (.rsp [0x01, 0x30, 0x02, 0x20, 0x21, 0x22, 0x03, 0x13]) = .ok (.rspFrame [0x20, 0x21, 0x22]) := by decide

theorem test_decode_refuses :
    decode (.req [0x04, 0x30, 0x02, 0x42, 0x21, 0x03, 0x57]) = .error .badFrameChecksum ∧
    decode (.req [0x04, 0x30, 0x02, 0x49, 0x03, 0x7C]) = .error (.unassignedCommand 0x49) ∧
    decode (.req [0x01, 0x30, 0x02, 0x40, 0x03, 0x70]) = .error .badFrameHeader ∧
    decode (.ackb 0x15) = .error (.notAckByte 0x15) ∧ decode (.hostop 0x6 [.num 1]) = .error (.badArguments 6) := by
  decide

/-- The rows of the opcode table as words, with operands of zeros (log 3). -/
theorem test_table_words :
    decodeTableWord 8 0x3 = some (.connOpen [] 0 false) ∧ decodeTableWord 8 0x15 = some .nack ∧
    decodeTableWord 32 0x04300240 = some (.status []) ∧ decodeTableWord 32 0x04300242 = some (.dispense 0) ∧
    decodeTableWord 32 0x04300252 = some (.readParam 0) ∧ decodeTableWord 32 0x04300257 = some (.writeParam 0 []) ∧
    decodeTableWord 24 0x013002 = some (.rspFrame []) ∧ decodeTableWord 32 0x04300249 = none := by decide

/-! ### A small bench -/

/-- The parameters of the spec's vectors: MAX_READ_ATTEMPTS `m + 1`, DATA_READ_CAP `d + 1`, MAX_REQ_PAYLOAD 9,
PARAM_ACK_MARKER 41, `deoffset` wrapping below 0x20. -/
def params (m d : Nat) : Params :=
  ⟨m, d, 0, 0, 0x41, #v[0xE0, 0xE1, 0xE2, 0xE3, 0xE4, 0xE5, 0xE6, 0xE7, 0xE8, 0xE9, 0xEA, 0xEB, 0xEC, 0xED, 0xEE, 0xEF,
    0xF0, 0xF1, 0xF2, 0xF3, 0xF4, 0xF5, 0xF6, 0xF7, 0xF8, 0xF9, 0xFA, 0xFB, 0xFC, 0xFD, 0xFE, 0xFF]⟩

/-- After reset, closed, with the given parameters. -/
def closed (m d : Nat) : State := { State.reset with params := params m d }

/-- After reset and a successful CONN_OPEN, with a port script. -/
def bench (m d : Nat) (reads : List ReadAnswer) (writes : List WriteAnswer) : State :=
  { closed m d with connOpen := true, reads := reads, writes := writes }

/-- The spec's usual bench: MAX_READ_ATTEMPTS 3, DATA_READ_CAP 16. -/
def b3 (reads : List ReadAnswer) (writes : List WriteAnswer) : State := bench 2 15 reads writes

/-- What is seen of a next state. -/
def seen {α : Type} (o : Host.Outcome State Fault Refusal) (f : State → α) : Option α :=
  match o with
  | .next t => some (f t)
  | _ => none

/-- Result, PHASE, ERR's number, and the transmit stream. -/
def endOf (o : Host.Outcome State Fault Refusal) : Option (Option OpResult × Phase × BitVec 4 × List Byte) :=
  seen o fun t => (t.result, t.phase, errNumber t, sentBytes t.trace)

/-- The frame `01 30 02 20 21 22 03 13`. -/
def goodFrame : List Byte := [0x01, 0x30, 0x02, 0x20, 0x21, 0x22, 0x03, 0x13]

/-- The record of the payload `20 21 22`. -/
def goodRecord : ReplyRecord := ⟨[0x20, 0x21, 0x22], some 0x20, some 1, some 2, none, none⟩

/-- A device that answers as it should with the payload `20 21 22`, to any request. -/
def answering : State := b3 [.bytes [0x06], .bytes goodFrame, .bytes [0x04]] [.ok, .ok]

/-- The same with the reply `41 31 32` of a parameter command. -/
def answeringParam : State :=
  b3 [.bytes [0x06], .bytes [0x01, 0x30, 0x02, 0x41, 0x31, 0x32, 0x03, 0x72], .bytes [0x04]] [.ok, .ok]

/-! ### Vectors: 95_test_vectors 2.1 to 2.10 -/

theorem test_checksum :
    seen (exec (.checksum [0x04, 0x30, 0x02, 0x42, 0x21, 0x03]) (closed 2 15)) (fun t => (t.chk, t.result)) =
      some (0x56, some (.ok (.byte 0x56))) := by decide

theorem test_checksum_cancels :
    seen (exec (.checksum [0x01, 0x02, 0x03]) (closed 2 15)) (·.chk) = some 0x00 ∧
      seen (exec (.checksum [0x80, 0x01]) (closed 2 15)) (·.chk) = some 0x81 := by decide

theorem test_buildReq :
    seen (exec (.buildReq 0x42 [0x21]) (closed 2 15)) (fun t => (txBytes t, t.txlen, t.cmd, t.chk)) =
      some ([0x04, 0x30, 0x02, 0x42, 0x21, 0x03, 0x56], 7, 0x42, 0x56) := by decide

theorem test_buildReq_marker_in_payload :
    seen (exec (.buildReq 0x42 [0x03, 0x77]) (closed 2 15)) (·.result) =
      some (some (.ok (.bytes [0x04, 0x30, 0x02, 0x42, 0x03, 0x77, 0x03, 0x03]))) := by decide

theorem test_parseResp :
    seen (exec (.parseResp goodFrame) (closed 2 15)) (·.result) = some (some (.ok (.bytes [0x20, 0x21, 0x22]))) ∧
    seen (exec (.parseResp [0x01, 0x30, 0x02, 0x03, 0x30]) (closed 2 15)) (·.result) =
      some (some (.ok (.bytes []))) := by decide

theorem test_parseResp_fails :
    seen (exec (.parseResp [0x01]) (closed 2 15)) (·.err) = some (some .formatError) ∧
    seen (exec (.parseResp [0x01, 0x30]) (closed 2 15)) (·.err) = some (some .checksumError) ∧
    seen (exec (.parseResp [0x01, 0x30, 0x31]) (closed 2 15)) (·.err) = some (some .formatError) ∧
    seen (exec (.parseResp [0x01, 0x30, 0x02, 0x33]) (closed 2 15)) (·.err) = some (some .formatError) ∧
    seen (exec (.parseResp [0x01, 0x30, 0x05, 0x03, 0x00]) (closed 2 15)) (·.err) = some (some .checksumError) ∧
    seen (exec (.parseResp [0x01, 0x30, 0x05, 0x20, 0x03, 0x17]) (closed 2 15)) (·.err) = some (some .formatError) := by
  decide

theorem test_connOpen :
    seen (exec (.connOpen [0x70] 9600 true) { closed 2 15 with opens := [.ok], ackWrErr := true })
      (fun t => (t.result, t.connOpen, t.ackWrErr, t.phase, t.baud)) =
      some (some (.ok .unit), true, false, .idle, 9600) := by decide

theorem test_connOpen_fails :
    seen (exec (.connOpen [0x70] 9600 false) { closed 2 15 with opens := [.ioErr] })
      (fun t => (t.connOpen, t.phase, errNumber t)) = some (false, .failed, 1) := by decide

theorem test_connClose :
    seen (exec .connClose { b3 [] [] with closes := [.ioErr] }) (fun t => (t.connOpen, t.err)) =
      some (false, some .ioError) := by decide

theorem test_connClose_closed :
    seen (exec .connClose (closed 2 15)) (fun t => (t.err, t.trace)) = some (some .connectionClosed, []) := by decide

theorem test_sendReq :
    endOf (exec (.sendReq 0x42 [0x21]) (b3 [] [.ok])) =
      some (some (.ok .unit), .requestSent, 0, [0x04, 0x30, 0x02, 0x42, 0x21, 0x03, 0x56]) := by decide

theorem test_sendReq_fails :
    seen (exec (.sendReq 0x42 [0x21]) (b3 [] [.ioErr 0])) (fun t => (t.err, t.phase, t.connOpen)) =
      some (some .ioError, .failed, true) := by decide

theorem test_readCode_second_read :
    seen (exec .readCode (b3 [.bytes [], .bytes [0x15]] [])) (fun t => (t.result, t.att, t.code)) =
      some (some (.ok (.codeClass .nack)), 2, 0x15) := by decide

theorem test_readCode_exhausted :
    seen (exec .readCode (b3 [.bytes [], .bytes [], .bytes [], .bytes [0x06]] []))
      (fun t => (t.err, t.att, t.reads)) = some (some .retryExhausted, 3, [.bytes [0x06]]) := by decide

theorem test_readData_chunks :
    seen (exec .readData
        (bench 4 3 [.bytes [0x01, 0x30, 0x02, 0x20], .bytes [], .bytes [0x21, 0x22, 0x03, 0x13]] []))
      (fun t => (t.result, t.att, t.rxlen, t.paylen)) =
      some (some (.ok (.bytes [0x20, 0x21, 0x22])), 3, 8, 3) := by decide

/-- An early tail match truncates (70_reset_and_hazards R256). -/
theorem test_readData_early_tail :
    seen (exec .readData (bench 2 5 [.bytes [0x01, 0x30, 0x02, 0x41, 0x03, 0x71, 0x50, 0x03, 0x53]] []))
      (fun t => (t.result, t.rxlen, t.reads)) =
      some (some (.ok (.bytes [0x41])), 6, [.bytes [0x50, 0x03, 0x53]]) := by decide

theorem test_emitAck :
    seen (exec .emitAck (b3 [] [.ok])) (fun t => (t.result, sentBytes t.trace, t.ackWrErr)) =
      some (some (.ok .unit), [0x06], false) := by decide

theorem test_respCycle :
    endOf (exec .respCycle (b3 [.bytes [0x06], .bytes goodFrame, .bytes [0x04]] [.ok])) =
      some (some (.ok (.bytes [0x20, 0x21, 0x22])), .complete, 0, [0x06]) := by decide

theorem test_respCycle_notEot :
    endOf (exec .respCycle (b3 [.bytes [0x06], .bytes goodFrame, .bytes [0x15]] [.ok])) =
      some (some (.fail .responseNotEot), .failed, 6, [0x06]) := by decide

theorem test_encNum :
    seen (exec (.encNum 0xDF) (closed 2 15)) (·.result) = some (some (.ok (.byte 0xFF))) := by decide

theorem test_decNum :
    seen (exec (.decNum 0x22) (closed 2 15)) (·.result) = some (some (.ok (.num 2))) ∧
      seen (exec (.decNum 0x1F) (closed 2 15)) (·.result) = some (some (.ok (.num 255))) := by decide

theorem test_encItem :
    seen (exec (.encItem 42) (closed 2 15)) (·.result) = some (some (.ok (.bytes [0x30, 0x34, 0x32]))) := by decide

theorem test_command :
    seen (exec (.command 0x42 [0x21]) answering) (·.result) = some (some (.ok (.reply goodRecord))) := by decide

theorem test_decodeReply :
    seen (exec (.decodeReply [0x21, 0x20, 0x20, 0x7F]) (closed 2 15)) (·.result) =
      some (some (.ok (.reply ⟨[0x21, 0x20, 0x20, 0x7F], some 0x21, some 0, some 0, none, none⟩))) := by decide

theorem test_decodeStatus :
    seen (exec (.decodeStatus [0x3B, 0x30, 0x45, 0x50]) (closed 2 15)) (·.result) =
      some (some (.ok (.status ⟨some true, some true, some true, some true, some true, some 37, some 48⟩))) := by decide

theorem test_decodeStatus_bits :
    seen (exec (.decodeStatus [0x28, 0x30]) (closed 2 15)) (·.result) =
      some (some (.ok (.status ⟨some false, some false, some true, some false, some true, none, none⟩))) := by decide

/-! ### Programs: 95_test_vectors section 3 -/

/-- P1. -/
theorem test_dispense :
    endOf (exec (.dispense 1) (bench 4 3
        [.bytes [0x06], .bytes [0x01, 0x30, 0x02, 0x20], .bytes [], .bytes [0x21, 0x22, 0x03, 0x13], .bytes [0x04]]
        [.ok, .ok])) =
      some (some (.ok (.reply goodRecord)), .complete, 0, [0x04, 0x30, 0x02, 0x42, 0x21, 0x03, 0x56, 0x06]) := by decide

/-- P4. -/
theorem test_dispense_bad_checksum :
    endOf (exec (.dispense 1) (b3 [.bytes [0x06], .bytes [0x01, 0x30, 0x02, 0x20, 0x21, 0x22, 0x03, 0x12]] [.ok])) =
      some (some (.fail .checksumError), .failed, 4, [0x04, 0x30, 0x02, 0x42, 0x21, 0x03, 0x56]) := by decide

/-- P2. -/
theorem test_status_nack :
    endOf (exec (.status []) (b3 [.bytes [], .bytes [0x15]] [.ok])) =
      some (some (.fail .responseNotAck), .failed, 5, [0x04, 0x30, 0x02, 0x40, 0x03, 0x75]) := by decide

/-- P8 (a). -/
theorem test_status_swallowed_ack_error :
    seen (exec (.status []) (b3
        [.bytes [0x06], .bytes [0x01, 0x30, 0x02, 0x3B, 0x30, 0x45, 0x50, 0x03, 0x2E], .bytes [0x04]] [.ok, .ioErr 0]))
      (fun t => (t.phase, errNumber t, t.ackWrErr, t.result)) =
      some (.complete, 0, true, some (.ok (.reply ⟨[0x3B, 0x30, 0x45, 0x50], some 0x3B, some 16, some 37,
        some ⟨some true, some true, some true, some true, some true, some 37, some 48⟩, none⟩))) := by decide

/-- P3. -/
theorem test_purge_silent :
    seen (exec (.purge []) (b3 [.bytes [], .bytes [], .bytes []] [.ok]))
      (fun t => (errNumber t, t.att, sentBytes t.trace)) = some (2, 3, [0x04, 0x30, 0x02, 0x41, 0x03, 0x74]) := by decide

/-- P5. -/
theorem test_lastStatus_early_tail :
    endOf (exec (.lastStatus []) (bench 2 5
        [.bytes [0x06], .bytes [0x01, 0x30, 0x02, 0x41, 0x03, 0x71], .bytes [0x50]] [.ok, .ok])) =
      some (some (.fail .responseNotEot), .failed, 6, [0x04, 0x30, 0x02, 0x45, 0x03, 0x70, 0x06]) := by decide

/-- P6 (a). -/
theorem test_readParam :
    endOf (exec (.readParam 7) answeringParam) =
      some (some (.ok (.reply ⟨[0x41, 0x31, 0x32], some 0x41, some 17, some 18, none, some [0x31, 0x32]⟩)), .complete, 0,
        [0x04, 0x30, 0x02, 0x52, 0x44, 0x2F, 0x30, 0x30, 0x37, 0x03, 0x3B, 0x06]) := by decide

/-- P6 (b). -/
theorem test_readParam_rejected :
    endOf (exec (.readParam 7) (b3
        [.bytes [0x06], .bytes [0x01, 0x30, 0x02, 0x42, 0x31, 0x32, 0x03, 0x71], .bytes [0x04]] [.ok, .ok])) =
      some (some (.fail .illegalCommand), .failed, 7,
        [0x04, 0x30, 0x02, 0x52, 0x44, 0x2F, 0x30, 0x30, 0x37, 0x03, 0x3B, 0x06]) := by decide

theorem test_writeParam :
    seen (exec (.writeParam 7 [0x31, 0x32]) answeringParam) (fun t => sentBytes t.trace) =
      some [0x04, 0x30, 0x02, 0x57, 0x44, 0x2F, 0x30, 0x30, 0x37, 0x2F, 0x31, 0x32, 0x03, 0x12, 0x06] := by decide

/-- P7. -/
theorem test_status_closed :
    seen (exec (.status []) (closed 2 15)) (fun t => (errNumber t, t.phase, t.trace, t.txlen)) =
      some (8, .failed, [], 0) := by decide

/-- The other commands, by what they send (2.8). -/
theorem test_other_commands :
    seen (exec (.testDispense [1]) answering) (fun t => sentBytes t.trace) =
      some [0x04, 0x30, 0x02, 0x43, 0x21, 0x03, 0x57, 0x06] ∧
    seen (exec (.reset []) answering) (fun t => sentBytes t.trace) = some [0x04, 0x30, 0x02, 0x44, 0x03, 0x71, 0x06] ∧
    seen (exec (.configStatus []) answering) (fun t => sentBytes t.trace) =
      some [0x04, 0x30, 0x02, 0x46, 0x03, 0x73, 0x06] ∧
    seen (exec (.ddDiag []) answering) (fun t => sentBytes t.trace) = some [0x04, 0x30, 0x02, 0x47, 0x03, 0x72, 0x06] ∧
    seen (exec (.sensorDiag [1]) answering) (fun t => sentBytes t.trace) =
      some [0x04, 0x30, 0x02, 0x48, 0x21, 0x03, 0x5C, 0x06] ∧
    seen (exec (.snDispense []) answering) (fun t => sentBytes t.trace) =
      some [0x04, 0x30, 0x02, 0x4A, 0x03, 0x7F, 0x06] ∧
    seen (exec (.snEject [1]) answering) (fun t => sentBytes t.trace) =
      some [0x04, 0x30, 0x02, 0x4B, 0x21, 0x03, 0x5F, 0x06] ∧
    seen (exec (.testMode []) answering) (fun t => sentBytes t.trace) =
      some [0x04, 0x30, 0x02, 0x54, 0x03, 0x61, 0x06] := by decide

/-- 2.4, and 30_encoding R91: the code bytes as READ_CODE consumes them. -/
theorem test_code_bytes :
    seen (exec .ack (b3 [] [])) (·.result) = some (some (.ok (.codeClass .ack))) ∧
    seen (exec .nack (b3 [] [])) (·.result) = some (some (.ok (.codeClass .nack))) ∧
    seen (exec .eot (b3 [] [])) (·.result) = some (some (.ok (.codeClass .eot))) ∧
    seen (exec (.unrecognized 0x86) (b3 [] [])) (fun t => (t.result, t.code)) =
      some (some (.ok (.codeClass .errorUnrecognized)), 0x86) := by decide

/-- 20_memory R61: bytes sent while the connection was closed are returned in the order they were sent. -/
theorem test_order_sent :
    seen (exec .ack (closed 2 15)) (fun t => seen (exec .nack t) (·.reads)) =
      some (some [.bytes [0x06], .bytes [0x15]]) := by decide

/-- 70_reset_and_hazards R257: the leftover is the first thing READ_CODE sees, the byte sent after it the next. -/
theorem test_leftover_first :
    seen (exec .ack (b3 [.bytes [0x15, 0x04]] [])) (fun t => (t.code, t.reads)) =
      some (0x15, [.bytes [0x04], .bytes [0x06]]) := by decide

theorem test_ackEmit : seen (exec .ackEmit (b3 [] [.ok])) (fun t => sentBytes t.trace) = some [0x06] := by decide

theorem test_rspFrame :
    seen (exec (.rspFrame [0x20, 0x21, 0x22]) (b3 [] [])) (fun t => (t.result, rxBytes t)) =
      some (some (.ok (.bytes [0x20, 0x21, 0x22])), goodFrame) := by decide

/-- 2.7, 2.10 and 20_memory R69: what is refused. -/
theorem test_refusals :
    exec (.encNum 0xE0) (closed 2 15) = .refused (.numberOutOfDomain 0xE0) ∧
    exec (.encItem 1000) (closed 2 15) = .refused (.itemOutOfDomain 1000) ∧
    exec (.dispense 224) (closed 2 15) = .refused (.numberOutOfDomain 224) ∧
    exec (.connOpen [] 0 false) (b3 [] []) = .refused .alreadyOpen ∧
    exec (.writeParam 123 [0x39, 0x36, 0x30, 0x30]) (b3 [] []) = .refused (.payloadTooLong 10) ∧
    exec .readCode { closed 2 15 with busy := true } = .refused .invokedWhileBusy :=
  ⟨rfl, rfl, rfl, rfl, rfl, rfl⟩

/-- Every word of the table runs as the first step after reset; two of them looked at. -/
theorem test_first_step :
    (([0, 1, 2, 3, 4, 5, 6, 7, 8, 9, 10, 11, 12, 13, 14, 15, 0x15].map fun w => (8, w)) ++
      ([0x40, 0x41, 0x42, 0x43, 0x44, 0x45, 0x46, 0x47, 0x48, 0x4A, 0x4B, 0x52, 0x57, 0x54].map fun c =>
        (32, 0x04300200 + c)) ++ [(24, 0x013002)]).all (fun x => (seen (step (State.reset.withFetchWord x.1 x.2))
          (·.result)).isSome) = true ∧
    seen (step (State.reset.withFetchWord 32 0x04300242)) (·.result) = some (some (.fail .connectionClosed)) ∧
    seen (step (State.reset.withFetchWord 8 0xA)) (·.result) = some (some (.ok (.byte 0x20))) := by decide

/-! ### Witnesses: for the hypotheses of each statement, states and operands that meet them, a clause at a time, at the
boundaries of their ranges -/

/-- An open bench with a request that is too long, too short and just right to be sent. -/
def ninePayload : List Byte := [1, 2, 3, 4, 5, 6, 7, 8, 9]

/-- A state that meets the invariant with the port open and a command presented. -/
def running : State :=
  { answering with
    trace := [⟨.idle, .opened ⟨[], 0, .even, 1, 7, 1⟩ .ok⟩]
    inbox := [.item (.req [0x04, 0x30, 0x02, 0x42, 0x21, 0x03, 0x56])] }

/-- With one item presented. -/
def presented (it : Item) (s : State) : State := { s with inbox := [.item it] }

/-- 60_exceptions R213, R214: what the device sent and is no frame fails as READ_DATA and PARSE_RESP say. -/
theorem test_bad_frames_arrive :
    seen (step (presented (.rsp [0x01, 0x31, 0x02, 0x03, 0x31]) (b3 [] []))) (·.result) =
      some (some (.fail .formatError)) ∧
    seen (step (presented (.rsp [0x01, 0x30, 0x02, 0x20, 0x21, 0x22, 0x03, 0x14]) (b3 [] []))) (·.result) =
      some (some (.fail .checksumError)) := by decide

/-- 30_encoding R90: the frame of an unassigned code is built and sent exactly as for an assigned one. -/
theorem test_unassigned_code_is_sent :
    seen (step (presented (.req [0x04, 0x30, 0x02, 0x49, 0x03, 0x7C]) (b3 [] [.ok]))) (fun t => sentBytes t.trace) =
      some [0x04, 0x30, 0x02, 0x49, 0x03, 0x7C] := by decide

theorem witness_DecodeOfEncode :
    Instr.wellFormed (.encNum 0xDF) = true ∧ Instr.wellFormed (.encItem 999) = true ∧
      Instr.wellFormed (.writeParam 999 []) = true ∧ Instr.wellFormed (.purge [0, 0xDF]) = true ∧
      Instr.wellFormed (.unrecognized 0x05) = true := by decide

theorem witness_EncodeOfDecode :
    decode (.hostop 0xA [.num 0xE0]) = .ok (.encNum 0xE0) ∧ decode (.code 0x05) = .ok (.unrecognized 0x05) ∧
      ∀ op args, Item.code 0x05 ≠ .hostop op args := ⟨by decide, by decide, fun _ _ h => by cases h⟩

theorem witness_RequestRoundTrip :
    (closed 2 15).busy = false ∧ ninePayload.length = (closed 2 15).params.maxReqPayload := by decide

theorem witness_StepRunsWhatIsPresented :
    (running.inbox = .item (.req [0x04, 0x30, 0x02, 0x42, 0x21, 0x03, 0x56]) :: [] ∧
      decode (.req [0x04, 0x30, 0x02, 0x42, 0x21, 0x03, 0x56]) = .ok (.dispense 1)) ∧
    (({ closed 2 15 with inbox := [.item (.ackb 0x15)] } : State).inbox = .item (.ackb 0x15) :: [] ∧
      (0x15 : Byte) ≠ 0x06) ∧
    (presented (.rsp [0x01, 0x31]) (closed 2 15)).inbox = .item (.rsp [0x01, 0x31]) :: [] ∧
    ((presented (.req [0x04, 0x30, 0x02, 0x49, 0x03, 0x7C]) (closed 2 15)).inbox =
        .item (.req [0x04, 0x30, 0x02, 0x49, 0x03, 0x7C]) :: [] ∧
      decode (.req [0x04, 0x30, 0x02, 0x49, 0x03, 0x7C]) = .error (.unassignedCommand 0x49) ∧
      decodeReqFrame [0x04, 0x30, 0x02, 0x49, 0x03, 0x7C] = .ok (0x49, [])) ∧
    ((presented (.req [0x04]) (closed 2 15)).inbox = .item (.req [0x04]) :: [] ∧
      decodeReqFrame [0x04] = .error .badFrameHeader) ∧
    ((presented (.hostop 0x6 [.num 1]) (closed 2 15)).inbox = .item (.hostop 0x6 [.num 1]) :: [] ∧
      decode (.hostop 0x6 [.num 1]) = .error (.badArguments 6)) ∧
    (closed 2 15).inbox = [] ∧ decodeTableWord 8 0x6 = some .readCode := by decide

theorem witness_AcceptedOperationsEnd :
    ((b3 [] []).busy = false ∧ Instr.wellFormed (.writeParam 999 [1, 2, 3]) = true ∧
      requestFits (.writeParam 999 [1, 2, 3]) (b3 [] [])) ∧
    ((closed 2 15).busy = false ∧ Instr.wellFormed (.connOpen [] 0 true) = true ∧
      requestFits (.connOpen [] 0 true) (closed 2 15) ∧ isOpenOp (.connOpen [] 0 true) = true ∧
      (closed 2 15).connOpen = false) :=
  ⟨⟨rfl, by decide, fun _ _ h => by cases h; decide⟩, rfl, by decide, (fun _ _ h => by cases h), rfl, rfl⟩

theorem witness_WhatIsRefused :
    ({ closed 2 15 with busy := true } : State).busy = true ∧
    ((b3 [] []).busy = false ∧ (b3 [] []).connOpen = true) ∧
    ((closed 2 15).busy = false ∧ 0xDF < 0xE0) ∧
    (0x41, Instr.purge) ∈ numericCommands ∧ (∀ n ∈ [0, 0xDF], n ≤ 0xDF) ∧ 999 < 1000 ∧
    (Instr.wellFormed (.writeParam 0 [1, 2, 3, 4]) = true ∧
      requestOf (.writeParam 0 [1, 2, 3, 4]) = some (0x57, writeParamPayload 0 [1, 2, 3, 4]) ∧
      (closed 2 15).params.maxReqPayload < (writeParamPayload 0 [1, 2, 3, 4]).length) :=
  ⟨rfl, ⟨rfl, rfl⟩, ⟨rfl, by decide⟩, .head _, by decide, by decide, by decide, rfl, by decide⟩

/-- A port open, bytes not yet read, a record of transactions, a failure behind it, and a reset next. -/
def resetComes : State :=
  { running with
    err := some .ioError
    phase := .failed
    busy := true
    opens := [.ok]
    inbox := [.engineReset, .item (.hostop 0x6 [])] }

/-- 70_reset_and_hazards R250: the values of 10_state R38; the bytes not yet read and the transactions made stay. -/
theorem test_reset_event :
    seen (step resetComes) (fun t => (t.connOpen, t.phase, errNumber t, t.busy)) = some (false, .idle, 0, false) ∧
    seen (step resetComes) (fun t => (t.reads, t.inbox, t.trace.take 1)) =
      some (resetComes.reads, [.item (.hostop 0x6 [])], resetComes.trace) := by decide

theorem witness_ResetEvent :
    resetComes.inbox = .engineReset :: [.item (.hostop 0x6 [])] ∧ resetComes.opens = .ok :: [] ∧
      Instr.wellFormed (.writeParam 999 [1, 2, 3]) = true ∧ requestFits (.writeParam 999 [1, 2, 3]) resetComes ∧
      checksConnection (.writeParam 999 [1, 2, 3]) = true :=
  ⟨rfl, rfl, by decide, (fun _ _ h => by cases h; decide), rfl⟩

/-- The codes of the table of 10_state R24. -/
theorem test_class_numbers :
    (CodeClass.number .ack, CodeClass.number .nack, CodeClass.number .eot, CodeClass.number .errorUnrecognized) =
      (0, 1, 2, 3) := by decide

theorem witness_StepKeepsInvariant : Inv running ∧ ∃ t, step running = .next t ∧ t.connOpen = true :=
  ⟨⟨rfl, by decide, by decide, (fun _ h => by cases h), (fun _ h => by cases h), by decide, by decide, by decide,
    (fun _ => ⟨(fun h => by cases h), (fun h => by cases h)⟩), (fun h => absurd rfl h), rfl⟩, _, rfl, rfl⟩

theorem witness_ChecksumIsTheFold : (closed 2 15).busy = false := rfl

theorem witness_ChecksumLaws :
    (∃ t t', exec (.checksum [1]) (closed 2 15) = .next t ∧ exec (.checksum [1]) (b3 [] []) = .next t') ∧
    (2 < [(1 : Byte), 2, 3].length ∧ [(1 : Byte), 2, 3][2]? ≠ some 4) ∧ [(1 : Byte), 2].Perm [2, 1] ∧
    [(0x00 : Byte)] ≠ [] :=
  ⟨⟨_, _, rfl, rfl⟩, by decide, .swap _ _ _, by decide⟩

theorem witness_BuildReqBuildsTheFrame :
    (closed 2 15).busy = false ∧ ninePayload.length = (closed 2 15).params.maxReqPayload := by decide

theorem witness_RequestFrameMap :
    (∃ t, exec (.buildReq 0x42 ninePayload) (closed 2 15) = .next t) ∧ ninePayload[8]? = some 9 ∧
      ninePayload.length + 6 ≤ 15 := ⟨⟨_, rfl⟩, by decide, by decide⟩

theorem witness_FrameInvariant :
    (∃ t f, exec (.buildReq 0x42 ninePayload) (closed 2 15) = .next t ∧ t.result = some (.ok (.bytes f))) ∧
    (∃ t, exec (.parseResp goodFrame) (closed 2 15) = .next t ∧ ∃ v, t.result = some (.ok v)) ∧
      ∃ t, exec (.parseResp [0x01]) (closed 2 15) = .next t :=
  ⟨⟨_, _, rfl, rfl⟩, ⟨_, rfl, .bytes [0x20, 0x21, 0x22], by decide⟩, _, rfl⟩

theorem witness_ParseOfWellFormedFrame :
    (closed 2 15).busy = false ∧ WellFormedRsp [0x01, 0x30, 0x02, 0x03, 0x30] ∧ WellFormedRsp goodFrame := by
  unfold WellFormedRsp; decide

theorem witness_ParseFailures :
    (BadHeader [0x01] ∧ BadHeader [0x02, 0x30]) ∧
    (¬ BadHeader [0x01, 0x30] ∧ BadChecksum [0x01, 0x30]) ∧
    (¬ BadHeader [0x01, 0x30, 0x31] ∧ ¬ BadChecksum [0x01, 0x30, 0x31] ∧ BadMarkers [0x01, 0x30, 0x31]) ∧
    (¬ BadHeader [0x01, 0x30, 0x02, 0x33] ∧ ¬ BadChecksum [0x01, 0x30, 0x02, 0x33] ∧
      BadMarkers [0x01, 0x30, 0x02, 0x33]) ∧
    (¬ BadHeader goodFrame ∧ ¬ BadChecksum goodFrame ∧ ¬ BadMarkers goodFrame) := by
  unfold BadHeader BadChecksum BadMarkers; decide

theorem witness_ConnOpenOutcomes :
    (b3 [] []).busy = false ∧ (b3 [] []).connOpen = true ∧ (closed 2 15).busy = false ∧ (closed 2 15).connOpen = false ∧
    ({ closed 2 15 with opens := [.ok] } : State).opens = .ok :: [] ∧
    ({ closed 2 15 with opens := [.ioErr] } : State).opens = .ioErr :: [] := ⟨rfl, rfl, rfl, rfl, rfl, rfl⟩

theorem witness_ConnCloseOutcomes :
    (closed 2 15).busy = false ∧ (closed 2 15).connOpen = false ∧ (b3 [] []).busy = false ∧ (b3 [] []).connOpen = true ∧
    ({ b3 [] [] with closes := [.ok] } : State).closes = .ok :: [] ∧
    ({ b3 [] [] with closes := [.ioErr] } : State).closes = .ioErr :: [] := ⟨rfl, rfl, rfl, rfl, rfl, rfl⟩

theorem witness_ClosedConnectionFailsFast :
    checksConnection (.writeParam 999 [1, 2, 3]) = true ∧ (closed 2 15).busy = false ∧ (closed 2 15).connOpen = false ∧
    Instr.wellFormed (.writeParam 999 [1, 2, 3]) = true ∧ requestFits (.writeParam 999 [1, 2, 3]) (closed 2 15) :=
  ⟨rfl, rfl, rfl, by decide, fun _ _ h => by cases h; decide⟩

theorem witness_SendReqOutcomes :
    (closed 2 15).busy = false ∧ (closed 2 15).connOpen = false ∧
    (b3 [] [.ok]).busy = false ∧ (b3 [] [.ok]).connOpen = true ∧
    ninePayload.length = (b3 [] [.ok]).params.maxReqPayload ∧ (b3 [] [.ok]).writes = .ok :: [] ∧
    (b3 [] [.ioErr 3]).writes = .ioErr 3 :: [] := by decide

theorem witness_ReadCodeTakesOneByte :
    ((0x86 : Byte) ≠ 0x06 ∧ (0x86 : Byte) ≠ 0x15 ∧ (0x86 : Byte) ≠ 0x04) ∧
    (b3 [.bytes [], .bytes [], .bytes [0x04]] []).busy = false ∧
    (b3 [.bytes [], .bytes [], .bytes [0x04]] []).connOpen = true ∧
    2 < (b3 [.bytes [], .bytes [], .bytes [0x04]] []).params.maxReadAttempts ∧
    (b3 [.bytes [], .bytes [], .bytes [0x04]] []).reads = List.replicate 2 (.bytes []) ++ .bytes (0x04 :: []) :: [] ∧
    (b3 [.bytes [0x06, 0x01]] []).reads = List.replicate 0 (.bytes []) ++ .bytes (0x06 :: [0x01]) :: [] := by decide

theorem witness_ReadCodeFailures :
    (b3 [.bytes [], .bytes [], .bytes []] []).busy = false ∧
    (b3 [.bytes [], .bytes [], .bytes []] []).connOpen = true ∧
    (b3 [.bytes [], .bytes [], .bytes []] []).reads =
      List.replicate (b3 [.bytes [], .bytes [], .bytes []] []).params.maxReadAttempts (.bytes []) ++ [] ∧
    2 < (b3 [.bytes [], .bytes [], .ioErr] []).params.maxReadAttempts ∧
    (b3 [.bytes [], .bytes [], .ioErr] []).reads = List.replicate 2 (.bytes []) ++ .ioErr :: [] := by decide

/-- Three chunks, the tail in the last allowed one. -/
def threeChunks : List (List Byte) := [[0x01, 0x30, 0x02, 0x20], [], [0x21, 0x22, 0x03, 0x13]]

theorem witness_ReadDataParsesAtTheFirstTail :
    ChunksNext (bench 2 3 (threeChunks.map .bytes) []) threeChunks [] ∧
    threeChunks.length = (bench 2 3 (threeChunks.map .bytes) []).params.maxReadAttempts ∧
    NoTailWithin threeChunks (threeChunks.length - 1) ∧ tailHolds threeChunks.flatten = true :=
  ⟨⟨rfl, rfl, by decide, by decide⟩, rfl, by unfold NoTailWithin; decide, by decide⟩

theorem witness_ReadDataFailures :
    (NoTailWithin [[0x01], [0x30], [0x02]] 3 ∧
      ChunksNext (bench 2 0 [.bytes [0x01], .bytes [0x30], .bytes [0x02]] []) [[0x01], [0x30], [0x02]] [] ∧
      [[(0x01 : Byte)], [0x30], [0x02]].length =
        (bench 2 0 [.bytes [0x01], .bytes [0x30], .bytes [0x02]] []).params.maxReadAttempts) ∧
    (NoTailWithin [[], [0x01, 0x30]] 2 ∧
      ChunksNext (b3 [.bytes [], .bytes [0x01, 0x30], .ioErr] []) [[], [0x01, 0x30]] (.ioErr :: []) ∧
      [[], [(0x01 : Byte), 0x30]].length < (b3 [.bytes [], .bytes [0x01, 0x30], .ioErr] []).params.maxReadAttempts) :=
  ⟨⟨by unfold NoTailWithin; decide, ⟨rfl, rfl, rfl, by decide⟩, rfl⟩,
    by unfold NoTailWithin; decide, ⟨rfl, rfl, rfl, by decide⟩, by decide⟩

theorem witness_AnyChunkingOfPrintableFrames :
    ChunksNext (bench 2 3 (threeChunks.map .bytes) []) ([[0x01, 0x30, 0x02, 0x20], []] ++ [[0x21, 0x22, 0x03, 0x13]]) [] ∧
    ([[0x01, 0x30, 0x02, 0x20], []] ++ [[0x21, 0x22, 0x03, 0x13]]).flatten = rspFrame [0x20, 0x21, 0x22] ∧
    [(0x21 : Byte), 0x22, 0x03, 0x13] ≠ [] ∧
    ([[(0x01 : Byte), 0x30, 0x02, 0x20], []] ++ [[0x21, 0x22, 0x03, 0x13]]).length =
      (bench 2 3 (threeChunks.map .bytes) []).params.maxReadAttempts ∧
    (∀ b ∈ [(0x20 : Byte), 0x21, 0x22], 0x20 ≤ b.toNat) :=
  ⟨⟨rfl, rfl, by decide, by decide⟩, by decide, by decide, rfl, by decide⟩

theorem witness_EmitAckOutcomes :
    (Instr.emitAck = .emitAck ∨ Instr.emitAck = .ackEmit) ∧ (b3 [] [.ok]).busy = false ∧ (b3 [] [.ok]).connOpen = true ∧
    (b3 [] [.ok]).writes = .ok :: [] ∧ (b3 [] [.ioErr 1]).writes = .ioErr 1 :: [] := ⟨.inl rfl, rfl, rfl, rfl, rfl⟩

/-- The four steps of a cycle one after the other, and each way out of it. -/
theorem witness_RespCycleIsItsSteps :
    answering.busy = false ∧ answering.connOpen = true ∧
    (∃ t1, exec .readCode { answering with phase := .awaitingAck } = .next t1 ∧
      t1.result = some (.ok (.codeClass .ack)) ∧ ∃ t2, exec .readData { t1 with phase := .awaitingData } = .next t2 ∧
      t2.result = some (.ok (.bytes [0x20, 0x21, 0x22])) ∧ ∃ t3, exec .emitAck t2 = .next t3 ∧
      ∃ t4, exec .readCode { t3 with phase := .awaitingEot } = .next t4 ∧ t4.result = some (.ok (.codeClass .eot))) ∧
    (∃ t1, exec .readCode { b3 [.ioErr] [] with phase := .awaitingAck } = .next t1 ∧
      t1.result = some (.fail .ioError)) ∧
    (∃ t1, exec .readCode { b3 [.bytes [0x15]] [] with phase := .awaitingAck } = .next t1 ∧
      t1.result = some (.ok (.codeClass .nack))) ∧
    (∃ t1, exec .readCode { b3 [.bytes [0x06], .ioErr] [] with phase := .awaitingAck } = .next t1 ∧
      t1.result = some (.ok (.codeClass .ack)) ∧ ∃ t2, exec .readData { t1 with phase := .awaitingData } = .next t2 ∧
      t2.result = some (.fail .ioError)) :=
  ⟨rfl, rfl, ⟨_, rfl, by decide, _, rfl, by decide, _, rfl, _, rfl, by decide⟩, ⟨_, rfl, by decide⟩, ⟨_, rfl, by decide⟩,
    _, rfl, by decide, _, rfl, by decide⟩

/-- The last two ways out: the fourth step fails, or finds no EOT. -/
theorem witness_RespCycleIsItsSteps_last :
    (∃ t4, exec .readCode { b3 [.ioErr] [] with phase := .awaitingEot } = .next t4 ∧
      t4.result = some (.fail .ioError)) ∧
    ∃ t4, exec .readCode { b3 [.bytes [0x06]] [] with phase := .awaitingEot } = .next t4 ∧
      t4.result = some (.ok (.codeClass .ack)) := ⟨⟨_, rfl, by decide⟩, _, rfl, by decide⟩

/-- The bench whose DATA_READ_CAP is just the frame's length. -/
def tight : State := bench 2 7 [.bytes [0x06], .bytes goodFrame, .bytes [0x04]] [.ok, .ioErr 0]

theorem smooth_tight : SmoothCycle tight [0x20, 0x21, 0x22] [] := ⟨rfl, rfl, by decide, by decide⟩

theorem witness_SmoothCycleCompletes : SmoothCycle tight [0x20, 0x21, 0x22] [] ∧ tight.writes = .ok :: [.ioErr 0] :=
  ⟨smooth_tight, rfl⟩

theorem witness_NotAckEndsTheCycle :
    (b3 [.bytes [], .bytes [], .bytes [0x15]] []).busy = false ∧
    (b3 [.bytes [], .bytes [], .bytes [0x15]] []).connOpen = true ∧
    2 < (b3 [.bytes [], .bytes [], .bytes [0x15]] []).params.maxReadAttempts ∧ (0x15 : Byte) ≠ 0x06 ∧
    (b3 [.bytes [], .bytes [], .bytes [0x15]] []).reads = List.replicate 2 (.bytes []) ++ .bytes [0x15] :: [] := by decide

theorem witness_NotEotEndsTheCycle :
    (bench 2 7 [.bytes [0x06], .bytes goodFrame, .bytes [0x15]] [.ok]).busy = false ∧
    (bench 2 7 [.bytes [0x06], .bytes goodFrame, .bytes [0x15]] [.ok]).connOpen = true ∧
    [(0x20 : Byte), 0x21, 0x22].length + 5 =
      (bench 2 7 [.bytes [0x06], .bytes goodFrame, .bytes [0x15]] [.ok]).params.dataReadCap ∧ (0x15 : Byte) ≠ 0x04 ∧
    (bench 2 7 [.bytes [0x06], .bytes goodFrame, .bytes [0x15]] [.ok]).reads =
      .bytes [0x06] :: .bytes (rspFrame [0x20, 0x21, 0x22]) :: .bytes [0x15] :: [] ∧
    (bench 2 7 [.bytes [0x06], .bytes goodFrame, .bytes [0x15]] [.ok]).writes = .ok :: [] := by decide

theorem witness_OperandEncoders :
    (closed 2 15).busy = false ∧ 0xDF ≤ 0xDF ∧ 999 ≤ 999 ∧ 0xDF < 0xE0 ∧ 999 < 1000 := by decide

theorem witness_DecNumResult : (closed 2 15).busy = false ∧ 0x20 ≤ (0x20 : Byte).toNat := by decide

theorem witness_OffsetRoundTrip :
    0xDF ≤ 0xDF ∧ 0x20 ≤ (0x20 : Byte).toNat ∧ 0x20 ≤ (0x3F : Byte).toNat ∧ (0x3F : Byte).toNat ≤ 0x3F := by decide

theorem witness_DecodeReplyRecord :
    (closed 2 15).busy = false ∧ [(0x20 : Byte), 0x20, 0xFF][1]? = some 0x20 ∧ 0x20 ≤ (0x20 : Byte).toNat ∧
      [(0x20 : Byte), 0x20, 0xFF][2]? = some 0xFF ∧ 0x20 ≤ (0xFF : Byte).toNat ∧
      ∃ t t', exec (.decNum 0x20) (closed 2 15) = .next t ∧ exec (.decNum 0xFF) (closed 2 15) = .next t' :=
  ⟨rfl, by decide, by decide, by decide, by decide, _, _, rfl, rfl⟩

theorem witness_DecodeStatusRecord :
    (closed 2 15).busy = false ∧ [(0x3B : Byte), 0x30, 0x20, 0xFF][2]? = some 0x20 ∧
      [(0x3B : Byte), 0x30, 0x20, 0xFF][3]? = some 0xFF ∧ 0x20 ≤ (0x20 : Byte).toNat ∧
      ∃ t t', exec (.decNum 0x20) (closed 2 15) = .next t ∧ exec (.decNum 0xFF) (closed 2 15) = .next t' :=
  ⟨rfl, by decide, by decide, by decide, _, _, rfl, rfl⟩

theorem witness_CommandIsItsSteps :
    (∃ t1, exec (.sendReq 0x42 [0x21]) { b3 [] [.ioErr 0] with phase := .idle } = .next t1 ∧
      t1.result = some (.fail .ioError)) ∧
    (∃ t1, exec (.sendReq 0x42 [0x21]) { answering with phase := .idle } = .next t1 ∧ t1.result = some (.ok .unit) ∧
      ∃ t2, exec .respCycle t1 = .next t2 ∧ t2.result = some (.ok (.bytes [0x20, 0x21, 0x22]))) ∧
    (∃ t1, exec (.sendReq 0x42 [0x21]) { b3 [.bytes [0x15]] [.ok] with phase := .idle } = .next t1 ∧
      t1.result = some (.ok .unit) ∧ ∃ t2, exec .respCycle t1 = .next t2 ∧ t2.result = some (.fail .responseNotAck)) :=
  ⟨⟨_, rfl, by decide⟩, ⟨_, rfl, by decide, _, rfl, by decide⟩, _, rfl, by decide, _, rfl, by decide⟩

theorem witness_CommandCompletes :
    SmoothCycle tight [0x20, 0x21, 0x22] [] ∧ ninePayload.length = tight.params.maxReqPayload ∧
      tight.writes = .ok :: .ioErr 0 :: [] := ⟨smooth_tight, rfl, rfl⟩

theorem witness_NumericCommandsComplete :
    SmoothCycle tight [0x20, 0x21, 0x22] [] ∧ tight.writes = .ok :: .ioErr 0 :: [] ∧
      (0x54, Instr.testMode) ∈ numericCommands ∧ (∀ v ∈ [0, 0xDF, 1, 2, 3, 4, 5, 6, 7], v ≤ 0xDF) ∧
      [0, 0xDF, 1, 2, 3, 4, 5, 6, 7].length = tight.params.maxReqPayload ∧ 0xDF ≤ 0xDF :=
  ⟨smooth_tight, rfl, by simp [numericCommands], by decide, rfl, by decide⟩

theorem witness_NumericCommandsAreCommands :
    (0x41, Instr.purge) ∈ numericCommands ∧ (∀ v ∈ [0, 0xDF], v ≤ 0xDF) ∧ 0xDF ≤ 0xDF ∧ (closed 2 15).busy = false ∧
      0xDF < 0xE0 := ⟨.head _, by decide, by decide, rfl, by decide⟩

theorem witness_StatusAddsTheLayout :
    (∀ v ∈ [0xDF], v ≤ 0xDF) ∧
    (∃ t, exec (.command 0x40 ([0xDF].map fun v => BitVec.ofNat 8 (v + 0x20))) answering = .next t ∧
      t.result = some (.ok (.reply goodRecord))) ∧
    ∃ t, exec (.command 0x40 ([0xDF].map fun v => BitVec.ofNat 8 (v + 0x20))) (b3 [.ioErr] [.ok]) = .next t ∧
      t.result = some (.fail .ioError) := ⟨by decide, ⟨_, rfl, by decide⟩, _, rfl, by decide⟩

theorem witness_StatusAndParametersComplete :
    SmoothCycle answeringParam [0x41, 0x31, 0x32] [] ∧ answeringParam.writes = .ok :: .ok :: [] ∧
      (∀ v ∈ [0xDF], v ≤ 0xDF) ∧ [0xDF].length ≤ answeringParam.params.maxReqPayload ∧
      [(0x41 : Byte), 0x31, 0x32] = answeringParam.params.paramAckMarker :: [0x31, 0x32] ∧ 999 ≤ 999 ∧
      [(1 : Byte), 2, 3].length + 6 = answeringParam.params.maxReqPayload :=
  ⟨⟨rfl, rfl, by decide, by decide⟩, rfl, by decide, by decide, rfl, by decide, rfl⟩

theorem witness_ParameterReplyIsChecked :
    999 ≤ 999 ∧
    (Instr.readParam 999 = .readParam 999 ∧ (0x52 : Byte) = 0x52 ∧
      readParamPayload 999 = [0x44, 0x2F] ++ specItem 999) ∧
    (∃ v, Instr.writeParam 999 [1, 2, 3] = .writeParam 999 v ∧ (0x57 : Byte) = 0x57 ∧
      writeParamPayload 999 [1, 2, 3] = [0x44, 0x2F] ++ specItem 999 ++ [0x2F] ++ v) ∧
    (∃ t, exec (.command 0x52 (readParamPayload 999)) (b3 [.ioErr] [.ok]) = .next t ∧
      t.result = some (.fail .ioError)) ∧
    (∃ t, exec (.command 0x52 (readParamPayload 999)) answering = .next t ∧
      t.result = some (.ok (.reply goodRecord)) ∧
      (goodRecord.payload = [] ∨ goodRecord.payload.head? ≠ some answering.params.paramAckMarker)) ∧
    (∃ t r, exec (.command 0x52 (readParamPayload 999)) answeringParam = .next t ∧
      t.result = some (.ok (.reply r)) ∧ r.payload = answeringParam.params.paramAckMarker :: [0x31, 0x32]) :=
  ⟨by decide, ⟨rfl, rfl, rfl⟩, ⟨_, rfl, rfl, rfl⟩, ⟨_, rfl, by decide⟩, ⟨_, rfl, by decide, .inr (by decide)⟩, _,
    ⟨[0x41, 0x31, 0x32], some 0x41, some 17, some 18, none, none⟩, rfl, by decide, by decide⟩

theorem witness_CodeBytesAreValues :
    (b3 [.bytes [], .bytes []] []).busy = false ∧ (b3 [.bytes [], .bytes []] []).connOpen = true ∧
      2 < (b3 [.bytes [], .bytes []] []).params.maxReadAttempts ∧
      (b3 [.bytes [], .bytes []] []).reads = List.replicate 2 (.bytes []) ∧
      (0x05 : Byte) ≠ 0x06 ∧ (0x05 : Byte) ≠ 0x15 ∧ (0x05 : Byte) ≠ 0x04 := by decide

theorem witness_ResponseFrameIsReceived :
    let s : State := { tight with reads := [] }
    s.busy = false ∧ s.connOpen = true ∧ s.reads = [] ∧
      [(0x20 : Byte), 0x21, 0x22].length + 5 = s.params.dataReadCap := by decide

theorem witness_WireItemsOnAClosedConnection :
    (closed 2 15).busy = false ∧ (closed 2 15).connOpen = false ∧ arrivals (.rspFrame []) ≠ [] ∧ arrivals .ack ≠ [] := by
  decide

theorem witness_FailureKindsTable :
    ∃ t, exec .readData (b3 [.bytes [0x03, 0x00]] []) = .next t ∧ t.result = some (.fail .formatError) :=
  ⟨_, rfl, by decide⟩

theorem witness_FailureEntry :
    (∃ t, exec .readData (b3 [.bytes [0x03, 0x00]] []) = .next t ∧ t.result = some (.fail .formatError)) ∧
      ∃ t, exec (.encNum 0) (closed 2 15) = .next t ∧ t.result = some (.ok (.byte 0x20)) :=
  ⟨⟨_, rfl, by decide⟩, _, rfl, by decide⟩

/-- An operation outside every list, one that reads and one that sends. -/
theorem witness_RegistersWrittenOnlyByTheirOperations :
    (∃ t, exec (.encNum 0) (closed 2 15) = .next t) ∧ runsChecksum (.encNum 0) = false ∧
    runsReadCode (.encNum 0) = false ∧ runsReadData (.encNum 0) = false ∧ requestOf (.encNum 0) = none ∧
    runsParse (.encNum 0) = false ∧
    (∃ t, exec .readCode (b3 [.bytes [0x06]] []) = .next t) ∧ runsReadData .readCode = false ∧
    runsChecksum .readCode = false ∧ (∃ t, exec (.sendReq 0x42 []) (b3 [] [.ok]) = .next t) ∧
    runsParse (.sendReq 0x42 []) = false :=
  ⟨⟨_, rfl⟩, rfl, rfl, rfl, rfl, rfl, ⟨_, rfl⟩, rfl, rfl, ⟨_, rfl⟩, rfl⟩

theorem witness_ControlRegistersFrame :
    (∃ t, exec .respCycle { answering with ackWrErr := true } = .next t) ∧ isOpenOp .respCycle = false ∧
    isCloseOp .respCycle = false ∧
    (∃ t, exec (.connOpen [] 0 true) { closed 2 15 with opens := [.ok] } = .next t ∧ t.result = some (.ok .unit)) ∧
    isOpenOp (.connOpen [] 0 true) = true ∧
    (∃ t, exec .connClose (b3 [] []) = .next t) ∧ isCloseOp .connClose = true ∧
    (∃ t, exec (.parseResp goodFrame) (closed 2 15) = .next t ∧ t.result = some (.ok (.bytes [0x20, 0x21, 0x22]))) ∧
    runsEmitAck (.parseResp goodFrame) = false ∧ writesPhase (.parseResp goodFrame) = false :=
  ⟨⟨_, rfl⟩, rfl, rfl, ⟨_, rfl, by decide⟩, rfl, ⟨_, rfl⟩, rfl, ⟨_, rfl, by decide⟩, rfl, rfl⟩

theorem witness_BuffersFrame :
    (∃ t, exec (.buildReq 0x42 ninePayload) (closed 2 15) = .next t) ∧
    runsReadData (.buildReq 0x42 ninePayload) = false ∧
    requestOf (.buildReq 0x42 ninePayload) = some (0x42, ninePayload) ∧ ninePayload.length + 6 ≤ 15 ∧
    (∃ t, exec .readData (b3 [.bytes goodFrame] []) = .next t ∧ t.rxlen ≤ 8) ∧ requestOf .readData = none :=
  ⟨⟨_, rfl⟩, rfl, rfl, by decide, ⟨_, rfl, by decide⟩, rfl⟩

theorem witness_PayloadViewIsTheResult :
    (∃ t, exec .readData (b3 [.bytes goodFrame] []) = .next t ∧ t.result = some (.ok (.bytes [0x20, 0x21, 0x22]))) ∧
    (∃ t, exec .respCycle (b3 [.bytes [0x06], .bytes goodFrame, .bytes [0x04]] [.ok]) = .next t ∧
      t.result = some (.ok (.bytes [0x20, 0x21, 0x22]))) ∧
    ∃ t, exec (.rspFrame []) (b3 [] []) = .next t ∧ t.result = some (.ok (.bytes [])) :=
  ⟨⟨_, rfl, by decide⟩, ⟨_, rfl, by decide⟩, _, rfl, by decide⟩

theorem witness_AcknowledgmentOnlyAfterAGoodFrame :
    runsCycle .respCycle = true ∧
    ∃ t, exec .respCycle (b3 [.bytes [0x06], .bytes goodFrame, .bytes [0x04]] [.ok]) = .next t ∧
      ∃ e ∈ t.trace, ∃ a, e.act = .wrote [0x06] a :=
  ⟨rfl, _, rfl, ⟨.awaitingData, .wrote [0x06] .ok⟩, by decide, .ok, rfl⟩

theorem witness_OnlyRequestsAndAcknowledgmentsAreWritten :
    ∃ t, exec (.purge []) answering = .next t ∧
      ⟨.awaitingData, .wrote [0x06] .ok⟩ ∈ t.trace ∧
      ⟨.idle, .wrote [0x04, 0x30, 0x02, 0x41, 0x03, 0x74] .ok⟩ ∈ t.trace := ⟨_, rfl, by decide, by decide⟩

theorem witness_TransactionsAreBounded :
    (∃ t, exec .readCode (b3 [.bytes [], .bytes [], .bytes []] []) = .next t ∧ (t.trace.filter isRead).length = 3) ∧
    runsCycle .readCode = false ∧
    ∃ t, exec (.purge []) (b3 [.bytes [], .bytes [], .bytes [0x06], .bytes [], .bytes [], .bytes goodFrame, .bytes [],
      .bytes [], .bytes [0x04]] [.ok, .ok]) = .next t ∧ t.trace.length = 11 :=
  ⟨⟨_, rfl, by decide⟩, rfl, _, rfl, by decide⟩

theorem witness_RequestGoesFirst :
    runsCycle (.purge []) = true ∧ requestOf (.purge []) = some (0x41, []) ∧
    (∃ t, exec (.purge []) answering = .next t) ∧ (∃ t, exec (.purge []) (b3 [] [.ioErr 0]) = .next t) :=
  ⟨rfl, rfl, ⟨_, rfl⟩, _, rfl⟩

theorem witness_ReceiveStreamIsConserved :
    (∃ t, exec .readData (bench 2 5 [.bytes [0x01, 0x30, 0x02, 0x41, 0x03, 0x71, 0x50]] []) = .next t ∧
      t.draws = (bench 2 5 [.bytes [0x01, 0x30, 0x02, 0x41, 0x03, 0x71, 0x50]] []).draws) ∧
    ∃ t, exec (.rspFrame []) (b3 [] []) = .next t ∧ t.draws = (b3 [] []).draws := ⟨⟨_, rfl, by decide⟩, _, rfl, by decide⟩

theorem witness_ScratchStateDoesNotMatter :
    SameSession answering
      { answering with
        chk := 0xFF
        code := 0x15
        phase := .failed
        err := some .ioError
        rxlen := 1
        rxbuf := [(0, 0xFF)] } ∧ ∃ t, exec (.purge []) answering = .next t :=
  ⟨⟨rfl, rfl, rfl, rfl, rfl, rfl, rfl, rfl, rfl, rfl, rfl, rfl⟩, _, rfl⟩

theorem witness_LoggingChangesNothing : ∃ t, exec (.purge []) answering = .next t ∧ t.phase = .complete :=
  ⟨_, rfl, by decide⟩

end Sys2Proof.Tests
end

section
/-! The family 00_scope: what a step runs (R9, R10) and that every accepted operation ends in a next state (R17). -/

namespace Sys2Proof.Machine

/-! ### What a step runs, by what is presented -/

/-- With nothing presented the engine waits (60_exceptions R238). -/
theorem step_of_inbox_nil {s : State} (h : s.inbox = []) : step s = .next s := by
  simp [step, fetch, h]

/-- An item that is a row of the table is run as its operation. -/
theorem step_of_decode_ok {s : State} {it : Item} {rest : List Input} {i : Instr} (h : s.inbox = .item it :: rest)
    (hd : decode it = .ok i) : step s = exec i { s with inbox := rest } := by
  simp [step, fetch, h, hd]

/-- An item that is no row of the table has the effect of `runUnlisted`. -/
theorem step_of_decode_error {s : State} {it : Item} {rest : List Input} {e : DecodeError}
    (h : s.inbox = .item it :: rest) (hd : decode it = .error e) :
    step s = runUnlisted it e { s with inbox := rest } := by
  simp [step, fetch, h, hd]

/-! ### The decoder on the items a step treats apart -/

theorem decode_rsp_eq_ok {f : List Byte} {i : Instr} (h : decode (.rsp f) = .ok i) :
    ∃ p, i = .rspFrame p ∧ f = rspFrame p := by
  rcases hf : decodeRspFrame f with e | p <;> simp only [decode, hf, reduceCtorEq, Except.ok.injEq] at h
  exact ⟨p, h.symm, decodeRspFrame_inv hf⟩

theorem decode_req_of_badFrame {f : List Byte} {e : DecodeError} (h : decodeReqFrame f = .error e) :
    decode (.req f) = .error e := by
  simp [decode, h]

theorem decode_ackb_of_ne {b : Byte} (h : b ≠ 0x06) : decode (.ackb b) = .error (.notAckByte b) :=
  if_neg h

theorem decodeTableWord_eq_some {nbits w : Nat} {i : Instr} (h : decodeTableWord nbits w = some i) :
    decode (tableItem nbits w) = .ok i := by
  unfold decodeTableWord at h
  split at h
  · next hd => cases h; exact hd
  · cases h

/-! ### Unlisted items -/

/-- RSP_FRAME is READ_DATA with the frame behind what is unread: arrival and the start of an operation write different
fields (log 14). -/
theorem exec_rspFrame (p : List Byte) (s : State) : exec (.rspFrame p) s = exec .readData (arriving (rspFrame p) s) :=
  rfl

/-- Bytes presented as a data frame are read by READ_DATA, a frame of the table or not. -/
theorem step_of_rsp {s : State} {f : List Byte} {rest : List Input} (h : s.inbox = .item (.rsp f) :: rest) :
    step s = exec .readData (arriving f { s with inbox := rest }) := by
  rcases hd : decode (.rsp f) with e | i
  · exact step_of_decode_error h hd
  · obtain ⟨p, rfl, rfl⟩ := decode_rsp_eq_ok hd
    rw [step_of_decode_ok h hd, exec_rspFrame]

/-- A request frame no command gives is sent by SEND_REQ (log 33). -/
theorem runUnlisted_req_ok {f p : List Byte} {c : Byte} (h : decodeReqFrame f = .ok (c, p)) (e : DecodeError)
    (s : State) : runUnlisted (.req f) e s = exec (.sendReq c p) s := by
  simp only [runUnlisted, h, exec]

/-- Bytes that are no request frame are refused. -/
theorem runUnlisted_req_error {f : List Byte} {e : DecodeError} (h : decodeReqFrame f = .error e) (e' : DecodeError)
    (s : State) : runUnlisted (.req f) e' s = .refused (.undecodable e') := by
  simp only [runUnlisted, h]

/-! ### Every operation ends with a result -/

theorem deliver_result_ne_none (r : Res Value) : (deliver r).result ≠ none := by
  cases r <;> simp [deliver]

/-- Settles O6: `refusalOf` is empty for an accepted operation, so `exec` delivers its body's result; `Fault` has no
constructor. -/
theorem acceptedOperationsEnd : Obligations.AcceptedOperationsEnd := by
  refine ⟨fun i s hb hw hf ho => ?_, fun _ _ f => nomatch f⟩
  exact ⟨_, exec_next hb (refusalOf_eq_none hw hf ho), deliver_result_ne_none _⟩

/-- Settles O5, a clause for each kind of item and one each for the empty inbox and a table word. -/
theorem stepRunsWhatIsPresented : Obligations.StepRunsWhatIsPresented := by
  refine ⟨?decoded, ?rsp, ?unlistedReq, ?badReq, ?badHostop, ?badAck, ?waiting, ?tableWord⟩
  case decoded => exact fun _ _ _ _ h hd => step_of_decode_ok h hd
  case rsp =>
    intro s f rest h
    rw [step_of_rsp h, arriving]
  case unlistedReq =>
    intro s f rest e c p h hd hf
    rw [step_of_decode_error h hd, runUnlisted_req_ok hf]
  case badReq =>
    intro s f rest e h hf
    rw [step_of_decode_error h (decode_req_of_badFrame hf), runUnlisted_req_error hf]
  case badHostop => exact fun _ _ _ _ _ h hd => step_of_decode_error h hd
  case badAck => exact fun _ _ _ h hb => step_of_decode_error h (decode_ackb_of_ne hb)
  case waiting => exact fun _ h => step_of_inbox_nil h
  case tableWord =>
    intro s nbits w i h
    exact step_of_decode_ok (s := s.withFetchWord nbits w) rfl (decodeTableWord_eq_some h)

end Sys2Proof.Machine
end

section
/-! The family 10_state, the invariant (10_state R20 to R30, R38, 20_memory R61, R65): reset meets it and every step keeps
it. It is cut into what the buffers and lengths hold, kept stage by stage, and the order of the transactions, kept by every
primitive action. -/

namespace Sys2Proof.Machine

/-! ### CONN_OPEN by its answer -/

/-- CONN_OPEN's body by what `PortOpen` answers (41_handshake_engine R141). -/
theorem connOpenBody_cases (path : List Byte) (baud : Nat) (log : Bool) (s : State) :
    (openAnswer (configure path baud log s) = .ok ∧
      connOpenBody path baud log s = .ok () (connect (portOpen (configure path baud log s)))) ∨
    (openAnswer (configure path baud log s) = .ioErr ∧
      connOpenBody path baud log s = raise .ioError (portOpen (configure path baud log s))) := by
  cases h : openAnswer (configure path baud log s) <;> simp [connOpenBody, h]

/-! ### The buffers, the length registers and ATT -/

/-- A run written within the capacity leaves the buffer within it. -/
theorem Memory.within_writeRange {m : Memory} {cap i : Nat} {v : List Byte} (h : Memory.within m cap)
    (hv : i + v.length ≤ cap) : Memory.within (Memory.writeRange m i v) cap := by
  intro c hc
  rcases Memory.key_writeRange hc with hc | ⟨-, hlt⟩
  · exact h c hc
  · omega

/-- The part of `Inv` that speaks of the buffers, the length registers and ATT (20_memory R65). -/
def Fits (s : State) : Prop :=
  Memory.wf s.rxbuf ∧ Memory.wf s.txbuf ∧ Memory.within s.rxbuf s.params.rxbufCap ∧
    Memory.within s.txbuf s.params.txbufCap ∧ s.rxlen ≤ s.params.rxbufCap ∧ s.txlen ≤ s.params.txbufCap ∧
    s.att ≤ s.params.maxReadAttempts

theorem Fits.requestBuilt {s : State} (h : Fits s) (c : Byte) {p : List Byte} (hp : p.length ≤ s.params.maxReqPayload) :
    Fits (requestBuilt s c p) := by
  obtain ⟨rxCanonical, txCanonical, rxWithin, txWithin, rxlenLe, -, attLe⟩ := h
  have hl : p.length + 6 ≤ s.params.txbufCap := Nat.add_le_add_right hp 6
  exact ⟨rxCanonical, Memory.wf_writeRange txCanonical _ _, rxWithin,
    Memory.within_writeRange txWithin (by rwa [reqFrame_length, Nat.zero_add]), rxlenLe, hl, attLe⟩

theorem Fits.readCodeLoop {s : State} (h : Fits s) (ho : s.connOpen = true) :
    Fits (readCodeLoop s.params.maxReadAttempts (startCode s)).state := by
  obtain ⟨rxCanonical, txCanonical, rxWithin, txWithin, rxlenLe, txlenLe, -⟩ := h
  have hk := prims_codeKept.readCodeLoop rfl s.params.maxReadAttempts (startCode s) ho
  have hp := ((prims_kept .readCode).readCodeLoop rfl s.params.maxReadAttempts (startCode s) ho).params
  have ha := readCodeLoop_att s.params.maxReadAttempts (startCode s)
  rw [Fits, hk.rxbuf, hk.txbuf, hk.rxlen, hk.txlen, hp]
  exact ⟨rxCanonical, txCanonical, rxWithin, txWithin, rxlenLe, txlenLe, by simpa using ha⟩

theorem Fits.readDataLoop {s : State} (h : Fits s) (ho : s.connOpen = true) :
    Fits (readDataLoop s.params.maxReadAttempts (startData s)).state := by
  obtain ⟨rxCanonical, txCanonical, rxWithin, txWithin, -, txlenLe, -⟩ := h
  have hk := prims_dataKept.readDataLoop rfl s.params.maxReadAttempts (startData s) ho
  have hp := ((prims_kept .readData).readDataLoop rfl s.params.maxReadAttempts (startData s) ho).params
  obtain ⟨ha, hl, hw, hin⟩ := readDataLoop_bounds s.params.maxReadAttempts (startData s)
    (cap := s.params.rxbufCap) (by simp [Params.rxbufCap]) rxCanonical rxWithin
  rw [Fits, hk.txbuf, hk.txlen, hp]
  exact ⟨hw, txCanonical, hin, txWithin, hl, txlenLe, by simpa using ha⟩

/-- Every stage of every operation keeps the buffers, the lengths and ATT within their ranges. -/
theorem stages_fits (i : Instr) : Stages i fun s t => Fits s → Fits t where
  refl _ h := h
  trans f g h := g (f h)
  raising _ _ _ h := h
  phase _ _ _ h := h
  chk _ _ _ h := h
  paylen _ _ _ h := h
  request c _ _ _ hp h := h.requestBuilt c hp
  logTap _ _ _ h := h
  noteAck a _ _ h := by cases a <;> exact h
  writeRequest _ _ _ _ _ h := h
  writeAck _ _ _ h := h
  code _ ho _ h := h.readCodeLoop ho
  data _ ho _ h := h.readDataLoop ho
  arrive _ _ h := h
  opening path baud log s _ _ h := by
    rcases connOpenBody_cases path baud log s with ⟨-, e⟩ | ⟨-, e⟩ <;> rw [e] <;> exact h
  closing _ _ _ h := h

/-! ### The order of the transactions -/

/-- The part of `Inv` that speaks of the port (10_state R30, 20_memory R61): the transactions so far were in order and
CONN_OPEN says whether the port is open. -/
def InOrder (s : State) : Prop := runPort false s.trace = some s.connOpen

/-- One transaction more, in order where it stands. -/
theorem InOrder.one {s t : State} (h : InOrder s) (e : Event) (ht : t.trace = s.trace ++ [e])
    (he : portAfter s.connOpen e = some t.connOpen) : InOrder t := by
  rw [InOrder, ht, runPort_append, h]
  simp [runPort, he]

/-- Every primitive action of every operation keeps the transactions in order: reads, writes and the close are issued on
an open port only, the open on a closed one. -/
theorem prims_inOrder (i : Instr) : Prims i fun s t => InOrder s → InOrder t where
  refl _ h := h
  trans f g h := g (f h)
  raising _ _ _ h := h
  phase _ _ _ h := h
  chk _ _ _ h := h
  paylen _ _ _ h := h
  request _ _ _ _ _ h := h
  logTap _ _ _ h := h
  noteAck a _ _ h := by cases a <;> exact h
  writeRequest _ _ _ ho _ h := h.one _ rfl (by simp [portAfter, ho])
  writeAck _ ho _ h := h.one _ rfl (by simp [portAfter, ho])
  startCode _ _ h := h
  latch _ _ _ h := h
  startData _ _ h := h
  appendRx _ _ _ h := h
  attempt _ _ h := h
  read _ _ ho _ h := h.one _ rfl (by simp [portAfter, ho])
  arrive _ _ h := h
  opening path baud log s _ hc h := by
    rcases connOpenBody_cases path baud log s with ⟨ha, e⟩ | ⟨ha, e⟩ <;> rw [e]
    · exact h.one _ rfl (by simp [portAfter, ha, hc])
    · exact h.one _ rfl (by simp [portAfter, ha, hc, raise])
  closing _ _ ho h := h.one _ rfl (by simp [portAfter, ho])

/-! ### The invariant -/

theorem Inv.fits {s : State} (h : Inv s) : Fits s :=
  ⟨h.rxCanonical, h.txCanonical, h.rxWithin, h.txWithin, h.rxlenLe, h.txlenLe, h.attLe⟩

/-- The invariant from its parts. -/
theorem Inv.of_parts {s : State} (hb : s.busy = false) (hf : Fits s) (ho : InOrder s)
    (hr : ∀ k, s.err = some k ↔ s.result = some (.fail k)) (hp : s.err ≠ none → s.phase = .failed) : Inv s := by
  obtain ⟨rxCanonical, txCanonical, rxWithin, txWithin, rxlenLe, txlenLe, attLe⟩ := hf
  exact ⟨hb, rxCanonical, txCanonical, rxWithin, txWithin, rxlenLe, txlenLe, attLe, hr, hp, ho⟩

/-- Nothing in the invariant speaks of what is presented next or of what the environment will answer. -/
theorem Inv.of_environment {s : State} (h : Inv s) (inbox : List Input) (reads : List ReadAnswer) :
    Inv { s with inbox := inbox, reads := reads } :=
  .of_parts h.notBusy h.fits h.portOrder h.errResult h.errPhase

/-- A result delivered agrees with ERR, and a failure with PHASE, when the operation ended as operations do. -/
theorem Inv.deliver {s : State} {r : Res Value} (hs : s.err = none) (hr : Res.Ends s r) (hf : Fits r.state)
    (ho : InOrder r.state) : Inv (deliver r) := by
  cases r with
  | ok v t =>
    have he : t.err = none := Eq.trans hr hs
    exact .of_parts rfl hf ho (by simp [deliver_ok, he]) (by simp [deliver_ok, he])
  | fail k t =>
    obtain ⟨he, hp⟩ := hr
    exact .of_parts rfl hf ho (by simp [deliver_fail, he]) fun _ => hp

/-- Every operation keeps the invariant. -/
theorem exec_keeps_inv {i : Instr} {s t : State} (h : Inv s) (e : exec i s = .next t) : Inv t := by
  obtain ⟨-, hr, rfl⟩ := exec_eq_next.mp e
  exact .deliver rfl (bodyOf_ends i (beginOp s)) ((stages_fits i).body (s := beginOp s) hr h.fits)
    ((prims_inOrder i).stages.body (s := beginOp s) hr h.portOrder)

/-- A state of empty buffers and cleared lengths is within every capacity. -/
theorem fits_of_cleared {s : State} (hrx : s.rxbuf = []) (htx : s.txbuf = []) (hrl : s.rxlen = 0) (htl : s.txlen = 0)
    (ha : s.att = 0) : Fits s := by
  simp [Fits, Memory.wf, Memory.within, hrx, htx, hrl, htl, ha]

/-- The reset event restores the invariant, but for the transactions that were in order before it. -/
theorem inv_resetEngine {s : State} (h : InOrder s) : Inv (resetEngine s) :=
  .of_parts rfl (fits_of_cleared rfl rfl rfl rfl rfl) (runPort_reset h s.phase) (by simp [resetEngine, State.reset])
    fun hne => absurd rfl hne

/-- Settles O10: `step_cases` leaves waiting, a reset, or one operation on a state that differs from `s` only in the inbox
and the receive stream. -/
theorem stepKeepsInvariant : Obligations.StepKeepsInvariant := by
  intro s t h hstep
  rcases step_cases hstep with ⟨-, rfl⟩ | ⟨rest, -, rfl⟩ | ⟨it, rest, i, u, -, he, hu⟩
  case inl => exact h
  case inr.inl => exact inv_resetEngine h.portOrder
  case inr.inr =>
    refine exec_keeps_inv ?_ he
    rcases hu with rfl | ⟨f, -, rfl⟩
    · exact h.of_environment rest s.reads
    · exact h.of_environment rest (s.reads ++ [.bytes f])

/-- Settles O9: buffers empty, lengths 0, no transaction made. -/
theorem resetKeepsInvariant : Obligations.ResetKeepsInvariant :=
  .of_parts rfl (fits_of_cleared rfl rfl rfl rfl rfl) rfl (by simp [State.reset]) fun hne => absurd rfl hne

/-- Settles O8, field by field of `State.reset`. -/
theorem resetValues : Obligations.ResetValues :=
  ⟨rfl, rfl, rfl, rfl, rfl, rfl, rfl⟩

end Sys2Proof.Machine
end

section
/-! The family 10_state, the frames (10_state R20 "Written by", R30 to R32, R37; 41_handshake_engine R150): what an
operation is not listed to write stays. Each is a preorder that every primitive action of the operation respects. -/

namespace Sys2Proof.Machine

/-- What the primitive actions respect relates the start of an operation and its end before delivery, which writes BUSY and
the result only. -/
theorem Prims.exec_fields {i : Instr} {R : State → State → Prop} (h : Prims i R) {s t : State}
    (e : Machine.exec i s = .next t) :
    ∃ u b x, R (beginOp s) u ∧ t = { u with busy := b, result := x } := by
  obtain ⟨r, hr, -, rfl⟩ := h.exec e
  obtain ⟨b, x, hd⟩ := deliver_fields r
  exact ⟨r.state, b, x, hr, hd⟩

/-! ### The data-path registers -/

/-- The data-path registers an operation is not listed to write are unchanged (10_state R20). -/
structure DataPathKept (i : Instr) (s t : State) : Prop where
  chk : runsChecksum i = false → t.chk = s.chk
  att : runsReadCode i = false → runsReadData i = false → t.att = s.att
  rxlen : runsReadData i = false → t.rxlen = s.rxlen
  request : requestOf i = none → t.txlen = s.txlen ∧ t.cmd = s.cmd
  code : runsReadCode i = false → t.code = s.code ∧ t.clen = s.clen
  paylen : runsParse i = false → t.paylen = s.paylen

theorem DataPathKept.refl (i : Instr) (s : State) : DataPathKept i s s :=
  ⟨fun _ => rfl, fun _ _ => rfl, fun _ => rfl, fun _ => ⟨rfl, rfl⟩, fun _ => ⟨rfl, rfl⟩, fun _ => rfl⟩

theorem DataPathKept.trans {i : Instr} {a b c : State} (f : DataPathKept i a b) (g : DataPathKept i b c) :
    DataPathKept i a c where
  chk h := (g.chk h).trans (f.chk h)
  att h h' := (g.att h h').trans (f.att h h')
  rxlen h := (g.rxlen h).trans (f.rxlen h)
  request h := ⟨(g.request h).1.trans (f.request h).1, (g.request h).2.trans (f.request h).2⟩
  code h := ⟨(g.code h).1.trans (f.code h).1, (g.code h).2.trans (f.code h).2⟩
  paylen h := (g.paylen h).trans (f.paylen h)

/-- What builds a request runs CHECKSUM (40_frame_codec R122). -/
theorem runsChecksum_of_requestOf {i : Instr} {q : Byte × List Byte} (h : requestOf i = some q) :
    runsChecksum i = true := by
  unfold runsChecksum
  split
  · rfl
  · simp [h]

theorem prims_dataPathKept (i : Instr) : Prims i (DataPathKept i) where
  refl := .refl i
  trans := .trans
  raising _ s _ := { DataPathKept.refl i s with }
  phase _ s _ := { DataPathKept.refl i s with }
  chk _ s h := { DataPathKept.refl i s with chk := by simp [h] }
  paylen _ s h := { DataPathKept.refl i s with paylen := by simp [h] }
  request _ _ s h _ :=
    { DataPathKept.refl i s with chk := by simp [runsChecksum_of_requestOf h], request := by simp [h] }
  logTap _ _ s := { DataPathKept.refl i s with }
  noteAck a s _ := by cases a <;> exact { DataPathKept.refl i s with }
  writeRequest _ _ s _ _ := { DataPathKept.refl i s with }
  writeAck s _ _ := { DataPathKept.refl i s with }
  startCode s h := { DataPathKept.refl i s with att := by simp [h], code := by simp [h] }
  latch _ s h := { DataPathKept.refl i s with code := by simp [h] }
  startData s h := { DataPathKept.refl i s with att := by simp [h], rxlen := by simp [h] }
  appendRx _ s h := { DataPathKept.refl i s with rxlen := by simp [h] }
  attempt s h := { DataPathKept.refl i s with att := by rcases h with h | h <;> simp [h] }
  read _ s _ _ := { DataPathKept.refl i s with }
  arrive s _ := { DataPathKept.refl i s with }
  opening path baud log s _ _ := by
    rcases connOpenBody_cases path baud log s with ⟨-, e⟩ | ⟨-, e⟩ <;> rw [e] <;> exact { DataPathKept.refl i s with }
  closing s _ _ := { DataPathKept.refl i s with }

/-- Settles O49: the induction over the primitive actions with `DataPathKept`; delivery writes BUSY and the result only. -/
theorem registersWrittenOnlyByTheirOperations : Obligations.RegistersWrittenOnlyByTheirOperations := by
  intro i s t e
  obtain ⟨u, b, x, hk, rfl⟩ := (prims_dataPathKept i).exec_fields e
  exact ⟨hk.chk, hk.att, hk.rxlen, hk.request, hk.code, hk.paylen⟩

/-! ### The control registers -/

/-- What every operation but CONN_OPEN keeps (10_state R31, R32): the configuration, ACK_WR_ERR once it is set, and
ACK_WR_ERR as it is where EMIT_ACK does not run. -/
structure ConfigKept (i : Instr) (s t : State) : Prop where
  path : t.path = s.path
  baud : t.baud = s.baud
  logEn : t.logEn = s.logEn
  sticky : s.ackWrErr = true → t.ackWrErr = true
  ackWrErr : runsEmitAck i = false → t.ackWrErr = s.ackWrErr

theorem ConfigKept.refl (i : Instr) (s : State) : ConfigKept i s s := ⟨rfl, rfl, rfl, id, fun _ => rfl⟩

theorem ConfigKept.trans {i : Instr} {a b c : State} (f : ConfigKept i a b) (g : ConfigKept i b c) :
    ConfigKept i a c where
  path := g.path.trans f.path
  baud := g.baud.trans f.baud
  logEn := g.logEn.trans f.logEn
  sticky h := g.sticky (f.sticky h)
  ackWrErr h := (g.ackWrErr h).trans (f.ackWrErr h)

theorem prims_configKept {i : Instr} (hi : isOpenOp i = false) : Prims i (ConfigKept i) where
  refl := .refl i
  trans := .trans
  raising _ s _ := { ConfigKept.refl i s with }
  phase _ s _ := { ConfigKept.refl i s with }
  chk _ s _ := { ConfigKept.refl i s with }
  paylen _ s _ := { ConfigKept.refl i s with }
  request _ _ s _ _ := { ConfigKept.refl i s with }
  logTap _ _ s := { ConfigKept.refl i s with }
  noteAck a s h := by
    cases a with
    | ok => exact .refl i s
    | ioErr n => exact { ConfigKept.refl i s with sticky := fun _ => rfl, ackWrErr := by simp [h] }
  writeRequest _ _ s _ _ := { ConfigKept.refl i s with }
  writeAck s _ _ := { ConfigKept.refl i s with }
  startCode s _ := { ConfigKept.refl i s with }
  latch _ s _ := { ConfigKept.refl i s with }
  startData s _ := { ConfigKept.refl i s with }
  appendRx _ s _ := { ConfigKept.refl i s with }
  attempt s _ := { ConfigKept.refl i s with }
  read _ s _ _ := { ConfigKept.refl i s with }
  arrive s _ := { ConfigKept.refl i s with }
  opening _ _ _ _ h _ := by subst h; cases hi
  closing s _ _ := { ConfigKept.refl i s with }

/-- If `t` shows no failure, `s` showed none and PHASE is as it was: what holds along an operation that writes PHASE by
failing only (10_state R22). -/
def PhaseKept (s t : State) : Prop := t.err = none → s.err = none ∧ t.phase = s.phase

theorem prims_phaseKept {i : Instr} (hi : writesPhase i = false) : Prims i PhaseKept where
  refl _ h := ⟨h, rfl⟩
  trans f g h := ⟨(f (g h).1).1, (g h).2.trans (f (g h).1).2⟩
  raising _ _ _ h := by cases h
  phase _ _ h := by simp [hi] at h
  chk _ _ _ h := ⟨h, rfl⟩
  paylen _ _ _ h := ⟨h, rfl⟩
  request _ _ _ _ _ h := ⟨h, rfl⟩
  logTap _ _ _ h := ⟨h, rfl⟩
  noteAck a _ _ h := by cases a <;> exact ⟨h, rfl⟩
  writeRequest _ _ _ _ _ h := ⟨h, rfl⟩
  writeAck _ _ _ h := ⟨h, rfl⟩
  startCode _ _ h := ⟨h, rfl⟩
  latch _ _ _ h := ⟨h, rfl⟩
  startData _ _ h := ⟨h, rfl⟩
  appendRx _ _ _ h := ⟨h, rfl⟩
  attempt _ _ h := ⟨h, rfl⟩
  read _ _ _ _ h := ⟨h, rfl⟩
  arrive _ _ h := ⟨h, rfl⟩
  opening _ _ _ _ h _ := by subst h; cases hi
  closing _ _ _ h := ⟨h, rfl⟩

/-- The connection flag after CONN_OPEN, which runs on a closed connection only (41_handshake_engine R141). -/
theorem connOpen_flag {path : List Byte} {baud : Nat} {log : Bool} {s t : State}
    (e : exec (.connOpen path baud log) s = .next t) : t.connOpen = true ↔ t.result = some (.ok .unit) := by
  obtain ⟨-, hr, rfl⟩ := exec_eq_next.mp e
  have hc : s.connOpen = false := by simpa [refusalOf] using hr
  rcases connOpenBody_cases path baud log (beginOp s) with ⟨-, h⟩ | ⟨-, h⟩
  · simp [bodyOf, h, deliver_ok]
  · simp [bodyOf, h, raise, deliver_fail, hc]

/-- CONN_CLOSE leaves the connection flag cleared: it clears it, or found it so (41_handshake_engine R142). -/
theorem connClose_flag {s t : State} (e : exec .connClose s = .next t) : t.connOpen = false := by
  obtain ⟨-, -, rfl⟩ := exec_eq_next.mp e
  cases hc : s.connOpen
  · simp [bodyOf, connCloseBody, needOpen, hc, raise, deliver_fail]
  · cases ha : closeAnswer (beginOp s) <;>
      simp [bodyOf, connCloseBody, needOpen, hc, ha, raise, deliver_ok, deliver_fail]

/-- An operation that writes PHASE by failing only keeps it when it does not fail (10_state R22). -/
theorem phase_kept {i : Instr} {s t : State} (hi : writesPhase i = false) (e : exec i s = .next t)
    (hok : ∀ k, t.result ≠ some (.fail k)) : t.phase = s.phase := by
  obtain ⟨r, hk, hends, rfl⟩ := (prims_phaseKept hi).exec e
  cases r with
  | ok v u => exact (hk hends).2
  | fail k u => exact absurd rfl (hok k)

/-- Settles O50, a clause for each register or pair of registers. -/
theorem controlRegistersFrame : Obligations.ControlRegistersFrame := by
  intro i s t e
  refine ⟨fun h1 h2 => ?flag, fun h => ?opened, fun h => ?closed, fun h hs => ?sticky, fun h h' => ?ackWrErr,
    fun h => ?config, ?params, fun h hok => phase_kept h e hok⟩
  case flag =>
    obtain ⟨u, b, x, hk, rfl⟩ := (prims_session h1 h2).exec_fields e
    exact hk.connOpen
  case opened =>
    cases i
    case connOpen => exact connOpen_flag e
    all_goals cases h
  case closed =>
    cases i
    case connClose => exact connClose_flag e
    all_goals cases h
  case params =>
    obtain ⟨u, b, x, hk, rfl⟩ := (prims_kept i).exec_fields e
    exact hk.params
  all_goals obtain ⟨u, b, x, hk, rfl⟩ := (prims_configKept h).exec_fields e
  case sticky => exact hk.sticky hs
  case ackWrErr => exact hk.ackWrErr h'
  case config => exact ⟨hk.path, hk.baud, hk.logEn⟩

end Sys2Proof.Machine
end

section
/-! The family 10_state, the payload view (10_state R20, R39): a payload handed to the host is the view of a well-formed
frame in RXBUF. -/

namespace Sys2Proof.Machine

/-- RXBUF holds a well-formed frame whose payload view is `q` (10_state R20). -/
def FrameHeld (q : List Byte) (s : State) : Prop := WellFormedRsp (rxBytes s) ∧ payloadView s = q

/-- A frame held stays held where RXBUF, RXLEN and PAYLEN stay. -/
theorem FrameHeld.of_fields {q : List Byte} {s t : State} (h : FrameHeld q s) (hb : t.rxbuf = s.rxbuf)
    (hl : t.rxlen = s.rxlen) (hp : t.paylen = s.paylen) : FrameHeld q t := by
  simpa only [FrameHeld, rxBytes, payloadView, hb, hl, hp] using h

/-- The steps of a cycle: READ_DATA puts the frame in RXBUF, EMIT_ACK and the second READ_CODE do not disturb it
(41_handshake_engine R149). -/
theorem cycleWalk_frameHeld :
    CycleWalk (fun _ => True) (fun _ => True) (fun _ => True) FrameHeld FrameHeld FrameHeld FrameHeld FrameHeld
      fun _ => True where
  code1 _ _ _ := .of_state trivial
  notAck _ _ := trivial
  toData _ _ := trivial
  data s _ _ := readData_post s
  ack q s _ h :=
    have hk := emitAck_kept s
    Res.Post.of_state (F := FrameHeld q) (h.of_fields hk.rxbuf hk.rxlen hk.paylen)
      |>.mono (fun _ _ h => h) fun _ _ => trivial
  toEot _ _ h := h
  code2 q s ho h :=
    have hk := readCode_kept s ho
    Res.Post.of_state (F := FrameHeld q) (h.of_fields hk.rxbuf hk.rxlen hk.paylen)
      |>.mono (fun _ _ h => h) fun _ _ => trivial
  notEot _ _ _ := trivial
  complete _ _ h := h

/-- A payload RESP_CYCLE returns is the view of a well-formed frame in RXBUF (10_state R39). -/
theorem respCycle_post (s : State) : Res.Post FrameHeld (fun _ => True) (respCycle s) := by
  cases ho : s.connOpen
  · rw [respCycle, needOpen_closed ho]
    trivial
  · exact cycleWalk_frameHeld.respCycle ho trivial

/-- A payload delivered to the host is held in RXBUF when the operation's body ends with it held. -/
theorem frameHeld_deliver {r : Res (List Byte)} (h : Res.Post FrameHeld (fun _ => True) r) {q : List Byte}
    (hq : (deliver (r.give .bytes)).result = some (.ok (.bytes q))) : FrameHeld q (deliver (r.give .bytes)) := by
  cases r with
  | ok p u =>
    obtain rfl : p = q := by simpa [deliver_ok] using hq
    exact h
  | fail k u => simp [deliver_fail] at hq

/-- Settles O52, by what each of the three bodies ends with. -/
theorem payloadViewIsTheResult : Obligations.PayloadViewIsTheResult := by
  intro i s t q hi e hq
  obtain ⟨-, -, rfl⟩ := exec_eq_next.mp e
  rcases hi with rfl | rfl | ⟨p, rfl⟩
  · exact frameHeld_deliver (readData_post (beginOp s)) hq
  · exact frameHeld_deliver (respCycle_post (beginOp s)) hq
  · exact frameHeld_deliver (readData_post (arriving (rspFrame p) (beginOp s))) hq

end Sys2Proof.Machine
end

section
/-! The family 10_state, two runs side by side (10_state R33, R38, R39): what an operation does not depend on. Both
statements follow from `Twin.body`. -/

namespace Sys2Proof.Machine

/-! ### The answers depend on the environment only -/

theorem SameSession.readAnswer {s t : State} (h : SameSession s t) (cap : Nat) :
    readAnswer cap s = readAnswer cap t := by
  simp [Machine.readAnswer, h.reads, h.draws]

theorem SameSession.writeAnswer {s t : State} (h : SameSession s t) : writeAnswer s = writeAnswer t := by
  simp [Machine.writeAnswer, h.writes, h.draws]

theorem SameSession.openAnswer {s t : State} (h : SameSession s t) : openAnswer s = openAnswer t := by
  simp [Machine.openAnswer, h.opens, h.draws]

theorem SameSession.closeAnswer {s t : State} (h : SameSession s t) : closeAnswer s = closeAnswer t := by
  simp [Machine.closeAnswer, h.closes, h.draws]

theorem SameSession.openCfg {s t : State} (h : SameSession s t) : openCfg s = openCfg t := by
  simp [Machine.openCfg, h.path, h.baud, h.params]

/-! ### The port in two runs -/

theorem SameSession.portRead {s t : State} (h : SameSession s t) (cap : Nat) :
    SameSession (portRead cap s) (portRead cap t) :=
  { h with
    reads := by simp [Machine.portRead, h.reads, h.draws]
    draws := by simp [Machine.portRead, h.reads, h.draws] }

theorem SameSession.portWrite {s t : State} (h : SameSession s t) (b : List Byte) :
    SameSession (portWrite b s) (portWrite b t) :=
  { h with
    writes := by simp [Machine.portWrite, h.writes, h.draws]
    draws := by simp [Machine.portWrite, h.writes, h.draws] }

theorem SameSession.portOpen {s t : State} (h : SameSession s t) : SameSession (portOpen s) (portOpen t) :=
  { h with
    opens := by simp [Machine.portOpen, h.opens, h.draws]
    draws := by simp [Machine.portOpen, h.opens, h.draws] }

theorem SameSession.portClose {s t : State} (h : SameSession s t) : SameSession (portClose s) (portClose t) :=
  { h with
    closes := by simp [Machine.portClose, h.closes, h.draws]
    draws := by simp [Machine.portClose, h.closes, h.draws] }

/-! ### Scratch state -/

/-- Two runs of one operation, started with the records of transactions `l` and `l'`: they agree on the session, and have
made the same transactions with the same answers since, perhaps in other phases (10_state R39). -/
structure Alike (l l' : List Event) (s t : State) : Prop where
  session : SameSession s t
  acts : ∃ ext ext', s.trace = l ++ ext ∧ t.trace = l' ++ ext' ∧ ext.map (·.act) = ext'.map (·.act)

/-- An action that is no transaction. -/
theorem Alike.of_trace {l l' : List Event} {s t s' t' : State} (h : Alike l l' s t) (hs : SameSession s' t')
    (h1 : s'.trace = s.trace) (h2 : t'.trace = t.trace) : Alike l l' s' t' :=
  ⟨hs, by rw [h1, h2]; exact h.acts⟩

/-- One transaction more, the same in both runs. -/
theorem Alike.one {l l' : List Event} {s t s' t' : State} (h : Alike l l' s t) (hs : SameSession s' t')
    {p p' : Phase} {a a' : Action} (h1 : s'.trace = s.trace ++ [⟨p, a⟩]) (h2 : t'.trace = t.trace ++ [⟨p', a'⟩])
    (ha : a = a') : Alike l l' s' t' := by
  obtain ⟨ext, ext', e, e', hm⟩ := h.acts
  exact ⟨hs, ext ++ [⟨p, a⟩], ext' ++ [⟨p', a'⟩], by rw [h1, e, List.append_assoc], by rw [h2, e', List.append_assoc],
    by simp [hm, ha]⟩

theorem Alike.opening {l l' : List Event} {s t : State} (h : Alike l l' s t) (path : List Byte) (baud : Nat)
    (log : Bool) : Res.Rel (Alike l l') (connOpenBody path baud log s) (connOpenBody path baud log t) := by
  have hc : SameSession (configure path baud log s) (configure path baud log t) :=
    { h.session with path := rfl, baud := rfl, logEn := rfl }
  have ho : Alike l l' (portOpen (configure path baud log s)) (portOpen (configure path baud log t)) :=
    h.one hc.portOpen rfl rfl (by rw [hc.openCfg, hc.openAnswer])
  simp only [connOpenBody, hc.openAnswer]
  split
  · exact ⟨rfl, ho.of_trace { ho.session with } rfl rfl⟩
  · exact ⟨rfl, ho.of_trace { ho.session with connOpen := rfl, ackWrErr := rfl } rfl rfl⟩

theorem twin_alike (l l' : List Event) : Twin (Alike l l') where
  connOpen h := h.session.connOpen
  params h := h.session.params
  readAnswer cap h := h.session.readAnswer cap
  writeAnswer h := h.session.writeAnswer
  closeAnswer h := h.session.closeAnswer
  raising _ h := h.of_trace { h.session with } rfl rfl
  phase _ h := h.of_trace { h.session with } rfl rfl
  chk _ h := h.of_trace { h.session with } rfl rfl
  paylen _ h := h.of_trace { h.session with } rfl rfl
  request _ _ h := h.of_trace { h.session with } rfl rfl
  logTap _ _ h := h.of_trace { h.session with } rfl rfl
  noteAck a h := by
    cases a with
    | ok => exact h
    | ioErr n => exact h.of_trace { h.session with ackWrErr := rfl } rfl rfl
  startCode h := h.of_trace { h.session with } rfl rfl
  latch _ h := h.of_trace { h.session with } rfl rfl
  startData h := h.of_trace { h.session with } rfl rfl
  appendRx _ h := h.of_trace { h.session with } rfl rfl
  attempt h := h.of_trace { h.session with } rfl rfl
  read cap h := h.one (h.session.portRead cap) rfl rfl (by rw [h.session.readAnswer])
  write b h := h.one (h.session.portWrite b) rfl rfl (by rw [h.session.writeAnswer])
  arrive b h := h.of_trace { h.session with reads := by simp [h.session.reads] } rfl rfl
  opening path baud log h := h.opening path baud log
  closing h :=
    h.one { h.session.portClose with connOpen := rfl } rfl rfl (by rw [h.session.closeAnswer])

/-- The same end, delivered: the same result, in related states that are not busy. -/
theorem Res.Rel.deliver {R : State → State → Prop} {r q : Res Value} (h : Res.Rel R r q) :
    ∃ u v x, R u v ∧ deliver r = { u with busy := false, result := x } ∧
      deliver q = { v with busy := false, result := x } := by
  cases r <;> cases q
  case ok.ok v s w t =>
    obtain ⟨rfl, h⟩ := h
    exact ⟨s, t, _, h, rfl, rfl⟩
  case fail.fail k s k' t =>
    obtain ⟨rfl, h⟩ := h
    exact ⟨s, t, _, h, rfl, rfl⟩
  all_goals exact h.elim

/-- Settles O58: `Twin.body` with `Alike`, from records to which nothing has been added yet. -/
theorem scratchStateDoesNotMatter : Obligations.ScratchStateDoesNotMatter := by
  intro i s s' t h e
  obtain ⟨hb, hr, rfl⟩ := exec_eq_next.mp e
  have hstart : Alike s.trace s'.trace (beginOp s) (beginOp s') :=
    ⟨{ h with busy := rfl }, [], [], by simp, by simp, rfl⟩
  obtain ⟨u, v, x, ⟨hs, ext, ext', hu, hv, hm⟩, hd, hd'⟩ := ((twin_alike _ _).body i hstart).deliver
  rw [hd]
  refine ⟨{ v with busy := false, result := x }, ext, ext', ?_, rfl, { hs with busy := rfl }, hu, hv, hm⟩
  exact exec_eq_next.mpr ⟨h.busy ▸ hb, refusalOf_params h.connOpen h.params ▸ hr, hd'.symm⟩

/-! ### The logging tap -/

/-- With another logging flag and other tap records (10_state R33). -/
def withLog (on : Bool) (tap : List TapRecord) (s : State) : State := { s with logEn := on, tap := tap }

/-- The states differ in LOG_EN and the tap's records only. -/
def SameButLog (s t : State) : Prop := ∃ on tap, t = withLog on tap s

/-- CONN_OPEN sets LOG_EN alike in both runs. -/
theorem withLog_opening (on : Bool) (tap : List TapRecord) (path : List Byte) (baud : Nat) (log : Bool) (s : State) :
    Res.Rel SameButLog (connOpenBody path baud log s) (connOpenBody path baud log (withLog on tap s)) := by
  have hc : configure path baud log (withLog on tap s) = withLog log tap (configure path baud log s) := rfl
  have ha : openAnswer (withLog log tap (configure path baud log s)) = openAnswer (configure path baud log s) := rfl
  simp only [connOpenBody, hc, ha]
  split <;> exact ⟨rfl, log, tap, rfl⟩

theorem twin_sameButLog : Twin SameButLog where
  connOpen h := by obtain ⟨on, tap, rfl⟩ := h; rfl
  params h := by obtain ⟨on, tap, rfl⟩ := h; rfl
  readAnswer _ h := by obtain ⟨on, tap, rfl⟩ := h; rfl
  writeAnswer h := by obtain ⟨on, tap, rfl⟩ := h; rfl
  closeAnswer h := by obtain ⟨on, tap, rfl⟩ := h; rfl
  raising _ h := by obtain ⟨on, tap, rfl⟩ := h; exact ⟨on, tap, rfl⟩
  phase _ h := by obtain ⟨on, tap, rfl⟩ := h; exact ⟨on, tap, rfl⟩
  chk _ h := by obtain ⟨on, tap, rfl⟩ := h; exact ⟨on, tap, rfl⟩
  paylen _ h := by obtain ⟨on, tap, rfl⟩ := h; exact ⟨on, tap, rfl⟩
  request _ _ h := by obtain ⟨on, tap, rfl⟩ := h; exact ⟨on, tap, rfl⟩
  logTap _ _ h := by obtain ⟨on, tap, rfl⟩ := h; exact ⟨on, _, rfl⟩
  noteAck a h := by obtain ⟨on, tap, rfl⟩ := h; cases a <;> exact ⟨on, tap, rfl⟩
  startCode h := by obtain ⟨on, tap, rfl⟩ := h; exact ⟨on, tap, rfl⟩
  latch _ h := by obtain ⟨on, tap, rfl⟩ := h; exact ⟨on, tap, rfl⟩
  startData h := by obtain ⟨on, tap, rfl⟩ := h; exact ⟨on, tap, rfl⟩
  appendRx _ h := by obtain ⟨on, tap, rfl⟩ := h; exact ⟨on, tap, rfl⟩
  attempt h := by obtain ⟨on, tap, rfl⟩ := h; exact ⟨on, tap, rfl⟩
  read _ h := by obtain ⟨on, tap, rfl⟩ := h; exact ⟨on, tap, rfl⟩
  write _ h := by obtain ⟨on, tap, rfl⟩ := h; exact ⟨on, tap, rfl⟩
  arrive _ h := by obtain ⟨on, tap, rfl⟩ := h; exact ⟨on, tap, rfl⟩
  opening path baud log h := by obtain ⟨on, tap, rfl⟩ := h; exact withLog_opening on tap path baud log _
  closing h := by obtain ⟨on, tap, rfl⟩ := h; exact ⟨on, tap, rfl⟩

/-- Settles O59: `Twin.body` with `SameButLog`. -/
theorem loggingChangesNothing : Obligations.LoggingChangesNothing := by
  intro i s t on tap e
  obtain ⟨hb, hr, rfl⟩ := exec_eq_next.mp e
  have hstart : SameButLog (beginOp s) (beginOp (withLog on tap s)) := ⟨on, tap, rfl⟩
  obtain ⟨u, _, x, ⟨on', tap', rfl⟩, hd, hd'⟩ := (twin_sameButLog.body i hstart).deliver
  rw [hd]
  exact ⟨withLog on' tap' { u with busy := false, result := x },
    exec_eq_next.mpr ⟨hb, refusalOf_params rfl rfl ▸ hr, hd'.symm⟩, rfl⟩

end Sys2Proof.Machine
end

section
/-! The family 20_memory, what is refused (20_memory R69, 93_implementation_defined U1, U11, U12): the reason `refusalOf`
names, operation by operation. -/

namespace Sys2Proof.Machine

/-! ### The reason each test names -/

theorem exec_busy {s : State} (h : s.busy = true) (i : Instr) : exec i s = .refused .invokedWhileBusy := by
  simp [exec_eq_invoke, invoke, h]

theorem refuseNum_eq_some {v : Nat} (h : 0xDF < v) : refuseNum v = some (.numberOutOfDomain v) := by
  simp [refuseNum, numInDomain, Nat.not_le.mpr h]

theorem refuseItem_eq_some {k : Nat} (h : 999 < k) : refuseItem k = some (.itemOutOfDomain k) := by
  simp [refuseItem, itemInDomain, Nat.not_le.mpr h]

theorem refusePayload_eq_some {s : State} {p : List Byte} (h : s.params.maxReqPayload < p.length) :
    refusePayload s p = some (.payloadTooLong p.length) := by
  simp [refusePayload, Nat.not_le.mpr h]

@[simp] theorem firstRefusal_some (r : Refusal) (b : Option Refusal) : firstRefusal (some r) b = some r := rfl

@[simp] theorem firstRefusal_none (b : Option Refusal) : firstRefusal none b = b := rfl

/-! ### The reason each operation is refused for -/

/-- A numeric command is refused for its numbers first, then for its payload (42_command_surface R192; log 22). -/
theorem refusalOf_numericCommand {e : Byte × (List Nat → Instr)} (he : e ∈ numericCommands) (a : List Nat) (s : State) :
    refusalOf (e.2 a) s = firstRefusal (refuseNums a) (refusePayload s (numPayload a)) := by
  simp only [numericCommands, List.mem_cons, List.not_mem_nil, or_false] at he
  rcases he with rfl | rfl | rfl | rfl | rfl | rfl | rfl | rfl | rfl | rfl <;> rfl

theorem refuseNums_of_all {a : List Nat} (h : a.all numInDomain = true) : refuseNums a = none :=
  refuseNums_eq_none.mpr (by simpa [numInDomain] using h)

theorem refuseItem_of_inDomain {k : Nat} (h : itemInDomain k = true) : refuseItem k = none := by
  simp [refuseItem, h]

/-- A request whose operands are in their domains can only be refused for its payload's length (40_frame_codec R123 (e)). -/
theorem refusalOf_of_wellFormed {i : Instr} {c : Byte} {p : List Byte} (hw : i.wellFormed = true)
    (hq : requestOf i = some (c, p)) (s : State) : refusalOf i s = refusePayload s p := by
  cases i
  case buildReq | sendReq | command =>
    cases hq
    rfl
  case dispense n =>
    cases hq
    have hn : refuseNums [n] = none := refuseNums_of_all (by simpa [Instr.wellFormed] using hw)
    simp [refusalOf, hn]
  case readParam | writeParam =>
    cases hq
    simp [refusalOf, refuseItem_of_inDomain hw]
  case status | purge | testDispense | reset | lastStatus | configStatus | ddDiag | sensorDiag | snDispense | snEject
    | testMode =>
    cases hq
    simp [refusalOf, refuseNums_of_all hw]
  all_goals cases hq

/-- Settles O7, a clause for each reason: BUSY, a second open, a number, an item, a payload too long. -/
theorem whatIsRefused : Obligations.WhatIsRefused := by
  refine ⟨?busy, ?alreadyOpen, ?encNum, ?dispense, ?numeric, ?status, ?item, ?payload⟩
  case busy => exact fun i _ h => exec_busy h i
  case alreadyOpen => exact fun s _ _ _ hb ho => exec_refused hb (by simp [refusalOf, ho])
  case encNum => exact fun s _ hb hv => exec_refused hb (refuseNum_eq_some hv)
  case dispense =>
    intro s v hb hv
    have hn : refuseNums [v] = some (.numberOutOfDomain v) := refuseNums_append (a := []) (by simp) hv
    exact exec_refused hb (by simp [refusalOf, hn])
  case numeric =>
    intro e he s good more v hb hg hv
    exact exec_refused hb (by rw [refusalOf_numericCommand he, refuseNums_append hg hv, firstRefusal_some])
  case status =>
    intro s good more v hb hg hv
    exact exec_refused hb (by simp [refusalOf, refuseNums_append hg hv])
  case item =>
    intro s k hb hk
    have hi := refuseItem_eq_some hk
    exact ⟨exec_refused hb hi, exec_refused hb (by simp [refusalOf, hi]),
      fun v => exec_refused hb (by simp [refusalOf, hi])⟩
  case payload =>
    intro i s c p hb hw hq hp
    exact exec_refused hb (by rw [refusalOf_of_wellFormed hw hq, refusePayload_eq_some hp])

end Sys2Proof.Machine
end

section
/-! The family 20_memory, the request frame in TXBUF (20_memory R63): its address map, read byte by byte. -/

namespace Sys2Proof.Machine

/-! ### Reading what was written -/

/-- A byte of the range written is the byte written there. -/
theorem Memory.read_writeRange_inside (m : Memory) (i : Nat) {v : List Byte} {k : Nat} {b : Byte}
    (h : v[k]? = some b) : Memory.read (Memory.writeRange m i v) (i + k) = b := by
  have hk : k < v.length := (List.getElem?_eq_some_iff.mp h).1
  have e := Memory.readRange_getElem? (Memory.writeRange m i v) i v.length k hk
  rw [Memory.readRange_writeRange, h] at e
  exact (Option.some.inj e).symm

/-- The first bytes of the range written are the first bytes written. -/
theorem Memory.readRange_writeRange_take (m : Memory) (i : Nat) {v : List Byte} {n : Nat} (h : n ≤ v.length) :
    Memory.readRange (Memory.writeRange m i v) i n = v.take n := by
  refine List.ext_getElem? fun k => ?_
  rcases Nat.lt_or_ge k n with hk | hk
  · obtain ⟨b, hb⟩ : ∃ b, v[k]? = some b := ⟨_, List.getElem?_eq_getElem (by omega)⟩
    rw [Memory.readRange_getElem? _ _ _ _ hk, List.getElem?_take_of_lt hk, hb, Memory.read_writeRange_inside m i hb]
  · rw [List.getElem?_eq_none (by simpa using hk), List.getElem?_eq_none (by simp; omega)]

/-! ### The request frame by offset (20_memory R63) -/

theorem reqFrame_payload {c : Byte} {p : List Byte} {i : Nat} {b : Byte} (h : p[i]? = some b) :
    (reqFrame c p)[4 + i]? = some b := by
  have hi : i < p.length := (List.getElem?_eq_some_iff.mp h).1
  simp [reqFrame, List.getElem?_append, Nat.add_comm 4 i, h]
  omega

theorem reqFrame_textEnd (c : Byte) (p : List Byte) : (reqFrame c p)[4 + p.length]? = some 0x03 := by
  simp [reqFrame, Nat.add_comm 4, Wire.textEnd]

/-- The last byte of a request frame is the checksum of those before it (40_frame_codec R126). -/
theorem reqFrame_checksum (c : Byte) (p : List Byte) :
    (reqFrame c p)[5 + p.length]? = some (checksum ((reqFrame c p).take (5 + p.length))) := by
  have hbody : (reqFrame c p).take (5 + p.length) =
      [Wire.requestStart, Wire.deviceAddress, Wire.textStart, c] ++ p ++ [Wire.textEnd] :=
    List.take_left' (by simp; omega)
  rw [hbody]
  simp [reqFrame, Nat.add_comm 5]

/-- BUILD_REQ leaves its frame in TXBUF from offset 0 (40_frame_codec R122). -/
theorem exec_buildReq_tx {c : Byte} {p : List Byte} {s t : State} (e : exec (.buildReq c p) s = .next t) :
    t.txlen = p.length + 6 ∧ t.txbuf = Memory.writeRange s.txbuf 0 (reqFrame c p) := by
  obtain ⟨-, -, rfl⟩ := exec_eq_next.mp e
  simp only [bodyOf, buildReq_eq, deliver_ok]
  exact ⟨rfl, rfl⟩

/-- Settles O14: TXBUF holds the frame from offset 0, so each offset of the map reads as the frame's byte there. -/
theorem requestFrameMap : Obligations.RequestFrameMap := by
  intro c p s t e
  obtain ⟨hlen, hbuf⟩ := exec_buildReq_tx e
  have hread : ∀ {k b}, (reqFrame c p)[k]? = some b → Memory.read t.txbuf k = b := fun {k b} h => by
    have hin := Memory.read_writeRange_inside s.txbuf 0 h
    rwa [Nat.zero_add, ← hbuf] at hin
  have hinit : Memory.readRange t.txbuf 0 (5 + p.length) = (reqFrame c p).take (5 + p.length) := by
    rw [hbuf, Memory.readRange_writeRange_take _ _ (by simp; omega)]
  refine ⟨hlen, hread rfl, hread rfl, hread rfl, hread rfl, fun i b h => hread (reqFrame_payload h),
    hread (reqFrame_textEnd c p), ?checksum, fun a ha => ?above⟩
  case checksum => rw [hinit, hread (reqFrame_checksum c p)]
  case above => rw [hbuf, Memory.read_writeRange_above _ _ _ (by simpa using ha)]

end Sys2Proof.Machine
end

section
/-! The family 20_memory, the bytes of both buffers an operation leaves (20_memory R51, R52): RXBUF is followed through
the steps of a cycle, since READ_DATA's RXLEN decides which bytes are its own; TXBUF through the primitive actions. -/

namespace Sys2Proof.Machine

/-! ### The end of an operation that runs a cycle -/

/-- COMMAND ends as its SEND_REQ failed, or as RESP_CYCLE after it ended (42_command_surface R173). -/
theorem command_state (c : Byte) (p : List Byte) (s : State) :
    (∃ k t, sendReq c p (setPhase .idle s) = .fail k t ∧ (command c p s).state = t) ∨
    ∃ t, sendReq c p (setPhase .idle s) = .ok () t ∧ (command c p s).state = (respCycle t).state := by
  unfold command
  rcases hs : sendReq c p (setPhase .idle s) with ⟨⟨⟩, t⟩ | ⟨k, t⟩
  · refine .inr ⟨t, rfl, ?_⟩
    rw [Res.bind_ok]
    cases respCycle t <;> rfl
  · exact .inl ⟨k, t, rfl, rfl⟩

/-- CheckParamAck passes, or fails with IllegalCommand (42_command_surface R189). -/
theorem checkParamAck_cases (q : List Byte) (s : State) :
    checkParamAck q s = .ok () s ∨ checkParamAck q s = raise .illegalCommand s := by
  unfold checkParamAck
  split
  · exact .inl rfl
  · exact .inr rfl

/-- A command ends as its COMMAND, but for CheckParamAck's failure (42_command_surface R189). -/
theorem commandBody_state (i : Instr) (c : Byte) (p : List Byte) (s : State) :
    (commandBody i c p s).state = (command c p s).state ∨
      (commandBody i c p s).state = enterFailed .illegalCommand (command c p s).state := by
  unfold commandBody
  cases command c p s with
  | fail k t => exact .inl rfl
  | ok rec t =>
    cases i
    case readParam | writeParam =>
      rcases checkParamAck_cases rec.payload t with e | e <;> simp only [Res.bind_ok, Res.bind_raise, e]
      · exact .inl rfl
      · exact .inr rfl
    all_goals exact .inl rfl

/-- An operation that runs RESP_CYCLE is RESP_CYCLE itself or a command with a request. -/
theorem runsCycle_cases {i : Instr} (h : runsCycle i = true) : i = .respCycle ∨ ∃ c p, requestOf i = some (c, p) := by
  cases i
  case respCycle => exact .inl rfl
  all_goals first | exact .inr ⟨_, _, rfl⟩ | cases h

/-- READ_DATA is run by itself, for a data frame presented, or in a cycle. -/
theorem runsReadData_cases {i : Instr} (h : runsReadData i = true) :
    i = .readData ∨ (∃ p, i = .rspFrame p) ∨ runsCycle i = true := by
  cases i
  case readData => exact .inl rfl
  case rspFrame p => exact .inr (.inl ⟨p, rfl⟩)
  all_goals exact .inr (.inr h)

/-- What holds at the end of an operation that runs RESP_CYCLE: `F`, when RESP_CYCLE leads from `P` to it and `P` holds at
the start and after SEND_REQ, however that ended; a failed CheckParamAck keeps it. -/
theorem bodyOf_cycle {i : Instr} (hi : runsCycle i = true) {P F : State → Prop} {s : State} (hstart : P s)
    (hsend : ∀ c p, P (sendReq c p (setPhase .idle s)).state) (hP : ∀ t, P t → F t)
    (hcycle : ∀ t, P t → F (respCycle t).state) (hcheck : ∀ t, F t → F (enterFailed .illegalCommand t)) :
    F (bodyOf i s).state := by
  rcases runsCycle_cases hi with rfl | ⟨c, p, hq⟩
  · exact (Res.give_state _ _).symm ▸ hcycle s hstart
  have hs := hsend c p
  have hcommand : F (command c p s).state := by
    rcases command_state c p s with ⟨k, t, ht, e⟩ | ⟨t, ht, e⟩ <;> rw [ht] at hs <;> rw [e]
    · exact hP t hs
    · exact hcycle t hs
  rw [bodyOf_command hi hq]
  rcases commandBody_state i c p s with e | e <;> rw [e]
  · exact hcommand
  · exact hcheck _ hcommand

/-! ### RXBUF -/

theorem prims_rxbufKept {i : Instr} (hi : runsReadData i = false) : Prims i fun s t => t.rxbuf = s.rxbuf where
  refl _ := rfl
  trans f g := g.trans f
  raising _ _ _ := rfl
  phase _ _ _ := rfl
  chk _ _ _ := rfl
  paylen _ _ _ := rfl
  request _ _ _ _ _ := rfl
  logTap _ _ _ := rfl
  noteAck a s _ := noteAckWrite_rxbuf a s
  writeRequest _ _ _ _ _ := rfl
  writeAck _ _ _ := rfl
  startCode _ _ := rfl
  latch _ _ _ := rfl
  startData _ _ := rfl
  appendRx _ _ h := by simp [hi] at h
  attempt _ _ := rfl
  read _ _ _ _ := rfl
  arrive _ _ := rfl
  opening path baud log s _ _ := by
    rcases connOpenBody_cases path baud log s with ⟨-, e⟩ | ⟨-, e⟩ <;> rw [e] <;> rfl
  closing _ _ _ := rfl

/-- From RXLEN on, RXBUF reads as `m` (20_memory R51). -/
def RxAbove (m : Memory) (s : State) : Prop := ∀ a, s.rxlen ≤ a → Memory.read s.rxbuf a = Memory.read m a

theorem RxAbove.of_rxbuf {m : Memory} {s : State} (h : s.rxbuf = m) : RxAbove m s := fun a _ => by rw [h]

theorem RxAbove.of_fields {m : Memory} {s t : State} (h : RxAbove m s) (hb : t.rxbuf = s.rxbuf)
    (hl : t.rxlen = s.rxlen) : RxAbove m t := by
  simpa only [RxAbove, hb, hl] using h

/-- The steps of a cycle: RXBUF is `m` until READ_DATA, and reads as `m` from RXLEN on after it (41_handshake_engine
R149). -/
theorem cycleWalk_rxAbove (m : Memory) :
    CycleWalk (·.rxbuf = m) (·.rxbuf = m) (·.rxbuf = m) (fun _ => RxAbove m) (fun _ => RxAbove m) (fun _ => RxAbove m)
      (fun _ => RxAbove m) (fun _ => RxAbove m) (RxAbove m) where
  code1 s ho h :=
    (Res.Post.of_state (F := (·.rxbuf = m)) ((readCode_kept s ho).rxbuf.trans h)).mono (fun _ _ h => h)
      fun _ => .of_rxbuf
  notAck _ h := .of_rxbuf h
  toData _ h := h
  data s _ h := .of_state fun a ha => by rw [readData_above s a ha, h]
  ack _ s _ h := .of_state (h.of_fields (emitAck_kept s).rxbuf (emitAck_kept s).rxlen)
  toEot _ _ h := h
  code2 _ s ho h := .of_state (h.of_fields (readCode_kept s ho).rxbuf (readCode_kept s ho).rxlen)
  notEot _ _ h := h
  complete _ _ h := h

/-- A condition on the state at the end of a part, however it ends. -/
theorem Res.Post.state {α : Type} {F : State → Prop} {r : Res α} (h : Res.Post (fun _ => F) F r) : F r.state := by
  cases r <;> exact h

/-- RESP_CYCLE leaves the bytes of RXBUF from the RXLEN it ends with on (20_memory R51). -/
theorem respCycle_rxAbove (s : State) : RxAbove s.rxbuf (respCycle s).state := by
  cases ho : s.connOpen
  · rw [respCycle, needOpen_closed ho]
    exact .of_rxbuf rfl
  · exact ((cycleWalk_rxAbove s.rxbuf).respCycle ho rfl).state

/-- SEND_REQ does not touch RXBUF (41_handshake_engine R143). -/
theorem sendReq_rxbuf (c : Byte) (p : List Byte) (s : State) : (sendReq c p s).state.rxbuf = s.rxbuf := by
  cases ho : s.connOpen
  · rw [sendReq, needOpen_closed ho]
    rfl
  · rw [sendReq_open ho]
    cases writeAnswer s <;> rfl

/-- Every operation leaves the bytes of RXBUF from the RXLEN it ends with on. -/
theorem bodyOf_rxAbove {i : Instr} {s : State} (hr : refusalOf i s = none) : RxAbove s.rxbuf (bodyOf i s).state := by
  cases hd : runsReadData i
  · exact .of_rxbuf ((prims_rxbufKept hd).stages.body hr)
  rcases runsReadData_cases hd with rfl | ⟨p, rfl⟩ | hi
  · exact (Res.give_state _ _).symm ▸ readData_above s
  · exact (Res.give_state _ _).symm ▸ readData_above (arriving (rspFrame p) s)
  · exact bodyOf_cycle (P := (·.rxbuf = s.rxbuf)) hi rfl (fun c p => sendReq_rxbuf c p _) (fun _ => .of_rxbuf)
      (fun t h => h ▸ respCycle_rxAbove t) fun _ h => h

/-! ### TXBUF -/

/-- TXBUF reads as before at every offset outside the frame of the operation's request, if it has one (20_memory R52). -/
def TxKept (i : Instr) (s t : State) : Prop :=
  ∀ a, (∀ c p, requestOf i = some (c, p) → p.length + 6 ≤ a) → Memory.read t.txbuf a = Memory.read s.txbuf a

theorem TxKept.of_txbuf {i : Instr} {s t : State} (h : t.txbuf = s.txbuf) : TxKept i s t := fun a _ => by rw [h]

theorem prims_txKept (i : Instr) : Prims i (TxKept i) where
  refl _ := .of_txbuf rfl
  trans f g a ha := (g a ha).trans (f a ha)
  raising _ _ _ := .of_txbuf rfl
  phase _ _ _ := .of_txbuf rfl
  chk _ _ _ := .of_txbuf rfl
  paylen _ _ _ := .of_txbuf rfl
  request c p s hq _ a ha := Memory.read_writeRange_above s.txbuf 0 (reqFrame c p) (by simpa using ha c p hq)
  logTap _ _ _ := .of_txbuf rfl
  noteAck a s _ := .of_txbuf (noteAckWrite_txbuf a s)
  writeRequest _ _ _ _ _ := .of_txbuf rfl
  writeAck _ _ _ := .of_txbuf rfl
  startCode _ _ := .of_txbuf rfl
  latch _ _ _ := .of_txbuf rfl
  startData _ _ := .of_txbuf rfl
  appendRx _ _ _ := .of_txbuf rfl
  attempt _ _ := .of_txbuf rfl
  read _ _ _ _ := .of_txbuf rfl
  arrive _ _ := .of_txbuf rfl
  opening path baud log s _ _ := by
    rcases connOpenBody_cases path baud log s with ⟨-, e⟩ | ⟨-, e⟩ <;> rw [e] <;> exact .of_txbuf rfl
  closing _ _ _ := .of_txbuf rfl

/-- Settles O51: `prims_rxbufKept`, `bodyOf_rxAbove` and, for both clauses on TXBUF, `prims_txKept`. -/
theorem buffersFrame : Obligations.BuffersFrame := by
  intro i s t e
  have htx : TxKept i s t := by
    obtain ⟨u, b, x, hk, rfl⟩ := (prims_txKept i).exec_fields e
    exact hk
  refine ⟨fun hd a => ?_, ?_, fun hq a => htx a (by simp [hq]), fun c p hq a ha => htx a (by simpa [hq])⟩
  · obtain ⟨u, b, x, hk, rfl⟩ := (prims_rxbufKept hd).exec_fields e
    exact congrArg (Memory.read · a) hk
  · obtain ⟨-, hr, rfl⟩ := exec_eq_next.mp e
    obtain ⟨b, x, hd⟩ := deliver_fields (bodyOf i (beginOp s))
    rw [hd]
    exact bodyOf_rxAbove (s := beginOp s) hr

end Sys2Proof.Machine
end

section
/-! The family 20_memory, the order of a cycle's transactions (20_memory R66, 41_handshake_engine R149 to R151): the
acknowledgment follows a good frame, the request goes first, PHASE never goes back. Both are carried through the four steps
of RESP_CYCLE. -/

namespace Sys2Proof.Machine

/-! ### The record through the parts of a cycle -/

/-- The reads of a loop, as a record grown by events that are as `P` says of every read. -/
theorem ReadsIn.extends {P : Event → Prop} {p : Phase} {n : Nat} {s t : State} (h : ReadsIn p n s t)
    (hP : ∀ e, isRead e = true → P e) : Extends P s t := by
  obtain ⟨ext, ht, -, he⟩ := h
  exact ⟨ext, ht, fun e hm => hP e (he e hm).1⟩

theorem Extends.mono {P Q : Event → Prop} {s t : State} (h : Extends P s t) (hPQ : ∀ e, P e → Q e) : Extends Q s t := by
  obtain ⟨ext, ht, he⟩ := h
  exact ⟨ext, ht, fun e hm => hPQ e (he e hm)⟩

/-! ### The acknowledgment (20_memory R66 (b)) -/

/-- The transaction is no write of the acknowledgment byte alone. -/
def NoAck (e : Event) : Prop := ∀ a, e.act ≠ .wrote [0x06] a

theorem noAck_of_isRead {e : Event} (h : isRead e = true) : NoAck e := by
  intro a ha
  simp [isRead, ha] at h

theorem noAck_request (ph : Phase) (c : Byte) (p : List Byte) (a : WriteAnswer) :
    NoAck ⟨ph, .wrote (reqFrame c p) a⟩ := by
  rintro b ⟨⟩

/-- Since `s`, the acknowledgment was written only if RXBUF holds a well-formed frame. -/
def AckJustified (s t : State) : Prop :=
  ∃ ext, t.trace = s.trace ++ ext ∧ ((∃ e ∈ ext, ∃ a, e.act = .wrote [0x06] a) → WellFormedRsp (rxBytes t))

theorem AckJustified.of_noAck {s t : State} (h : Extends NoAck s t) : AckJustified s t := by
  obtain ⟨ext, ht, he⟩ := h
  exact ⟨ext, ht, fun ⟨e, hm, a, ha⟩ => absurd ha (he e hm a)⟩

/-- The record has grown since `s`, and RXBUF holds a well-formed frame. -/
def AckReady (s t : State) : Prop := Extends (fun _ => True) s t ∧ WellFormedRsp (rxBytes t)

theorem AckReady.justified {s t : State} (h : AckReady s t) : AckJustified s t := by
  obtain ⟨⟨ext, ht, -⟩, hw⟩ := h
  exact ⟨ext, ht, fun _ => hw⟩

/-- A frame held stays held while the record grows and RXBUF and RXLEN stay. -/
theorem AckReady.of_fields {s t u : State} (h : AckReady s t) (g : Extends (fun _ => True) t u)
    (hb : u.rxbuf = t.rxbuf) (hl : u.rxlen = t.rxlen) : AckReady s u :=
  ⟨h.1.trans g, by simpa only [rxBytes, hb, hl] using h.2⟩

theorem readCode_noAck (s : State) : Extends NoAck s (readCode s).state :=
  (readCode_reads s).1.extends fun _ => noAck_of_isRead

theorem readData_noAck (s : State) : Extends NoAck s (readData s).state :=
  (readData_reads s).1.extends fun _ => noAck_of_isRead

/-- The steps of a cycle: no acknowledgment before READ_DATA ends Ok, a well-formed frame in RXBUF from then on
(41_handshake_engine R149). -/
theorem cycleWalk_ackJustified (s : State) :
    CycleWalk (Extends NoAck s) (Extends NoAck s) (Extends NoAck s) (fun _ => AckReady s) (fun _ => AckReady s)
      (fun _ => AckReady s) (fun _ => AckReady s) (fun _ => AckReady s) (AckJustified s) where
  code1 t _ h := (Res.Post.of_state (h.trans (readCode_noAck t))).mono (fun _ _ h => h) fun _ => .of_noAck
  notAck _ h := .of_noAck h
  toData _ h := h
  data t _ h :=
    ((readData_post t).and (.of_state (h.trans (readData_noAck t)))).mono
      (fun _ _ ⟨⟨hw, _⟩, hx⟩ => ⟨hx.mono fun _ _ => trivial, hw⟩) fun _ ⟨_, hx⟩ => .of_noAck hx
  ack _ t ho h := by
    obtain ⟨a, u, e, ht, -⟩ := emitAck_open ho
    have hk := emitAck_kept t
    rw [e] at hk ⊢
    exact h.of_fields (.one ht trivial) hk.rxbuf hk.rxlen
  toEot _ _ h := h
  code2 _ t ho h :=
    (Res.Post.of_state (F := AckReady s) (h.of_fields ((readCode_noAck t).mono fun _ _ => trivial)
      (readCode_kept t ho).rxbuf (readCode_kept t ho).rxlen)).mono (fun _ _ h => h) fun _ => AckReady.justified
  notEot _ _ h := h.justified
  complete _ _ h := h

/-- RESP_CYCLE writes the acknowledgment only after a good frame, when nothing has written it since `s`. -/
theorem respCycle_ackJustified {s t : State} (h : Extends NoAck s t) : AckJustified s (respCycle t).state := by
  cases ho : t.connOpen
  · rw [respCycle, needOpen_closed ho]
    exact .of_noAck h
  · exact (((cycleWalk_ackJustified s).respCycle ho h).mono (fun _ _ => AckReady.justified) fun _ h => h).state

/-- SEND_REQ writes no acknowledgment (41_handshake_engine R143). -/
theorem sendReq_noAck (c : Byte) (p : List Byte) (s : State) : Extends NoAck s (sendReq c p s).state := by
  rcases sendReq_trace c p s with ⟨a, k, t, e, ht | ⟨ht, -⟩⟩ | ⟨t, e, -, ht⟩ <;> rw [e]
  · exact .refl ht
  · exact .one ht (noAck_request _ _ _ _)
  · exact .one ht (noAck_request _ _ _ _)

/-- Settles O53: RESP_CYCLE by its steps, after a request that is no acknowledgment. -/
theorem acknowledgmentOnlyAfterAGoodFrame : Obligations.AcknowledgmentOnlyAfterAGoodFrame := by
  intro i s t hi e
  obtain ⟨-, -, rfl⟩ := exec_eq_next.mp e
  obtain ⟨b, x, hd⟩ := deliver_fields (bodyOf i (beginOp s))
  rw [hd]
  have hbody : AckJustified s (bodyOf i (beginOp s)).state :=
    bodyOf_cycle (P := Extends NoAck s) hi (.refl rfl) (fun c p => sendReq_noAck c p (setPhase .idle (beginOp s)))
      (fun _ => .of_noAck) (fun _ => respCycle_ackJustified) fun _ h => h
  exact hbody

/-! ### PHASE never goes back (20_memory R66 (c), 41_handshake_engine R150) -/

/-- The first transaction was issued in no later phase than the second. -/
def PhaseLe (e f : Event) : Prop := e.phase.number.toNat ≤ f.phase.number.toNat

/-- The transactions since the record `l` are in the order of their phases, the last of which is at most `p`. -/
def PhasesUpTo (l : List Event) (p : Phase) (t : State) : Prop :=
  ∃ ext, t.trace = l ++ ext ∧ ext.Pairwise PhaseLe ∧ ∀ e ∈ ext, e.phase.number.toNat ≤ p.number.toNat

theorem PhasesUpTo.refl (t : State) (p : Phase) : PhasesUpTo t.trace p t :=
  ⟨[], (List.append_nil _).symm, .nil, by simp⟩

/-- More transactions, all in the phase reached. -/
theorem PhasesUpTo.extend {l : List Event} {p : Phase} {t u : State} (h : PhasesUpTo l p t)
    (g : Extends (fun e => e.phase = p) t u) : PhasesUpTo l p u := by
  obtain ⟨ext, ht, ho, hp⟩ := h
  obtain ⟨more, hu, hm⟩ := g
  have hin : ∀ e ∈ more, e.phase.number.toNat = p.number.toNat := fun e he => by rw [hm e he]
  refine ⟨ext ++ more, by rw [hu, ht, List.append_assoc], List.pairwise_append.mpr ⟨ho, ?_, ?_⟩, ?_⟩
  · exact List.pairwise_of_forall_mem_list fun e he f hf => by rw [PhaseLe, hin e he, hin f hf]
  · exact fun e he f hf => by simpa only [PhaseLe, hin f hf] using hp e he
  · intro e he
    rcases List.mem_append.mp he with he | he
    · exact hp e he
    · exact (hin e he).le

theorem PhasesUpTo.mono {l : List Event} {p q : Phase} {t : State} (h : PhasesUpTo l p t)
    (hpq : p.number.toNat ≤ q.number.toNat) : PhasesUpTo l q t := by
  obtain ⟨ext, ht, ho, hp⟩ := h
  exact ⟨ext, ht, ho, fun e he => (hp e he).trans hpq⟩

theorem Phase.le_failed (p : Phase) : p.number.toNat ≤ Phase.failed.number.toNat := by
  cases p <;> decide

/-- PHASE is `p`, and the transactions since `l` went through the phases up to it. -/
def InPhase (l : List Event) (p : Phase) (t : State) : Prop := t.phase = p ∧ PhasesUpTo l p t

/-- A part that issues all its transactions in the PHASE it finds and keeps PHASE when it ends Ok. -/
theorem InPhase.part {l : List Event} {p : Phase} {s : State} (h : InPhase l p s) {α : Type} {r : Res α} {n : Nat}
    (hr : ReadsIn s.phase n s r.state) (hp : Res.Post (fun _ t => t.phase = s.phase) (fun _ => True) r) :
    Res.Post (fun _ => InPhase l p) (PhasesUpTo l .failed) r := by
  obtain ⟨rfl, ho⟩ := h
  obtain ⟨ext, ht, -, he⟩ := hr
  have hu : PhasesUpTo l s.phase r.state := ho.extend ⟨ext, ht, fun e hm => (he e hm).2⟩
  exact (hp.and (.of_state hu)).mono (fun _ _ h => h) fun _ h => h.2.mono s.phase.le_failed

/-- The steps of a cycle move PHASE forward (41_handshake_engine R150). -/
theorem cycleWalk_phases (l : List Event) :
    CycleWalk (InPhase l .awaitingAck) (InPhase l .awaitingAck) (InPhase l .awaitingData)
      (fun _ => InPhase l .awaitingData) (fun _ => InPhase l .awaitingData) (fun _ => InPhase l .awaitingEot)
      (fun _ => InPhase l .awaitingEot) (fun _ => PhasesUpTo l .failed) (PhasesUpTo l .failed) where
  code1 s _ h := h.part (readCode_reads s).1 (readCode_reads s).2
  notAck _ h := h.2.mono (by decide)
  toData _ h := ⟨rfl, h.2.mono (by decide)⟩
  data s _ h := h.part (readData_reads s).1 (readData_reads s).2
  ack _ s ho h := by
    obtain ⟨a, t, e, ht, hp⟩ := emitAck_open ho
    rw [e]
    exact ⟨hp.trans h.1, h.2.extend (.one ht h.1)⟩
  toEot _ _ h := ⟨rfl, h.2.mono (by decide)⟩
  code2 _ s _ h := h.part (readCode_reads s).1 (readCode_reads s).2
  notEot _ _ h := h.2.mono (by decide)
  complete _ _ h := h.2.mono (by decide)

/-- The transactions of RESP_CYCLE are in the order of their phases. -/
theorem respCycle_phases (s : State) : PhasesUpTo s.trace .failed (respCycle s).state := by
  cases ho : s.connOpen
  · rw [respCycle, needOpen_closed ho]
    exact .refl s _
  · exact ((cycleWalk_phases s.trace).respCycle ho ⟨rfl, .refl s _⟩).state

/-- The transactions of COMMAND: none, a request that failed, or a request and those of a cycle (42_command_surface R173). -/
theorem command_trace (c : Byte) (p : List Byte) (s : State) :
    (command c p s).state.trace = s.trace ∨
    ∃ a rest, (command c p s).state.trace = s.trace ++ ⟨.idle, .wrote (reqFrame c p) a⟩ :: rest ∧
      rest.Pairwise PhaseLe ∧ (a ≠ .ok → rest = []) := by
  rcases command_state c p s with ⟨k, t, e, hc⟩ | ⟨t, e, hc⟩ <;>
    rcases sendReq_trace c p (setPhase .idle s) with ⟨a, k', t', e', ht⟩ | ⟨t', e', -, ht⟩ <;>
    rw [e] at e' <;> cases e' <;> rw [hc]
  · rcases ht with ht | ⟨ht, -⟩
    · exact .inl ht
    · exact .inr ⟨a, [], ht, .nil, fun _ => rfl⟩
  · obtain ⟨rest, hr, ho, -⟩ := respCycle_phases t
    refine .inr ⟨.ok, rest, ?_, ho, fun h => absurd rfl h⟩
    rw [hr, ht, List.append_assoc]
    rfl

/-- Settles O56: `command_trace`; Idle is the least phase, so the request stands before all that follows. -/
theorem requestGoesFirst : Obligations.RequestGoesFirst := by
  intro i s t c p hi hq e
  obtain ⟨-, -, rfl⟩ := exec_eq_next.mp e
  obtain ⟨b, x, hd⟩ := deliver_fields (bodyOf i (beginOp s))
  have ht : (deliver (bodyOf i (beginOp s))).trace = (command c p (beginOp s)).state.trace := by
    rw [hd, bodyOf_command hi hq]
    exact commandBody_trace i c p (beginOp s)
  rcases command_trace c p (beginOp s) with hc | ⟨a, rest, hc, ho, ha⟩
  · exact ⟨[], by simp [ht, hc], .nil, .inl rfl⟩
  · exact ⟨_, ht.trans hc, List.pairwise_cons.mpr ⟨fun _ _ => Nat.zero_le _, ho⟩, .inr ⟨a, rest, rfl, ha⟩⟩

end Sys2Proof.Machine
end

section
/-! The family 20_memory, the receive stream (20_memory R61, 10_state R36): no byte is lost, repeated or reordered. The
relation is kept by every primitive action; what a wire item brings is put in front of its operation first (log 14). -/

namespace Sys2Proof.Machine

/-! ### One answer taken -/

/-- A read splits an answer's bytes into what it returns and what stays next in the stream (20_memory R57, R61). -/
theorem capAnswer_conserves (cap : Nat) (ph : Phase) (a : ReadAnswer) (t : List ReadAnswer) :
    pendingBytes (a :: t) =
      receivedBytes [⟨ph, .got cap (capAnswer cap a t).1⟩] ++ pendingBytes (capAnswer cap a t).2 := by
  cases a with
  | ioErr => rfl
  | bytes b =>
    rcases Nat.lt_or_ge cap b.length with h | h
    · rw [capAnswer_long h]
      simp [pendingBytes, receivedBytes, ← List.append_assoc]
    · rw [capAnswer_short h]
      simp [pendingBytes, receivedBytes]

/-- The counter of free answers never goes back (log 5). -/
theorem nextAnswer_draws_le {α : Type} (free : Nat → α) (l : List α) (n : Nat) : n ≤ (nextAnswer free l n).2.2 := by
  cases l <;> simp

/-! ### The relation -/

/-- Unless a free answer was drawn (log 5), the bytes read since `s` and those still in the stream are those `s` had in
it. -/
structure StreamKept (s t : State) : Prop where
  draws : s.draws ≤ t.draws
  bytes : t.draws = s.draws →
    ∃ ext, t.trace = s.trace ++ ext ∧ pendingBytes s.reads = receivedBytes ext ++ pendingBytes t.reads

/-- An action that is no transaction and leaves the stream. -/
theorem StreamKept.of_fields {s t : State} (hd : t.draws = s.draws) (ht : t.trace = s.trace) (hr : t.reads = s.reads) :
    StreamKept s t :=
  ⟨hd.ge, fun _ => ⟨[], by simp [ht], by simp [hr, receivedBytes]⟩⟩

/-- A transaction that is no read. -/
theorem StreamKept.of_event {s t : State} {e : Event} (hd : s.draws ≤ t.draws) (ht : t.trace = s.trace ++ [e])
    (he : receivedBytes [e] = []) (hr : t.reads = s.reads) : StreamKept s t :=
  ⟨hd, fun _ => ⟨[e], ht, by rw [he, hr, List.nil_append]⟩⟩

theorem StreamKept.trans {a b c : State} (f : StreamKept a b) (g : StreamKept b c) : StreamKept a c where
  draws := f.draws.trans g.draws
  bytes h := by
    have hf := f.draws
    have hg := g.draws
    obtain ⟨x, hx, px⟩ := f.bytes (by omega)
    obtain ⟨y, hy, py⟩ := g.bytes (by omega)
    exact ⟨x ++ y, by rw [hy, hx, List.append_assoc], by rw [px, py, receivedBytes_append, List.append_assoc]⟩

/-- A read takes the first bytes of the stream, if it draws no free answer. -/
theorem streamKept_portRead (cap : Nat) (s : State) : StreamKept s (portRead cap s) where
  draws := nextAnswer_draws_le _ _ _
  bytes h := by
    cases hr : s.reads with
    | nil => simp [portRead, hr] at h
    | cons a t =>
      obtain ⟨ha, hs, -⟩ := readAnswer_of_reads (cap := cap) hr
      refine ⟨[⟨s.phase, .got cap (readAnswer cap s)⟩], rfl, ?_⟩
      rw [ha, hs]
      exact capAnswer_conserves cap s.phase a t

theorem streamKept_portWrite (b : List Byte) (s : State) : StreamKept s (portWrite b s) :=
  .of_event (e := ⟨s.phase, .wrote b (writeAnswer s)⟩) (nextAnswer_draws_le _ _ _) rfl
    (by cases writeAnswer s <;> rfl) rfl

theorem streamKept_connOpenBody (path : List Byte) (baud : Nat) (log : Bool) (s : State) :
    StreamKept s (connOpenBody path baud log s).state := by
  have hopen : StreamKept s (portOpen (configure path baud log s)) :=
    .of_event (e := ⟨s.phase, .opened _ (openAnswer (configure path baud log s))⟩) (nextAnswer_draws_le _ _ _) rfl rfl rfl
  rcases connOpenBody_cases path baud log s with ⟨-, e⟩ | ⟨-, e⟩ <;> rw [e] <;>
    exact hopen.trans (.of_fields rfl rfl rfl)

/-- Every primitive action of an operation that brings no bytes of its own conserves the stream. -/
theorem prims_streamKept {i : Instr} (hi : arrivals i = []) : Prims i StreamKept where
  refl _ := .of_fields rfl rfl rfl
  trans := .trans
  raising _ _ _ := .of_fields rfl rfl rfl
  phase _ _ _ := .of_fields rfl rfl rfl
  chk _ _ _ := .of_fields rfl rfl rfl
  paylen _ _ _ := .of_fields rfl rfl rfl
  request _ _ _ _ _ := .of_fields rfl rfl rfl
  logTap _ _ _ := .of_fields rfl rfl rfl
  noteAck a s _ := .of_fields (noteAckWrite_draws a s) (noteAckWrite_trace a s) (noteAckWrite_reads a s)
  writeRequest c p s _ _ := streamKept_portWrite (reqFrame c p) s
  writeAck s _ _ := streamKept_portWrite [Wire.ack] s
  startCode _ _ := .of_fields rfl rfl rfl
  latch _ _ _ := .of_fields rfl rfl rfl
  startData _ _ := .of_fields rfl rfl rfl
  appendRx _ _ _ := .of_fields rfl rfl rfl
  attempt _ _ := .of_fields rfl rfl rfl
  read cap s _ _ := streamKept_portRead cap s
  arrive _ h := absurd hi h
  opening path baud log s _ _ := streamKept_connOpenBody path baud log s
  closing s _ _ :=
    .of_event (e := ⟨s.phase, .closed (closeAnswer s)⟩) (nextAnswer_draws_le _ _ _) rfl rfl rfl

/-! ### The wire items -/

/-- A wire item runs as READ_CODE or READ_DATA once its bytes have arrived (log 14). -/
theorem exec_of_arrivals {i : Instr} (h : arrivals i ≠ []) (s : State) :
    ∃ j, arrivals j = [] ∧ exec i s = exec j (arriving (arrivals i) s) := by
  cases i
  case ack | nack | eot | unrecognized => exact ⟨.readCode, rfl, rfl⟩
  case rspFrame => exact ⟨.readData, rfl, rfl⟩
  all_goals exact absurd rfl h

/-- An operation that brings no bytes of its own conserves the stream. -/
theorem exec_streamKept {i : Instr} (hi : arrivals i = []) {s t : State} (e : exec i s = .next t) : StreamKept s t := by
  obtain ⟨u, b, x, hk, rfl⟩ := (prims_streamKept hi).exec_fields e
  exact ⟨hk.draws, hk.bytes⟩

/-- Settles O57: `exec_streamKept`, for a wire item from the state in which its bytes have arrived. -/
theorem receiveStreamIsConserved : Obligations.ReceiveStreamIsConserved := by
  intro i s t e hd
  by_cases hi : arrivals i = []
  · obtain ⟨ext, ht, hp⟩ := (exec_streamKept hi e).bytes hd
    exact ⟨ext, ht, by rw [hi, List.append_nil, hp]⟩
  · obtain ⟨j, hj, hij⟩ := exec_of_arrivals hi s
    obtain ⟨ext, ht, hp⟩ := (exec_streamKept hj (hij.symm.trans e)).bytes hd
    exact ⟨ext, ht, by rw [← pendingBytes_arriving, hp]⟩

end Sys2Proof.Machine
end

section
/-! The family 30_encoding, the images (30_encoding R83 to R95): the decoder undoes the encoder on every well-formed
operation, and what it reads is the encoding of what it answers. -/

namespace Sys2Proof

/-! ### Payloads read back -/

theorem withNums_numPayload {a : List Nat} (h : a.all numInDomain = true) (c : Byte) (f : List Nat → Instr) :
    withNums c (numPayload a) f = .ok (f a) := by
  have ha : payloadNums (numPayload a) = some a :=
    payloadNums_numPayload a (by simpa [numInDomain] using h)
  simp only [withNums, ha]

theorem withOneNum_numPayload {n : Nat} (h : numInDomain n = true) (c : Byte) (f : Nat → Instr) :
    withOneNum c (numPayload [n]) f = .ok (f n) := by
  have hn : payloadNums (numPayload [n]) = some [n] :=
    payloadNums_numPayload [n] (by simpa [numInDomain] using h)
  simp only [withOneNum, hn]

theorem withItem_readParamPayload {k : Nat} (h : itemInDomain k = true) (c : Byte) (f : Nat → Instr) :
    withItem c (readParamPayload k) f = .ok (f k) := by
  have hk := itemOfText_item k (by simpa [itemInDomain] using h)
  simp only [readParamPayload, itemText, List.cons_append, List.nil_append, withItem, hk, and_self, if_true]

theorem withItemValue_writeParamPayload {k : Nat} (h : itemInDomain k = true) (v : List Byte) (c : Byte)
    (f : Nat → List Byte → Instr) : withItemValue c (writeParamPayload k v) f = .ok (f k v) := by
  have hk := itemOfText_item k (by simpa [itemInDomain] using h)
  simp only [writeParamPayload, itemText, List.cons_append, List.nil_append, withItemValue, hk, and_self, if_true]

/-! ### The decoder by format -/

/-- A request frame is decoded by its code and payload (30_encoding R83, R89). -/
theorem decode_reqFrame (c : Byte) (p : List Byte) : decode (.req (reqFrame c p)) = decodeCommand c p := by
  simp only [decode, decodeReqFrame_reqFrame]

theorem decode_rspFrame (p : List Byte) : decode (.rsp (rspFrame p)) = .ok (.rspFrame p) := by
  simp only [decode, decodeRspFrame_rspFrame]

theorem wellFormed_unrecognized {b : Byte} :
    (Instr.unrecognized b).wellFormed = true ↔ b ≠ 0x06 ∧ b ≠ 0x15 ∧ b ≠ 0x04 := by
  simp only [Instr.wellFormed, Bool.and_eq_true, bne_iff_ne, and_assoc]

/-- UNRECOGNIZED is the row of every code byte but three (30_encoding R91, R100). -/
theorem decode_unrecognized {b : Byte} (h : (Instr.unrecognized b).wellFormed = true) :
    decode (.code b) = .ok (.unrecognized b) := by
  obtain ⟨hack, hnack, heot⟩ := wellFormed_unrecognized.mp h
  simp only [decode, decodeCode, classify_other hack hnack heot]

/-- Settles O2, by the constructor: frames through `decodeReqFrame` and the payload read back, host operations and the
fixed bytes by evaluation. -/
theorem decodeOfEncode : Obligations.DecodeOfEncode := by
  intro i hw
  cases i
  case status | purge | testDispense | reset | lastStatus | configStatus | ddDiag | sensorDiag | snDispense | snEject
      | testMode =>
    exact (decode_reqFrame _ _).trans (withNums_numPayload hw _ _)
  case dispense => exact (decode_reqFrame _ _).trans (withOneNum_numPayload hw _ _)
  case readParam => exact (decode_reqFrame _ _).trans (withItem_readParamPayload hw _ _)
  case writeParam => exact (decode_reqFrame _ _).trans (withItemValue_writeParamPayload hw _ _ _)
  case unrecognized => exact decode_unrecognized hw
  case rspFrame => exact decode_rspFrame _
  all_goals rfl

/-! ### What decodes is an encoding -/

/-- The OPSEL and arguments of an operation decode to no other (30_encoding R95). -/
theorem decodeHostop_inv {op : BitVec 4} {args : List Arg} {i : Instr} (h : decodeHostop op args = .ok i) :
    encode i = .hostop op args := by
  have hop : BitVec.ofNat 4 op.toNat = op := by simp
  unfold decodeHostop at h
  split at h <;> cases h <;>
    next e =>
      rw [e] at hop
      subst hop
      rfl

/-- A code byte decodes to the one row it encodes (30_encoding R91, R100). -/
theorem decodeCode_inv (b : Byte) : encode (decodeCode b) = .code b ∧ (decodeCode b).wellFormed = true := by
  rcases classify_cases b with ⟨rfl, -⟩ | ⟨rfl, -⟩ | ⟨rfl, -⟩ | ⟨hack, hnack, heot, hc⟩
  · exact ⟨rfl, rfl⟩
  · exact ⟨rfl, rfl⟩
  · exact ⟨rfl, rfl⟩
  · simp only [decodeCode, hc]
    exact ⟨rfl, wellFormed_unrecognized.mpr ⟨hack, hnack, heot⟩⟩

theorem decode_req_eq_ok {f : List Byte} {i : Instr} (h : decode (.req f) = .ok i) :
    ∃ c p, f = reqFrame c p ∧ decodeCommand c p = .ok i := by
  rcases hf : decodeReqFrame f with e | ⟨c, p⟩ <;> simp only [decode, hf, reduceCtorEq] at h
  exact ⟨c, p, decodeReqFrame_inv hf, h⟩

theorem decode_ackb_eq_ok {b : Byte} {i : Instr} (h : decode (.ackb b) = .ok i) : b = 0x06 ∧ i = .ackEmit := by
  by_cases hb : b = 0x06
  · subst hb
    cases h
    exact ⟨rfl, rfl⟩
  · rw [Machine.decode_ackb_of_ne hb] at h
    cases h

/-- Settles O3, by the format of the item, each with the inverse of its part of the decoder. -/
theorem encodeOfDecode : Obligations.EncodeOfDecode := by
  intro it i h
  cases it with
  | hostop op args => exact ⟨decodeHostop_inv h, fun hne => absurd rfl (hne op args)⟩
  | req f =>
    obtain ⟨c, p, rfl, hc⟩ := decode_req_eq_ok h
    obtain ⟨he, hw⟩ := decodeCommand_inv hc
    exact ⟨he, fun _ => hw⟩
  | code b =>
    cases h
    obtain ⟨he, hw⟩ := decodeCode_inv b
    exact ⟨he, fun _ => hw⟩
  | ackb b =>
    obtain ⟨rfl, rfl⟩ := decode_ackb_eq_ok h
    exact ⟨rfl, fun _ => rfl⟩
  | rsp f =>
    obtain ⟨p, rfl, rfl⟩ := Machine.decode_rsp_eq_ok h
    exact ⟨rfl, fun _ => rfl⟩

/-- Settles O1: closed words, evaluated by the decoder. -/
theorem wordsOfTheSpecDecode : Obligations.WordsOfTheSpecDecode := by
  unfold Obligations.WordsOfTheSpecDecode
  decide

end Sys2Proof
end

section
/-! The family 30_encoding, the wire items (30_encoding R84 to R86, R91): a code byte or a response frame runs as
READ_CODE or READ_DATA once it has arrived (log 14), and nothing but requests and acknowledgments is written. -/

namespace Sys2Proof.Machine

/-! ### READ_CODE and READ_DATA through `exec` -/

/-- An operation that has ended Ok, with ERR as its start left it. -/
theorem deliver_beginOp {t : State} (hb : t.busy = false) (v : Value) : deliver (.ok v (beginOp t)) = ended t v := by
  simp [deliver_ok, beginOp, ended, hb]

/-- READ_CODE after `n` empty reads and a read that finds the byte `b` (41_handshake_engine R144). -/
theorem exec_readCode_byte {s : State} (hb : s.busy = false) (ho : s.connOpen = true) {n : Nat}
    (hn : n < s.params.maxReadAttempts) {b : Byte} {more : List Byte} {rest : List ReadAnswer}
    (h : s.reads = List.replicate n (.bytes []) ++ .bytes (b :: more) :: rest) :
    exec .readCode s =
      .next (ended (codeRead s n b (if more = [] then rest else .bytes more :: rest)) (.codeClass (classify b))) := by
  have hread := readCode_byte (s := beginOp s) ho hn h
  rw [exec_next hb rfl, bodyOf, hread, Res.give_ok]
  exact congrArg _ (deliver_beginOp (t := codeRead s n b _) hb _)

/-- READ_DATA when the one read returns the whole frame of payload `q` (41_handshake_engine R146). -/
theorem exec_readData_frame {s : State} (hb : s.busy = false) (ho : s.connOpen = true) {q : List Byte}
    {rs : List ReadAnswer} (h : s.reads = .bytes (rspFrame q) :: rs) (hl : q.length + 5 ≤ s.params.dataReadCap) :
    exec .readData s = .next (ended (frameRead s q rs) (.bytes q)) := by
  have hread := readData_frame (s := beginOp s) ho h hl
  rw [exec_next hb rfl, bodyOf, hread, Res.give_ok]
  exact congrArg _ (deliver_beginOp (t := frameRead s q rs) hb _)

/-! ### The code bytes -/

/-- A row of format CODE is READ_CODE with its byte behind what is unread: arrival and the start of an operation write
different fields (log 14). -/
theorem exec_codeRow {i : Instr} {b : Byte}
    (h : (i = .ack ∧ b = 0x06) ∨ (i = .nack ∧ b = 0x15) ∨ (i = .eot ∧ b = 0x04) ∨ i = .unrecognized b) (s : State) :
    exec i s = exec .readCode (arriving [b] s) := by
  rcases h with ⟨rfl, rfl⟩ | ⟨rfl, rfl⟩ | ⟨rfl, rfl⟩ | rfl <;> rfl

/-- With nothing unread but `n` empty reads, READ_CODE takes the byte that arrives (41_handshake_engine R144). -/
theorem exec_readCode_arriving {s : State} (hb : s.busy = false) (ho : s.connOpen = true) {n : Nat}
    (hn : n < s.params.maxReadAttempts) (h : s.reads = List.replicate n (.bytes [])) (b : Byte) :
    exec .readCode (arriving [b] s) = .next (ended (codeRead s n b []) (.codeClass (classify b))) := by
  have hreads : (arriving [b] s).reads = List.replicate n (.bytes []) ++ .bytes (b :: []) :: [] := by
    rw [arriving_reads, h]
  rw [exec_readCode_byte (s := arriving [b] s) hb ho hn hreads]
  rfl

/-- Settles O44: each row is READ_CODE on its arrived byte, whose class is the row's. -/
theorem codeBytesAreValues : Obligations.CodeBytesAreValues := by
  refine ⟨fun i b s h => exec_codeRow h s, fun s n hb ho hn hr => ?_⟩
  have hrow : ∀ b, exec .readCode (arriving [b] s) = .next (ended (codeRead s n b []) (.codeClass (classify b))) :=
    exec_readCode_arriving hb ho hn hr
  refine ⟨?ack, ?nack, ?eot, ?unrecognized⟩
  case ack => exact (exec_codeRow (.inl ⟨rfl, rfl⟩) s).trans (hrow 0x06)
  case nack => exact (exec_codeRow (.inr (.inl ⟨rfl, rfl⟩)) s).trans (hrow 0x15)
  case eot => exact (exec_codeRow (.inr (.inr (.inl ⟨rfl, rfl⟩))) s).trans (hrow 0x04)
  case unrecognized =>
    intro b hack hnack heot
    rw [exec_codeRow (.inr (.inr (.inr rfl))), hrow, classify_other hack hnack heot]

/-! ### The response frame -/

/-- Settles O45: RSP_FRAME is READ_DATA on the arrived frame; with nothing unread the first read returns it whole. -/
theorem responseFrameIsReceived : Obligations.ResponseFrameIsReceived := by
  refine ⟨exec_rspFrame, fun q s hb ho hr hl => ?_⟩
  have hreads : (arriving (rspFrame q) s).reads = .bytes (rspFrame q) :: [] := by
    rw [arriving_reads, hr, List.nil_append]
  rw [exec_rspFrame, exec_readData_frame (s := arriving (rspFrame q) s) hb ho hreads hl]
  rfl

/-! ### What is written -/

/-- A write of the operation `i` is the acknowledgment byte, if `i` runs EMIT_ACK, or its own request frame (30_encoding
R86, 41_handshake_engine R151). -/
def OwnWrite (i : Instr) (e : Event) : Prop :=
  ∀ b a, e.act = .wrote b a →
    (b = [0x06] ∧ runsEmitAck i = true) ∨ ∃ c p, requestOf i = some (c, p) ∧ b = reqFrame c p

/-- The record of an operation grows by its own writes, reads, opens and closes only. -/
theorem prims_ownWrite (i : Instr) : Prims i (Extends (OwnWrite i)) := by
  refine prims_extends i (OwnWrite i) ?request ?ack ?read ?opened ?closed
  case request =>
    rintro c p ph a hq b a' ⟨⟩
    exact .inr ⟨c, p, hq, rfl⟩
  case ack =>
    rintro ph a hi b a' ⟨⟩
    exact .inl ⟨rfl, hi⟩
  case read => rintro ph cap a b a' ⟨⟩
  case opened => rintro ph cfg a b a' ⟨⟩
  case closed => rintro ph a b a' ⟨⟩

/-- Settles O54: the induction over the primitive actions with `OwnWrite`; delivery adds no transaction. -/
theorem onlyRequestsAndAcknowledgmentsAreWritten : Obligations.OnlyRequestsAndAcknowledgmentsAreWritten := by
  intro i s t e
  obtain ⟨u, b, x, hext, rfl⟩ := (prims_ownWrite i).exec_fields e
  exact hext

end Sys2Proof.Machine
end

section
/-! The family 40_frame_codec, the checksum as an operation and its algebra (40_frame_codec R120, R121). -/

namespace Sys2Proof

/-! ### The fold: order, single bytes, the byte at the end -/

/-- The order of the bytes does not matter. -/
theorem checksum_perm {s t : List Byte} (h : s.Perm t) : checksum s = checksum t :=
  h.foldl_eq 0x00

/-- A byte counts the same wherever it stands. -/
theorem checksum_middle (s t : List Byte) (x : Byte) : checksum (s ++ x :: t) = x ^^^ checksum (s ++ t) :=
  (checksum_perm List.perm_middle).trans (checksum_cons x (s ++ t))

/-- Two bytes count as their XOR wherever they stand. -/
theorem checksum_two (s t u : List Byte) (x y : Byte) :
    checksum (s ++ x :: t ++ y :: u) = x ^^^ y ^^^ checksum (s ++ t ++ u) := by
  rw [List.append_assoc, List.cons_append, checksum_middle, ← List.append_assoc, checksum_middle, BitVec.xor_assoc]

/-- A byte put at one position is a byte among the others. -/
theorem checksum_set {s : List Byte} {i : Nat} (hi : i < s.length) (x : Byte) :
    checksum (s.set i x) = x ^^^ checksum (s.take i ++ s.drop (i + 1)) := by
  rw [List.set_eq_take_cons_drop x hi, checksum_middle]

/-- Another byte put at one position gives another checksum. -/
theorem checksum_set_ne {s : List Byte} {i : Nat} {x : Byte} (hi : i < s.length) (hx : s[i]? ≠ some x) :
    checksum (s.set i x) ≠ checksum s := by
  intro h
  have hset : checksum (s.set i x) = checksum (s.set i s[i]) := by rw [h, List.set_getElem_self]
  rw [checksum_set hi, checksum_set hi, BitVec.xor_left_inj] at hset
  exact hx (by rw [List.getElem?_eq_getElem hi, hset])

/-- A sequence folds to 0x00 exactly when it ends with the checksum of the rest (40_frame_codec R121, law 6). -/
theorem checksum_concat_eq_zero {l : List Byte} {b : Byte} : checksum (l ++ [b]) = 0x00 ↔ b = checksum l := by
  have hb : checksum (l ++ [b]) = checksum l ^^^ b := by simp
  rw [hb]
  exact BitVec.xor_eq_zero_iff.trans eq_comm

theorem checksum_eq_zero_iff {f : List Byte} (hf : f ≠ []) :
    checksum f = 0x00 ↔ f[f.length - 1]? = some (checksum (f.take (f.length - 1))) := by
  obtain ⟨l, b, rfl⟩ := List.eq_nil_or_concat' f |>.resolve_left hf
  simpa using checksum_concat_eq_zero (l := l) (b := b)

/-! ### Whole frames (40_frame_codec R121, law 6) -/

theorem checksum_reqFrame (c : Byte) (p : List Byte) : checksum (reqFrame c p) = 0x00 :=
  checksum_concat_eq_zero.mpr rfl

theorem checksum_rspFrame (p : List Byte) : checksum (rspFrame p) = 0x00 :=
  checksum_concat_eq_zero.mpr rfl

namespace Machine

/-- CHECKSUM writes CHK and delivers the byte (40_frame_codec R120). -/
theorem exec_checksum {s : State} (hb : s.busy = false) (b : List Byte) :
    exec (.checksum b) s = .next (ended (foldChk b s) (.byte (checksum b))) :=
  (exec_next hb rfl).trans (congrArg _ (deliver_beginOp (t := foldChk b s) hb _))

/-- Settles O11: `exec_checksum` with the fold written out. -/
theorem checksumIsTheFold : Obligations.ChecksumIsTheFold := fun b _ hb => exec_checksum hb b

/-- What CHECKSUM returns is the checksum of its bytes, whatever the state. -/
theorem exec_checksum_result {b : List Byte} {s t : State} (e : exec (.checksum b) s = .next t) :
    t.result = some (.ok (.byte (checksum b))) := by
  obtain ⟨-, -, rfl⟩ := exec_eq_next.mp e
  rfl

/-- Settles O12, law by law: the XOR of bytes, then the fold of a concatenation, of one byte and of two bytes taken
out of their places, and of a last byte. -/
theorem checksumLaws : Obligations.ChecksumLaws := by
  refine ⟨fun a b c => ⟨BitVec.xor_zero, BitVec.xor_self, BitVec.xor_comm a b, BitVec.xor_assoc a b c⟩,
    checksum_append, ?result, fun s i x => checksum_set_ne, fun s t => checksum_perm, ?zero, ?twice, ?flip,
    fun c p => ⟨checksum_reqFrame c p, checksum_rspFrame p⟩, fun f => checksum_eq_zero_iff⟩
  case result =>
    intro b s s' t t' e e'
    rw [exec_checksum_result e, exec_checksum_result e']
  case zero =>
    intro s t
    exact (checksum_middle s t 0x00).trans BitVec.zero_xor
  case twice =>
    intro s t u x
    rw [checksum_two, BitVec.xor_self, BitVec.zero_xor]
  case flip =>
    intro s t u x y m
    have hm : (x ^^^ m) ^^^ (y ^^^ m) = x ^^^ y := by
      rw [BitVec.xor_comm y m, BitVec.xor_assoc, ← BitVec.xor_assoc m, BitVec.xor_self, BitVec.zero_xor]
    rw [checksum_two, checksum_two, hm]

end Machine
end Sys2Proof
end

section
/-! The family 40_frame_codec, the frames: what BUILD_REQ builds and its checker reads back (R122, R127), and what
PARSE_RESP takes for a frame (R124, R126). -/

namespace Sys2Proof.Machine

/-! ### BUILD_REQ -/

/-- BUILD_REQ of a payload that fits leaves the request frame and returns it (40_frame_codec R122). -/
theorem exec_buildReq {s : State} {p : List Byte} (hb : s.busy = false) (hp : p.length ≤ s.params.maxReqPayload)
    (c : Byte) : exec (.buildReq c p) s = .next (ended (requestBuilt s c p) (.bytes (reqFrame c p))) := by
  have hr : refusalOf (.buildReq c p) s = none := refusePayload_eq_none.mpr hp
  rw [exec_next hb hr, bodyOf, buildReq_eq, txBytes_requestBuilt]
  exact congrArg _ (deliver_beginOp (t := requestBuilt s c p) hb _)

/-- Settles O13: `exec_buildReq` with the frame written out. -/
theorem buildReqBuildsTheFrame : Obligations.BuildReqBuildsTheFrame := fun c _ _ hb hp => exec_buildReq hb hp c

/-- Settles O4: the frame returned is the request frame, which the checker reads back. -/
theorem requestRoundTrip : Obligations.RequestRoundTrip := fun c p _ hb hp =>
  ⟨_, reqFrame c p, exec_buildReq hb hp c, rfl, decodeReqFrame_reqFrame c p⟩

/-- A frame BUILD_REQ returns is the request frame of its code and payload. -/
theorem exec_buildReq_result {c : Byte} {p f : List Byte} {s t : State} (e : exec (.buildReq c p) s = .next t)
    (hf : t.result = some (.ok (.bytes f))) : f = reqFrame c p := by
  obtain ⟨-, -, rfl⟩ := exec_eq_next.mp e
  rw [bodyOf, buildReq_eq, txBytes_requestBuilt, deliver_ok] at hf
  cases hf
  rfl

theorem reqFrame_ne_nil (c : Byte) (p : List Byte) : reqFrame c p ≠ [] := by simp [reqFrame]

/-! ### PARSE_RESP -/

/-- PARSE_RESP of a well-formed frame writes CHK and PAYLEN and delivers the payload (40_frame_codec R124). -/
theorem exec_parseResp_wellFormed {s : State} {raw : List Byte} (hb : s.busy = false) (hw : WellFormedRsp raw) :
    exec (.parseResp raw) s =
      .next (ended (setPaylen (raw.length - 5) (foldChk (raw.take (raw.length - 1)) s))
        (.bytes ((raw.drop 3).take (raw.length - 5)))) := by
  rw [exec_next hb rfl, bodyOf, parseResp_wellFormed hw, Res.give_ok]
  exact congrArg _
    (deliver_beginOp (t := setPaylen (raw.length - 5) (foldChk (raw.take (raw.length - 1)) s)) hb _)

/-- Settles O16: `exec_parseResp_wellFormed` with its writes written out. -/
theorem parseOfWellFormedFrame : Obligations.ParseOfWellFormedFrame := fun _ _ hb hw => exec_parseResp_wellFormed hb hw

/-- An Ok delivered is an Ok of the body. -/
theorem deliver_result_ok {r : Res Value} {v : Value} (h : (deliver r).result = some (.ok v)) : ∃ u, r = .ok v u := by
  cases r with
  | ok v' u =>
    cases h
    exact ⟨u, rfl⟩
  | fail k u => cases h

/-- PARSE_RESP answers Ok for a well-formed frame only (40_frame_codec R126). -/
theorem exec_parseResp_ok {raw : List Byte} {s t : State} {v : Value} (e : exec (.parseResp raw) s = .next t)
    (h : t.result = some (.ok v)) : WellFormedRsp raw := by
  obtain ⟨-, -, rfl⟩ := exec_eq_next.mp e
  obtain ⟨u, hu⟩ := deliver_result_ok h
  obtain ⟨q, u', hq, -⟩ := Res.bind_eq_ok hu
  exact (parseResp_eq_ok hq).1

/-- Settles O15: a request frame folds to 0x00, so it ends with the checksum of the rest; PARSE_RESP ends Ok on a
well-formed frame and on no other. -/
theorem frameInvariant : Obligations.FrameInvariant := by
  refine ⟨fun c p f s t e hf => ?_, fun raw s t e =>
    ⟨⟨exec_parseResp_ok e, fun hw => ?_⟩, fun ⟨v, hv⟩ => exec_parseResp_ok e hv⟩⟩
  · obtain rfl := exec_buildReq_result e hf
    exact (checksum_eq_zero_iff (reqFrame_ne_nil c p)).mp (checksum_reqFrame c p)
  · obtain ⟨hb, -, -⟩ := exec_eq_next.mp e
    rw [exec_parseResp_wellFormed hb hw] at e
    cases e
    rfl

end Sys2Proof.Machine
end

section
/-! The family 41_handshake_engine, the connection (41_handshake_engine R140 to R142): CONN_OPEN and CONN_CLOSE by what
the port answers, and the check that every port-touching operation makes first. -/

namespace Sys2Proof.Machine

/-! ### An operation by the end of its body -/

/-- An operation whose body ends Ok in what the start of an operation makes of `t`. -/
theorem exec_ended {i : Instr} {s t : State} {v : Value} (hb : s.busy = false) (hr : refusalOf i s = none)
    (ht : t.busy = false) (h : bodyOf i (beginOp s) = .ok v (beginOp t)) : exec i s = .next (ended t v) := by
  rw [exec_next hb hr, h, deliver_beginOp ht]

/-- An operation whose body fails in what the start of an operation makes of `t`. -/
theorem exec_failedWith {i : Instr} {s t : State} {k : ErrKind} (hb : s.busy = false) (hr : refusalOf i s = none)
    (ht : t.busy = false) (h : bodyOf i (beginOp s) = raise k (beginOp t)) : exec i s = .next (failedWith t k) := by
  rw [exec_next hb hr, h, deliver_raise ht]

/-! ### CONN_OPEN (41_handshake_engine R141) -/

/-- After CONN_OPEN has issued its `PortOpen`, which answered `a` and leaves the answers `rest`: the configuration is
latched, and asked for with even parity, 1 stop bit and 7 data bits. -/
def openIssued (s : State) (path : List Byte) (baud : Nat) (log : Bool) (a : IoAnswer) (rest : List IoAnswer) : State :=
  { s with
    path := path, baud := baud, logEn := log
    opens := rest
    trace := s.trace ++ [⟨s.phase, .opened ⟨path, baud, .even, 1, 7, s.params.readTimeout⟩ a⟩] }

theorem connOpenBody_ok {s : State} {rest : List IoAnswer} (h : s.opens = .ok :: rest) (path : List Byte) (baud : Nat)
    (log : Bool) : connOpenBody path baud log s = .ok () (connect (openIssued s path baud log .ok rest)) := by
  obtain ⟨ha, hs⟩ := portOpen_answered (s := configure path baud log s) h
  simp only [connOpenBody, ha, hs]
  rfl

theorem connOpenBody_ioErr {s : State} {rest : List IoAnswer} (h : s.opens = .ioErr :: rest) (path : List Byte)
    (baud : Nat) (log : Bool) :
    connOpenBody path baud log s = raise .ioError (openIssued s path baud log .ioErr rest) := by
  obtain ⟨ha, hs⟩ := portOpen_answered (s := configure path baud log s) h
  simp only [connOpenBody, ha, hs]
  rfl

theorem refusalOf_connOpen {s : State} (h : s.connOpen = false) (path : List Byte) (baud : Nat) (log : Bool) :
    refusalOf (.connOpen path baud log) s = none := by
  simp [refusalOf, h]

/-- Settles O18, a clause each for an open connection and for the two answers of `PortOpen`. -/
theorem connOpenOutcomes : Obligations.ConnOpenOutcomes := by
  intro path baud log s rest hb
  refine ⟨fun ho => ?alreadyOpen, fun hc hs => ?ok, fun hc hs => ?ioErr⟩
  case alreadyOpen => exact exec_refused hb (by simp [refusalOf, ho])
  case ok =>
    have hbody : bodyOf (.connOpen path baud log) (beginOp s) =
        .ok .unit (beginOp (connect (openIssued s path baud log .ok rest))) :=
      congrArg (·.give fun _ => .unit) (connOpenBody_ok (s := beginOp s) hs path baud log)
    exact exec_ended (t := connect (openIssued s path baud log .ok rest)) hb (refusalOf_connOpen hc path baud log) hb
      hbody
  case ioErr =>
    have hbody : bodyOf (.connOpen path baud log) (beginOp s) =
        raise .ioError (beginOp (openIssued s path baud log .ioErr rest)) :=
      congrArg (·.give fun _ => .unit) (connOpenBody_ioErr (s := beginOp s) hs path baud log)
    exact exec_failedWith hb (refusalOf_connOpen hc path baud log) hb hbody

/-! ### The connection check (41_handshake_engine R140) -/

/-- COMMAND on a closed connection: the failure hides that PHASE was set to Idle before the check. -/
theorem command_closed {s : State} (h : s.connOpen = false) (c : Byte) (p : List Byte) :
    command c p s = raise .connectionClosed s := by
  rw [command, sendReq, needOpen_closed (s := setPhase .idle s) h]
  rfl

/-- Every operation that makes the connection check fails in it on a closed connection. -/
theorem bodyOf_closed {i : Instr} (hi : checksConnection i = true) {s : State} (h : s.connOpen = false) :
    bodyOf i s = raise .connectionClosed s := by
  cases i
  case connClose => rw [bodyOf, connCloseBody, needOpen_closed h, Res.give_raise]
  case sendReq => rw [bodyOf, sendReq, needOpen_closed h, Res.give_raise]
  case readCode => rw [bodyOf, readCode, needOpen_closed h, Res.give_raise]
  case readData => rw [bodyOf, readData, needOpen_closed h, Res.give_raise]
  case emitAck => rw [bodyOf, emitAck, needOpen_closed h, Res.give_raise]
  case respCycle => rw [bodyOf, respCycle, needOpen_closed h, Res.give_raise]
  case command | status | purge | dispense | testDispense | reset | lastStatus | configStatus | ddDiag | sensorDiag
    | snDispense | snEject | readParam | writeParam | testMode =>
    rw [bodyOf_command rfl rfl, commandBody, command_closed h, Res.bind_raise]
  all_goals cases hi

/-- An operation that makes the connection check and that nothing refuses, on a closed connection. -/
theorem exec_closed {i : Instr} {s : State} (hi : checksConnection i = true) (hb : s.busy = false)
    (hc : s.connOpen = false) (hr : refusalOf i s = none) : exec i s = .next (failedWith s .connectionClosed) :=
  exec_failedWith hb hr hb (bodyOf_closed hi (s := beginOp s) hc)

/-- Settles O20: well-formed operands and a request that fits leave nothing to refuse, so `exec_closed` applies. -/
theorem closedConnectionFailsFast : Obligations.ClosedConnectionFailsFast := fun _ _ hi hb hc hw hf =>
  exec_closed hi hb hc (refusalOf_eq_none hw hf fun _ => hc)

/-- Settles O46: ACK_EMIT is EMIT_ACK; the other wire items are READ_CODE or READ_DATA on their arrived bytes (log 14). -/
theorem wireItemsOnAClosedConnection : Obligations.WireItemsOnAClosedConnection := by
  refine fun i s hb hc => ⟨?ackEmit, fun ha => ?arriving⟩
  case ackEmit =>
    rintro rfl
    exact exec_closed (i := .emitAck) rfl hb hc rfl
  case arriving =>
    cases i
    case ack | nack | eot | unrecognized => exact exec_closed (i := .readCode) (s := arriving _ s) rfl hb hc rfl
    case rspFrame => exact exec_closed (i := .readData) (s := arriving _ s) rfl hb hc rfl
    all_goals exact absurd rfl ha

/-! ### CONN_CLOSE (41_handshake_engine R142) -/

/-- After CONN_CLOSE has issued its `PortClose`, which answered `a` and leaves the answers `rest`: the flag is cleared
whatever `a` is. -/
def closeIssued (s : State) (a : IoAnswer) (rest : List IoAnswer) : State :=
  { s with connOpen := false, closes := rest, trace := s.trace ++ [⟨s.phase, .closed a⟩] }

theorem connCloseBody_ok {s : State} (ho : s.connOpen = true) {rest : List IoAnswer} (h : s.closes = .ok :: rest) :
    connCloseBody s = .ok () (closeIssued s .ok rest) := by
  obtain ⟨ha, hs⟩ := portClose_answered h
  simp only [connCloseBody, needOpen_open ho, ha, hs]
  rfl

theorem connCloseBody_ioErr {s : State} (ho : s.connOpen = true) {rest : List IoAnswer} (h : s.closes = .ioErr :: rest) :
    connCloseBody s = raise .ioError (closeIssued s .ioErr rest) := by
  obtain ⟨ha, hs⟩ := portClose_answered h
  simp only [connCloseBody, needOpen_open ho, ha, hs]
  rfl

/-- Settles O19, a clause each for a closed connection and for the two answers of `PortClose`. -/
theorem connCloseOutcomes : Obligations.ConnCloseOutcomes := by
  intro s rest hb
  refine ⟨fun hc => exec_closed rfl hb hc rfl, fun ho hs => ?ok, fun ho hs => ?ioErr⟩
  case ok =>
    have hbody : bodyOf .connClose (beginOp s) = .ok .unit (beginOp (closeIssued s .ok rest)) :=
      congrArg (·.give fun _ => .unit) (connCloseBody_ok (s := beginOp s) ho hs)
    exact exec_ended (t := closeIssued s .ok rest) hb rfl hb hbody
  case ioErr =>
    have hbody : bodyOf .connClose (beginOp s) = raise .ioError (beginOp (closeIssued s .ioErr rest)) :=
      congrArg (·.give fun _ => .unit) (connCloseBody_ioErr (s := beginOp s) ho hs)
    exact exec_failedWith hb rfl hb hbody

end Sys2Proof.Machine
end

section
/-! The family 41_handshake_engine, the single steps (41_handshake_engine R143 to R148): SEND_REQ, READ_CODE, READ_DATA
and EMIT_ACK through `exec`, by what the environment answers. -/

namespace Sys2Proof.Machine

/-- Settles O21: the connection check, then `sendReq_ok` or `sendReq_ioErr` by the answer of the one write. -/
theorem sendReqOutcomes : Obligations.SendReqOutcomes := by
  intro c p s ws hb hp
  have hr : refusalOf (.sendReq c p) s = none := refusePayload_eq_none.mpr hp
  refine ⟨fun hc => exec_closed rfl hb hc hr, fun ho hs => ?ok, fun n ho hs => ?ioErr⟩
  case ok =>
    have hsend := sendReq_ok (s := beginOp s) ho hs c p
    exact exec_ended (t := requestSent s c p ws) hb hr hb (congrArg (·.give fun _ => .unit) hsend)
  case ioErr =>
    have hsend := sendReq_ioErr (s := beginOp s) ho hs c p
    exact exec_failedWith hb hr hb (congrArg (·.give fun _ => .unit) hsend)

/-- Settles O22: the four classes, and `exec_readCode_byte`. -/
theorem readCodeTakesOneByte : Obligations.ReadCodeTakesOneByte :=
  ⟨⟨rfl, rfl, rfl, fun _ => classify_other⟩, fun _ _ _ _ _ hb ho hn h => exec_readCode_byte hb ho hn h⟩

/-- Settles O24: `readData_tail`; accumulating and the start of an operation write different fields. -/
theorem readDataParsesAtTheFirstTail : Obligations.ReadDataParsesAtTheFirstTail := by
  rintro s cs rs ⟨hb, ho, hr, hshort⟩ hl hno htail
  have hread := readData_tail (s := beginOp s) ho hr hshort hl hno htail
  have hbody : bodyOf .readData (beginOp s) = bodyOf (.parseResp cs.flatten) (beginOp (accumulated s cs rs)) :=
    congrArg (·.give .bytes) hread
  rw [exec_next hb rfl, exec_next (s := accumulated s cs rs) hb rfl, hbody]

/-- Settles O27: `emitAck_answered`; ACK_EMIT has the body of EMIT_ACK. -/
theorem emitAckOutcomes : Obligations.EmitAckOutcomes := by
  intro i s a ws hi hb ho hw
  have hbody : bodyOf .emitAck (beginOp s) = .ok .unit (beginOp (ackWritten s a ws)) :=
    congrArg (·.give fun _ => .unit) (emitAck_answered (s := beginOp s) ho hw)
  rcases hi with rfl | rfl <;> exact exec_ended hb rfl hb hbody

end Sys2Proof.Machine
end

section
/-! The family 41_handshake_engine, the response cycle (41_handshake_engine R149, R150): RESP_CYCLE by how its four steps
end, and each of them as the host's own operation run after the one before it. -/

namespace Sys2Proof.Machine

/-! ### RESP_CYCLE by how its steps end -/

section
variable {s u1 u2 u3 u4 : State} {c : CodeClass} {q : List Byte} {k : ErrKind}

theorem respCycle_of_code1_fail (ho : s.connOpen = true) (e1 : readCode (setPhase .awaitingAck s) = .fail k u1) :
    respCycle s = .fail k u1 := by
  simp [respCycle, needOpen_open ho, e1]

theorem respCycle_of_notAck (ho : s.connOpen = true) (e1 : readCode (setPhase .awaitingAck s) = .ok c u1)
    (hc : c ≠ .ack) : respCycle s = raise .responseNotAck u1 := by
  simp [respCycle, needOpen_open ho, e1, hc]

theorem respCycle_of_data_fail (ho : s.connOpen = true) (e1 : readCode (setPhase .awaitingAck s) = .ok .ack u1)
    (e2 : readData (setPhase .awaitingData u1) = .fail k u2) : respCycle s = .fail k u2 := by
  simp [respCycle, needOpen_open ho, e1, e2]

/-- After an acknowledged request, a payload and the acknowledgment of it, the second code decides. -/
theorem respCycle_of_acknowledged (ho : s.connOpen = true) (e1 : readCode (setPhase .awaitingAck s) = .ok .ack u1)
    (e2 : readData (setPhase .awaitingData u1) = .ok q u2) (e3 : emitAck u2 = .ok () u3) :
    respCycle s = (readCode (setPhase .awaitingEot u3)).bind fun c s =>
      if c ≠ .eot then raise .responseNotEot s else .ok q (setPhase .complete s) := by
  simp [respCycle, needOpen_open ho, e1, e2, e3]

end

/-! ### The steps inside a running operation -/

/-- An operation is running on an open connection and has not failed. -/
structure Running (s : State) : Prop where
  busy : s.busy = true
  err : s.err = none
  connOpen : s.connOpen = true

/-- A part that ends Ok and keeps BUSY and the connection flag leaves the operation running. -/
theorem Running.of_part {α : Type} {s u : State} {r : Res α} {v : α} (h : Running s) (hends : Res.Ends s r)
    (hkept : Kept s r.state) (hconn : r.state.connOpen = s.connOpen) (e : r = .ok v u) : Running u := by
  subst e
  exact ⟨hkept.busy.trans h.busy, Eq.trans hends h.err, hconn.trans h.connOpen⟩

theorem Running.setPhase {s : State} (h : Running s) (p : Phase) : Running (setPhase p s) := ⟨h.busy, h.err, h.connOpen⟩

theorem Running.readCode {s u : State} {c : CodeClass} (h : Running s) (e : readCode s = .ok c u) : Running u :=
  h.of_part (readCode_ends s) ((prims_kept .readCode).stages.readCode rfl rfl s) (readCode_conn s) e

theorem Running.readData {s u : State} {q : List Byte} (h : Running s) (e : readData s = .ok q u) : Running u :=
  h.of_part (readData_ends s) ((prims_kept .readData).stages.readData rfl rfl s) (readData_conn s) e

/-- EMIT_ACK cannot fail in a running operation (60_exceptions R220). -/
theorem Running.emitAck {s : State} (h : Running s) : ∃ u, emitAck s = .ok () u ∧ Running u := by
  obtain ⟨a, u, e, -, -⟩ := emitAck_open h.connOpen
  exact ⟨u, e, h.of_part (emitAck_ends s) ((prims_kept .emitAck).stages.emitAck rfl rfl s) (emitAck_conn s) e⟩

/-- The host's own operation `i`, in the state a part of a running operation ended Ok in, once that state is delivered. -/
theorem Running.exec_after {u t : State} (h : Running u) {i : Instr} (hr : ∀ s, refusalOf i s = none) {v : Value}
    {p : Phase} (e : exec i { deliver (.ok v u) with phase := p } = .next t) :
    t = deliver (bodyOf i (Machine.setPhase p u)) := by
  rw [Machine.exec_after p h.busy h.err hr] at e
  exact (Host.Outcome.next.inj e).symm

/-! ### A delivered result and the part it comes from -/

theorem deliver_give_ok {α : Type} {r : Res α} {f : α → Value} {v : Value}
    (h : (deliver (r.give f)).result = some (.ok v)) : ∃ a u, r = .ok a u ∧ f a = v := by
  cases r with
  | ok a u => exact ⟨a, u, rfl, by simpa [deliver_ok] using h⟩
  | fail k u => simp [deliver_fail] at h

theorem deliver_give_fail {α : Type} {r : Res α} {f : α → Value} {k : ErrKind}
    (h : (deliver (r.give f)).result = some (.fail k)) : ∃ u, r = .fail k u := by
  cases r with
  | ok a u => simp [deliver_ok] at h
  | fail k' u =>
    obtain rfl : k' = k := by simpa [deliver_fail] using h
    exact ⟨u, rfl⟩

/-! ### The statements -/

/-- RESP_CYCLE's end after three steps that ended Ok, by the host's READ_CODE in their state. -/
theorem respCycle_by_second_code {s u1 u2 u3 t4 : State} {q : List Byte} (ho : s.connOpen = true)
    (e1 : readCode (setPhase .awaitingAck s) = .ok .ack u1) (e2 : readData (setPhase .awaitingData u1) = .ok q u2)
    (e3 : emitAck u2 = .ok () u3) (h4 : t4 = deliver ((readCode (setPhase .awaitingEot u3)).give .codeClass)) :
    (∀ k, t4.result = some (.fail k) → deliver ((respCycle s).give .bytes) = t4) ∧
    (∀ c, t4.result = some (.ok (.codeClass c)) → c ≠ .eot →
      deliver ((respCycle s).give .bytes) = failedWith t4 .responseNotEot) ∧
    (t4.result = some (.ok (.codeClass .eot)) →
      deliver ((respCycle s).give .bytes) = { t4 with phase := .complete, result := some (.ok (.bytes q)) }) := by
  subst h4
  rw [respCycle_of_acknowledged ho e1 e2 e3]
  refine ⟨fun k hk => ?_, fun c hc hne => ?_, fun hc => ?_⟩
  · obtain ⟨u4, e4⟩ := deliver_give_fail hk
    rw [e4]
    rfl
  · obtain ⟨c, u4, e4, ⟨⟩⟩ := deliver_give_ok hc
    rw [e4, Res.bind_ok, if_pos hne]
    rfl
  · obtain ⟨c, u4, e4, ⟨⟩⟩ := deliver_give_ok hc
    rw [e4, Res.bind_ok, if_neg (by simp)]
    rfl

/-- Settles O28: each step is READ_CODE, READ_DATA or EMIT_ACK of the host run in the state its predecessor delivered, and
RESP_CYCLE ends as the first that fails its test, or as the last. -/
theorem respCycleIsItsSteps : Obligations.RespCycleIsItsSteps := by
  intro s t1 hb ho h1
  have hs : Running (setPhase .awaitingAck (beginOp s)) := ⟨rfl, rfl, ho⟩
  have hcycle : exec .respCycle s = .next (deliver ((respCycle (beginOp s)).give .bytes)) := exec_next hb rfl
  obtain ⟨-, -, ht1⟩ := exec_eq_next.mp h1
  obtain rfl : t1 = deliver ((readCode (setPhase .awaitingAck (beginOp s))).give .codeClass) := ht1
  rw [hcycle]
  simp only [Host.Outcome.next.injEq]
  refine ⟨fun k hk => ?code1Fails, fun c hc hne => ?notAck, fun hack t2 h2 => ?acknowledged⟩
  case code1Fails =>
    obtain ⟨u1, e1⟩ := deliver_give_fail hk
    rw [respCycle_of_code1_fail (s := beginOp s) ho e1, e1]
    rfl
  case notAck =>
    obtain ⟨c, u1, e1, ⟨⟩⟩ := deliver_give_ok hc
    rw [respCycle_of_notAck (s := beginOp s) ho e1 hne, e1]
    rfl
  case acknowledged =>
    obtain ⟨c, u1, e1, ⟨⟩⟩ := deliver_give_ok hack
    have hu1 := hs.readCode e1
    rw [e1] at h2
    obtain rfl := hu1.exec_after (fun _ => rfl) h2
    refine ⟨fun k hk => ?dataFails, fun q hq t3 h3 t4 h4 => ?payload⟩
    case dataFails =>
      obtain ⟨u2, e2⟩ := deliver_give_fail hk
      rw [respCycle_of_data_fail (s := beginOp s) ho e1 e2, bodyOf, e2]
    case payload =>
      obtain ⟨q, u2, e2, ⟨⟩⟩ := deliver_give_ok hq
      have hu2 := (hu1.setPhase _).readData e2
      obtain ⟨u3, e3, hu3⟩ := hu2.emitAck
      rw [bodyOf, e2] at h3
      obtain rfl := hu2.exec_after (p := u2.phase) (fun _ => rfl) h3
      rw [show setPhase u2.phase u2 = u2 from rfl, bodyOf, e3] at h4
      exact respCycle_by_second_code (s := beginOp s) ho e1 e2 e3 (hu3.exec_after (fun _ => rfl) h4)

/-- Settles O29: `respCycle_smooth`; the cycle and the start of an operation write different fields. -/
theorem smoothCycleCompletes : Obligations.SmoothCycleCompletes := by
  rintro s q a rs ws ⟨hb, ho, hr, hl⟩ hw
  have hbody : bodyOf .respCycle (beginOp s) = .ok (.bytes q) (beginOp (cycleDone s q a rs ws)) :=
    congrArg (·.give .bytes) (respCycle_smooth (s := beginOp s) ho hr hl hw)
  exact exec_ended hb rfl hb hbody

end Sys2Proof.Machine
end

section
/-! The family 41_handshake_engine, the bounds (41_handshake_engine R152, 70_reset_and_hazards R254): how many read loops
and how many other transactions an operation runs, counted through its parts. -/

namespace Sys2Proof.Machine

/-! ### Counting transactions -/

/-- Since `s` there were at most `w` transactions beside the reads of at most `loops` read loops of MAX_READ_ATTEMPTS
reads each; the parameters are as in `s`. -/
structure Spent (s : State) (loops w : Nat) (t : State) : Prop where
  params : t.params = s.params
  record : ∃ ext, t.trace = s.trace ++ ext ∧ (ext.filter isRead).length ≤ loops * s.params.maxReadAttempts ∧
    ext.length ≤ loops * s.params.maxReadAttempts + w

section
variable {s t u : State} {loops w : Nat}

theorem Spent.refl (s : State) : Spent s 0 0 s := ⟨rfl, [], by simp⟩

theorem Spent.mono (h : Spent s loops w t) {loops' w' : Nat} (hl : loops ≤ loops') (hw : w ≤ w') :
    Spent s loops' w' t := by
  obtain ⟨hp, ext, ht, hr, hn⟩ := h
  have hm := Nat.mul_le_mul_right s.params.maxReadAttempts hl
  exact ⟨hp, ext, ht, hr.trans hm, by omega⟩

/-- An action that is no transaction. -/
theorem Spent.of_fields (h : Spent s loops w t) (hp : u.params = t.params) (ht : u.trace = t.trace) :
    Spent s loops w u :=
  ⟨hp.trans h.params, by rw [ht]; exact h.record⟩

/-- One transaction more that is no read. -/
theorem Spent.event (h : Spent s loops w t) {e : Event} (hp : u.params = t.params) (ht : u.trace = t.trace ++ [e])
    (he : isRead e = false) : Spent s loops (w + 1) u := by
  obtain ⟨hps, ext, hs, hr, hn⟩ := h
  refine ⟨hp.trans hps, ext ++ [e], by rw [ht, hs, List.append_assoc], ?_, ?_⟩
  · simpa [he] using hr
  · rw [List.length_append, List.length_singleton]
    omega

/-- One read loop more (41_handshake_engine R152). -/
theorem Spent.loop (h : Spent s loops w t) {ph : Phase} (hp : u.params = t.params)
    (hu : ReadsIn ph t.params.maxReadAttempts t u) : Spent s (loops + 1) w u := by
  obtain ⟨hps, ext, hs, hr, hn⟩ := h
  obtain ⟨more, hm, hl, -⟩ := hu
  rw [hps] at hl
  have hf := List.length_filter_le isRead more
  refine ⟨hp.trans hps, ext ++ more, by rw [hm, hs, List.append_assoc], ?_, ?_⟩
  · rw [List.filter_append, List.length_append, Nat.succ_mul]
    omega
  · rw [List.length_append, Nat.succ_mul]
    omega

/-! ### The parts of an operation -/

theorem Spent.readCode (h : Spent s loops w t) : Spent s (loops + 1) w (readCode t).state :=
  h.loop (readCode_params t) (readCode_reads t).1

theorem Spent.readData (h : Spent s loops w t) : Spent s (loops + 1) w (readData t).state :=
  h.loop (readData_params t) (readData_reads t).1

theorem Spent.emitAck (h : Spent s loops w t) : Spent s loops (w + 1) (emitAck t).state := by
  have hp := emitAck_params t
  cases ho : t.connOpen
  · rw [Machine.emitAck, needOpen_closed ho]
    exact (h.mono le_rfl (Nat.le_succ w)).of_fields rfl rfl
  · obtain ⟨a, u, e, ht, -⟩ := emitAck_open ho
    rw [e] at hp ⊢
    exact h.event hp ht rfl

theorem Spent.sendReq (h : Spent s loops w t) (c : Byte) (p : List Byte) :
    Spent s loops (w + 1) (sendReq c p t).state := by
  cases ho : t.connOpen
  · rw [Machine.sendReq, needOpen_closed ho]
    exact (h.mono le_rfl (Nat.le_succ w)).of_fields rfl rfl
  · rw [sendReq_open ho]
    cases writeAnswer t <;> exact h.event (e := ⟨t.phase, .wrote (reqFrame c p) (writeAnswer t)⟩) rfl rfl rfl

end

/-! ### A cycle: three read loops and the acknowledgment (41_handshake_engine R149) -/

theorem cycleWalk_spent (s : State) (w : Nat) :
    CycleWalk (Spent s 0 w) (Spent s 1 w) (Spent s 1 w) (fun _ => Spent s 2 w) (fun _ => Spent s 2 (w + 1))
      (fun _ => Spent s 2 (w + 1)) (fun _ => Spent s 3 (w + 1)) (fun _ => Spent s 3 (w + 1)) (Spent s 3 (w + 1)) where
  code1 _ _ h := (Res.Post.of_state h.readCode).mono (fun _ _ h => h) fun _ h => h.mono (by decide) (Nat.le_succ w)
  notAck _ h := (h.mono (by decide) (Nat.le_succ w)).of_fields rfl rfl
  toData _ h := h.of_fields rfl rfl
  data _ _ h := (Res.Post.of_state h.readData).mono (fun _ _ h => h) fun _ h => h.mono (by decide) (Nat.le_succ w)
  ack _ _ _ h := (Res.Post.of_state h.emitAck).mono (fun _ _ h => h) fun _ h => h.mono (by decide) le_rfl
  toEot _ _ h := h.of_fields rfl rfl
  code2 _ _ _ h := .of_state h.readCode
  notEot _ _ h := h.of_fields rfl rfl
  complete _ _ h := h.of_fields rfl rfl

theorem Spent.respCycle {s t : State} {w : Nat} (h : Spent s 0 w t) : Spent s 3 (w + 1) (respCycle t).state := by
  cases ho : t.connOpen
  · rw [Machine.respCycle, needOpen_closed ho]
    exact (h.mono (by decide) (Nat.le_succ w)).of_fields rfl rfl
  · exact ((cycleWalk_spent s w).respCycle ho (h.of_fields rfl rfl)).state

/-! ### Whole operations -/

/-- An operation that runs RESP_CYCLE: a request, and a cycle's three read loops and acknowledgment. -/
theorem bodyOf_spent_cycle {i : Instr} (hi : runsCycle i = true) (s : State) : Spent s 3 2 (bodyOf i s).state :=
  bodyOf_cycle (P := Spent s 0 1) hi ((Spent.refl s).mono le_rfl (by decide))
    (fun c p => ((Spent.refl s).of_fields (u := setPhase .idle s) rfl rfl).sendReq c p)
    (fun _ h => h.mono (by decide) (by decide)) (fun _ h => h.respCycle) fun _ h => h.of_fields rfl rfl

/-- Any other operation: at most one read loop, or one transaction that is no read. -/
theorem bodyOf_spent_noCycle {i : Instr} (hi : runsCycle i = false) (s : State) : Spent s 1 1 (bodyOf i s).state := by
  have h0 := Spent.refl s
  have still : ∀ {t : State}, t.params = s.params → t.trace = s.trace → Spent s 1 1 t := fun hp ht =>
    (h0.mono (by decide) (by decide)).of_fields hp ht
  have oneLoop : ∀ {t : State}, Spent s 1 0 t → Spent s 1 1 t := fun h => h.mono le_rfl (by decide)
  have oneEvent : ∀ {t : State}, Spent s 0 1 t → Spent s 1 1 t := fun h => h.mono (by decide) le_rfl
  cases i
  case checksum | encNum | decNum | encItem | decodeReply | decodeStatus => exact still rfl rfl
  case buildReq c p =>
    rw [bodyOf, buildReq_eq]
    exact still rfl rfl
  case parseResp raw =>
    obtain ⟨-, -, -, ht⟩ := parseResp_keeps raw s
    have hk : Kept s (parseResp raw s).state := (prims_kept (.parseResp raw)).stages.parseResp rfl rfl rfl rfl raw s
    rw [bodyOf, Res.give_state]
    exact still hk.params ht
  case connOpen path baud log =>
    rw [bodyOf, Res.give_state]
    refine oneEvent ?_
    rcases connOpenBody_cases path baud log s with ⟨-, e⟩ | ⟨-, e⟩ <;> rw [e] <;>
      exact h0.event (e := ⟨s.phase, .opened _ (openAnswer (configure path baud log s))⟩) rfl rfl rfl
  case connClose =>
    rw [bodyOf, Res.give_state, connCloseBody, needOpen]
    split
    · refine oneEvent ?_
      split <;> exact h0.event (e := ⟨s.phase, .closed (closeAnswer s)⟩) rfl rfl rfl
    · exact still rfl rfl
  case sendReq c p => exact (Res.give_state _ _).symm ▸ oneEvent (h0.sendReq c p)
  case readCode => exact (Res.give_state _ _).symm ▸ oneLoop h0.readCode
  case readData => exact (Res.give_state _ _).symm ▸ oneLoop h0.readData
  case emitAck | ackEmit => exact (Res.give_state _ _).symm ▸ oneEvent h0.emitAck
  case ack | nack | eot | unrecognized =>
    exact (Res.give_state _ _).symm ▸ oneLoop (h0.of_fields (u := arriving _ s) rfl rfl).readCode
  case rspFrame p =>
    exact (Res.give_state _ _).symm ▸ oneLoop (h0.of_fields (u := arriving (rspFrame p) s) rfl rfl).readData
  all_goals cases hi

/-- Settles O55: three read loops and two writes for an operation that runs RESP_CYCLE, one read loop or one other
transaction for the rest; delivery adds none. -/
theorem transactionsAreBounded : Obligations.TransactionsAreBounded := by
  intro i s t e
  obtain ⟨-, -, rfl⟩ := exec_eq_next.mp e
  obtain ⟨b, x, hd⟩ := deliver_fields (bodyOf i (beginOp s))
  rw [hd]
  cases hi : runsCycle i
  · obtain ⟨-, ext, ht, hr, hn⟩ := bodyOf_spent_noCycle hi (beginOp s)
    rw [beginOp_params] at hr hn
    exact ⟨ext, ht, fun _ => by omega, by omega, by omega⟩
  · obtain ⟨-, ext, ht, hr, hn⟩ := bodyOf_spent_cycle hi (beginOp s)
    rw [beginOp_params] at hr hn
    exact ⟨ext, ht, nofun, hr, by omega⟩

end Sys2Proof.Machine
end

section
/-! The family 42_command_surface, the operands (42_command_surface R170 to R172, R191): ENC_NUM, ENC_ITEM, DEC_NUM and the
offset between them. -/

namespace Sys2Proof.Machine

/-! ### The offset (42_command_surface R170, R171) -/

/-- A number in its domain is offset without wrap. -/
theorem numByte_toNat {v : Nat} (h : v ≤ 0xDF) : (numByte v).toNat = v + 0x20 := by
  rw [numByte, Wire.numOffset, BitVec.toNat_ofNat]
  omega

theorem deoffset_of_ge (p : Params) {b : Byte} (h : 0x20 ≤ b.toNat) : deoffset p b = b - 0x20 :=
  dif_neg (Nat.not_lt.mpr h)

/-- From 0x20 up the number received is the byte's less the offset, whatever the parameters are. -/
theorem decNum_of_ge (p : Params) {b : Byte} (h : 0x20 ≤ b.toNat) : decNum p b = specNum b := by
  rw [decNum, deoffset_of_ge p h]
  exact BitVec.toNat_sub_of_le h

/-- Taking 0x20 from a byte in which bit 5 is the highest bit set clears that bit. -/
theorem sub_offset_eq_xor {b : Byte} (hlow : 0x20 ≤ b.toNat) (hhigh : b.toNat ≤ 0x3F) : b - 0x20 = b ^^^ 0x20 := by
  have hbits : ∀ i : Fin 0x20, BitVec.ofNat 8 (0x20 + i) - 0x20 = BitVec.ofNat 8 (0x20 + i) ^^^ 0x20 := by decide
  have hb : BitVec.ofNat 8 (0x20 + (b.toNat - 0x20)) = b := by
    rw [Nat.add_sub_cancel' hlow, BitVec.ofNat_toNat, BitVec.setWidth_eq]
  have hbit := hbits ⟨b.toNat - 0x20, by omega⟩
  rwa [hb] at hbit

/-! ### The operations -/

/-- DEC_NUM ends Ok with its number and writes nothing. -/
theorem exec_decNum {s : State} (hb : s.busy = false) (b : Byte) :
    exec (.decNum b) s = .next (ended s (.num (decNum s.params b))) :=
  exec_ended hb rfl hb rfl

/-- Settles O32: the encoders end in the state they start in; the digits of `k` are its quotients; the refusals are O7's. -/
theorem operandEncoders : Obligations.OperandEncoders := by
  obtain ⟨-, -, hnum, -, -, -, hitem, -⟩ := whatIsRefused
  refine ⟨fun v s hb hv => ⟨?encNum, numByte_toNat hv⟩, fun k s hb hk => ⟨?encItem, ?digits⟩, fun v s => hnum s v,
    fun k s hb hk => (hitem s k hb hk).1⟩
  case encNum => exact exec_ended hb (refuseNum_eq_none.mpr hv) hb rfl
  case encItem => exact exec_ended hb (refuseItem_eq_none.mpr hk) hb rfl
  case digits => exact ⟨k / 100, k / 10 % 10, k % 10, by omega, by omega, by omega, by omega, rfl⟩

/-- Settles O33: the number is a byte's; from 0x20 up `decNum_of_ge` gives it. -/
theorem decNumResult : Obligations.DecNumResult := fun b s hb =>
  ⟨decNum s.params b, (deoffset s.params b).isLt, exec_decNum hb b, decNum_of_ge s.params⟩

/-- Settles O34, law by law: the first two compare numbers, the third compares bits. -/
theorem offsetRoundTrip : Obligations.OffsetRoundTrip := by
  refine ⟨fun p v hv => ?decode_encode, fun p b hb => ?encode_decode, fun p b hlow hhigh => ?bit5⟩
  case decode_encode =>
    have hbyte := numByte_toNat hv
    rw [decNum_of_ge p (by omega), specNum, hbyte, Nat.add_sub_cancel]
  case encode_decode =>
    have hnum : decNum p b + 0x20 = b.toNat := by
      rw [decNum_of_ge p hb, specNum, Nat.sub_add_cancel hb]
    refine BitVec.eq_of_toNat_eq ?_
    rw [numByte_toNat (by omega), hnum]
  case bit5 => rw [deoffset_of_ge p hlow, sub_offset_eq_xor hlow hhigh]

end Sys2Proof.Machine
end

section
/-! The family 42_command_surface, the records (42_command_surface R174, R197): what DECODE_REPLY and DECODE_STATUS read out
of a payload. -/

namespace Sys2Proof.Machine

/-! ### One field of a record -/

section
variable {q : List Byte} {i : Nat} {b : Byte}

/-- A numeric field is valid exactly when its byte exists. -/
theorem numField_isSome (p : Params) (q : List Byte) (i : Nat) :
    (q[i]?.map (decNum p)).isSome = true ↔ i < q.length := by
  rw [Option.isSome_map]
  simp

/-- A numeric field holds what DEC_NUM of its byte returns (42_command_surface R171). -/
theorem numField_eq_decNum {s t : State} (hb : s.busy = false) (hq : q[i]? = some b)
    (e : exec (.decNum b) s = .next t) :
    t.result = (q[i]?.map (decNum s.params)).map fun n => .ok (.num n) := by
  rw [exec_decNum hb] at e
  cases e
  rw [hq]
  rfl

theorem numField_of_ge (p : Params) (hq : q[i]? = some b) (h : 0x20 ≤ b.toNat) :
    q[i]?.map (decNum p) = some (specNum b) := by
  rw [hq, Option.map_some, decNum_of_ge p h]

/-- The model's bit of a byte is the spec's, bit 0 the least significant (00_scope R13). -/
theorem bitOf_eq_specBit (b : Byte) (i : Nat) : bitOf b i = specBit b i := by
  rw [bitOf, specBit, BitVec.getLsbD, Nat.testBit_eq_decide_div_mod_eq]
  rfl

theorem flagField_eq (q : List Byte) (i j : Nat) : q[i]?.map (bitOf · j) = q[i]?.map (specBit · j) := by
  simp only [bitOf_eq_specBit]

end

/-! ### The statements -/

/-- Settles O35, field by field of the record. -/
theorem decodeReplyRecord : Obligations.DecodeReplyRecord := fun q s hb =>
  ⟨decodeReply s.params q, exec_ended hb rfl hb rfl, rfl, rfl, numField_isSome _ q 1, numField_isSome _ q 2,
    fun _ _ => numField_eq_decNum hb, fun _ _ => numField_eq_decNum hb, fun _ => numField_of_ge _,
    fun _ => numField_of_ge _, rfl, rfl⟩

/-- Settles O36, field by field of the record: five flags, then the two numbers. -/
theorem decodeStatusRecord : Obligations.DecodeStatusRecord := fun q s hb =>
  ⟨decodeStatus s.params q, exec_ended hb rfl hb rfl, flagField_eq q 0 0, flagField_eq q 0 1, flagField_eq q 0 3,
    flagField_eq q 0 4, flagField_eq q 1 4, numField_isSome _ q 2, numField_isSome _ q 3,
    fun _ _ => numField_eq_decNum hb, fun _ _ => numField_eq_decNum hb, fun _ => numField_of_ge _,
    fun _ => numField_of_ge _⟩

end Sys2Proof.Machine
end

section
/-! The family 42_command_surface, COMMAND (42_command_surface R173): its parts as the host's own operations run one after
the other, and the whole of it when the device answers smoothly. -/

namespace Sys2Proof.Machine

/-! ### COMMAND by how its parts end -/

section
variable {c : Byte} {p q : List Byte} {s u1 u2 : State} {k : ErrKind}

theorem command_of_request_fail (e1 : sendReq c p (setPhase .idle s) = .fail k u1) : command c p s = .fail k u1 := by
  rw [command, e1, Res.bind_fail]

theorem command_of_cycle_fail (e1 : sendReq c p (setPhase .idle s) = .ok () u1) (e2 : respCycle u1 = .fail k u2) :
    command c p s = .fail k u2 := by
  rw [command, e1, Res.bind_ok, e2, Res.bind_fail]

theorem command_of_payload (e1 : sendReq c p (setPhase .idle s) = .ok () u1) (e2 : respCycle u1 = .ok q u2) :
    command c p s = .ok (decodeReply u2.params q) u2 := by
  rw [command, e1, Res.bind_ok, e2, Res.bind_ok]

end

/-- COMMAND through `exec`, when its request fits. -/
theorem exec_command {s : State} {p : List Byte} (hb : s.busy = false) (hr : refusePayload s p = none) (c : Byte) :
    exec (.command c p) s = .next (deliver ((command c p (beginOp s)).give .reply)) :=
  exec_next hb hr

/-- SEND_REQ of a payload that fits writes none of the host's fields. -/
theorem sendReq_kept {c : Byte} {p : List Byte} {s : State} (hl : p.length ≤ s.params.maxReqPayload) :
    Kept s (sendReq c p s).state :=
  (prims_kept (.sendReq c p)).stages.sendReq rfl rfl rfl rfl hl

theorem respCycle_params (s : State) : (respCycle s).state.params = s.params :=
  ((prims_kept .respCycle).stages.respCycle rfl s).params

/-- RESP_CYCLE returns a payload only after its last step (41_handshake_engine R150). -/
theorem respCycle_complete {s u : State} {q : List Byte} (h : respCycle s = .ok q u) : u.phase = .complete := by
  rw [respCycle, needOpen] at h
  split at h
  · obtain ⟨c1, u1, -, h⟩ := Res.bind_eq_ok h
    split at h
    · cases h
    obtain ⟨p, u2, -, h⟩ := Res.bind_eq_ok h
    obtain ⟨-, u3, -, h⟩ := Res.bind_eq_ok h
    obtain ⟨c2, u4, -, h⟩ := Res.bind_eq_ok h
    split at h <;> cases h
    rfl
  · cases h

/-- COMMAND ends Ok only after the whole handshake (41_handshake_engine R150). -/
theorem command_complete {c : Byte} {p : List Byte} {s u : State} {r : ReplyRecord}
    (h : command c p s = .ok r u) : u.phase = .complete := by
  obtain ⟨-, u1, -, h⟩ := Res.bind_eq_ok h
  obtain ⟨q, u2, hcycle, ⟨⟩⟩ := Res.bind_eq_ok h
  exact respCycle_complete hcycle

/-- Settles O37: SEND_REQ of the host is COMMAND's first part, and RESP_CYCLE of the host, run in the state SEND_REQ
delivered, is its second. -/
theorem commandIsItsSteps : Obligations.CommandIsItsSteps := by
  intro c p s t1 h1
  obtain ⟨hb, hr, ht1⟩ := exec_eq_next.mp h1
  obtain rfl : t1 = deliver ((sendReq c p (setPhase .idle (beginOp s))).give fun _ => .unit) := ht1
  rw [exec_command (s := s) hb hr, Host.Outcome.next.injEq]
  refine ⟨fun k hk => ?requestFails, fun hsent t2 h2 => ?sent⟩
  case requestFails =>
    obtain ⟨u1, e1⟩ := deliver_give_fail hk
    rw [command_of_request_fail e1, e1]
    rfl
  case sent =>
    obtain ⟨⟨⟩, u1, e1, -⟩ := deliver_give_ok hsent
    have hkept : Kept (setPhase .idle (beginOp s)) u1 := by
      have hk := sendReq_kept (c := c) (s := setPhase .idle (beginOp s)) (refusePayload_eq_none.mp hr)
      rwa [e1] at hk
    have herr : u1.err = none := by
      have he := sendReq_ends c p (setPhase .idle (beginOp s))
      rwa [e1] at he
    rw [e1] at h2
    have hcycle := exec_after (i := .respCycle) (v := .unit) u1.phase hkept.busy herr fun _ => rfl
    obtain rfl : deliver ((respCycle u1).give .bytes) = t2 := Host.Outcome.next.inj (hcycle.symm.trans h2)
    refine ⟨fun k hk => ?_, fun q hq => ?_⟩
    · obtain ⟨u2, e2⟩ := deliver_give_fail hk
      rw [command_of_cycle_fail e1 e2, e2]
      rfl
    · obtain ⟨q, u2, e2, ⟨⟩⟩ := deliver_give_ok hq
      have hparams : u2.params = s.params := by
        have hp := respCycle_params u1
        rw [e2] at hp
        exact hp.trans hkept.params
      rw [command_of_payload e1 e2, e2, hparams]
      rfl

/-- Settles O38: `command_smooth`; the exchange and the start of an operation write different fields. -/
theorem commandCompletes : Obligations.CommandCompletes := by
  rintro c p q s a rs ws ⟨hb, ho, hr, hl⟩ hp hw
  have hbody : bodyOf (.command c p) (beginOp s) =
      .ok (.reply (decodeReply s.params q)) (beginOp (exchangeDone s c p q a rs ws)) :=
    congrArg (·.give .reply) (command_smooth (s := beginOp s) ho c p hr hl hw)
  exact exec_ended hb (refusePayload_eq_none.mpr hp) hb hbody

end Sys2Proof.Machine
end

section
/-! The family 42_command_surface, the fourteen commands (42_command_surface R175 to R189, R192, 60_exceptions R217): each is
COMMAND with its code and payload, and what STATUS and the parameter commands add to its record. -/

namespace Sys2Proof.Machine

/-! ### The numeric commands (42_command_surface R176 to R185, R188, R192) -/

theorem exec_numericCommand {e : Byte × (List Nat → Instr)} (he : e ∈ numericCommands) (args : List Nat) (s : State) :
    exec (e.2 args) s = numCommand e.1 args s := by
  simp only [numericCommands, List.mem_cons, List.not_mem_nil, or_false] at he
  rcases he with rfl | rfl | rfl | rfl | rfl | rfl | rfl | rfl | rfl | rfl <;> rfl

/-- With its numbers in their domain a numeric command is refused and runs as COMMAND is and does. -/
theorem numCommand_eq_command {args : List Nat} (h : ∀ v ∈ args, v ≤ 0xDF) (c : Byte) (s : State) :
    numCommand c args s = exec (.command c (numPayload args)) s := by
  rw [numCommand, refuseNums_eq_none.mpr h, firstRefusal_none]
  rfl

/-- Settles O40: the ten list commands and DISPENSE are `numCommand` with their codes; the refusal is O7's. -/
theorem numericCommandsAreCommands : Obligations.NumericCommandsAreCommands := by
  obtain ⟨-, -, -, hrefused, -⟩ := whatIsRefused
  refine ⟨fun e he args s h => ?lists, fun n s hn => ?dispense, fun n s => hrefused s n⟩
  case lists => exact (exec_numericCommand he args s).trans (numCommand_eq_command h e.1 s)
  case dispense => exact numCommand_eq_command (args := [n]) (by simpa using hn) 0x42 s

/-- Settles O39: by O40 they are COMMANDs, which complete by O38. -/
theorem numericCommandsComplete : Obligations.NumericCommandsComplete := by
  intro q s a rs ws hs hw
  obtain ⟨hlists, hdispense, -⟩ := numericCommandsAreCommands
  refine ⟨fun e he args h hl => ?_, fun n hn => ?_⟩
  · rw [hlists e he args s h]
    exact commandCompletes _ _ q s a rs ws hs (by simpa using hl) hw
  · rw [hdispense n s hn]
    exact commandCompletes _ _ q s a rs ws hs (Nat.le_add_left 1 _) hw

/-! ### A command that adds to COMMAND's record, by how COMMAND ends -/

/-- The command `i` is given operands in their domains and sends the request of code `c` and payload `p`, and COMMAND of
that code and payload answers `t`. -/
structure CommandAnswers (i : Instr) (c : Byte) (p : List Byte) (s t : State) : Prop where
  wellFormed : i.wellFormed = true
  runsCycle : runsCycle i = true
  request : requestOf i = some (c, p)
  answer : exec (.command c p) s = .next t

section
variable {i : Instr} {c : Byte} {p : List Byte} {s t : State}

theorem CommandAnswers.delivered (h : CommandAnswers i c p s t) :
    t = deliver ((command c p (beginOp s)).give .reply) :=
  (exec_eq_next.mp h.answer).2.2

theorem CommandAnswers.exec (h : CommandAnswers i c p s t) :
    exec i s = .next (deliver (commandBody i c p (beginOp s))) := by
  obtain ⟨hb, hr, -⟩ := exec_eq_next.mp h.answer
  rw [exec_next hb ((refusalOf_of_wellFormed h.wellFormed h.request s).trans hr), bodyOf_command h.runsCycle h.request]

/-- COMMAND's failure is the command's. -/
theorem CommandAnswers.fails (h : CommandAnswers i c p s t) {k : ErrKind} (hk : t.result = some (.fail k)) :
    Machine.exec i s = .next t := by
  rw [h.delivered] at hk
  obtain ⟨u, e⟩ := deliver_give_fail hk
  rw [h.exec, h.delivered, commandBody, e]
  rfl

/-- COMMAND's record, in the state `u` the handshake has ended in. -/
theorem CommandAnswers.replies (h : CommandAnswers i c p s t) {r : ReplyRecord}
    (hr : t.result = some (.ok (.reply r))) :
    ∃ u, command c p (beginOp s) = .ok r u ∧ t = deliver (.ok (.reply r) u) ∧ u.phase = .complete ∧
      u.params = s.params := by
  obtain ⟨-, hfits, -⟩ := exec_eq_next.mp h.answer
  rw [h.delivered] at hr
  obtain ⟨r, u, e, ⟨⟩⟩ := deliver_give_ok hr
  have hkept : Kept (beginOp s) (command c p (beginOp s)).state :=
    (prims_kept (.command c p)).stages.command rfl rfl (refusePayload_eq_none.mp hfits)
  rw [e] at hkept
  exact ⟨u, e, by rw [h.delivered, e, Res.give_ok], command_complete e, hkept.params⟩

end

/-- Settles O41: STATUS is a command whose body adds the layout to COMMAND's record. -/
theorem statusAddsTheLayout : Obligations.StatusAddsTheLayout := by
  intro args s t hargs e
  have h : CommandAnswers (.status args) 0x40 (numPayload args) s t :=
    ⟨by simpa [Instr.wellFormed, numInDomain] using hargs, rfl, rfl, e⟩
  refine ⟨fun k => h.fails, fun r hr => ?_⟩
  obtain ⟨u, hu, rfl, -, hparams⟩ := h.replies hr
  rw [h.exec, commandBody, hu, ← hparams]
  rfl

/-! ### The parameter commands (42_command_surface R186, R187, R189) -/

theorem checkParamAck_of_marker {q text : List Byte} {s : State} (h : q = s.params.paramAckMarker :: text) :
    checkParamAck q s = .ok () s := by
  rw [checkParamAck, h]
  exact if_pos rfl

theorem checkParamAck_of_other {q : List Byte} {s : State} (h : q.head? ≠ some s.params.paramAckMarker) :
    checkParamAck q s = raise .illegalCommand s := by
  rw [List.head?_eq_getElem?] at h
  exact if_neg h

/-- The body of a parameter command: CheckParamAck on COMMAND's record, then the reply's text. -/
theorem commandBody_param {i : Instr} {k : Nat} (hi : i = .readParam k ∨ ∃ v, i = .writeParam k v) (c : Byte)
    (p : List Byte) (s : State) :
    commandBody i c p s = (command c p s).bind fun rec s =>
      (checkParamAck rec.payload s).bind fun _ s =>
        .ok (.reply { rec with text := some (rec.payload.drop 1) }) s := by
  rcases hi with rfl | ⟨v, rfl⟩ <;> rfl

section
variable {i : Instr} {c : Byte} {p : List Byte} {k : Nat} {s t : State} {r : ReplyRecord}

/-- A reply that opens otherwise than with the marker fails once the handshake is complete (60_exceptions R217). -/
theorem CommandAnswers.param_illegal (h : CommandAnswers i c p s t)
    (hi : i = .readParam k ∨ ∃ v, i = .writeParam k v) (hr : t.result = some (.ok (.reply r)))
    (hother : r.payload.head? ≠ some s.params.paramAckMarker) :
    t.phase = .complete ∧ Machine.exec i s = .next (failedWith t .illegalCommand) := by
  obtain ⟨u, hu, rfl, hphase, hparams⟩ := h.replies hr
  refine ⟨hphase, ?_⟩
  rw [h.exec, commandBody_param hi, hu, Res.bind_ok, checkParamAck_of_other (by rwa [hparams])]
  rfl

/-- A reply that opens with the marker gives its text. -/
theorem CommandAnswers.param_text (h : CommandAnswers i c p s t)
    (hi : i = .readParam k ∨ ∃ v, i = .writeParam k v) (hr : t.result = some (.ok (.reply r))) {text : List Byte}
    (hmarker : r.payload = s.params.paramAckMarker :: text) :
    Machine.exec i s = .next { t with result := some (.ok (.reply { r with text := some text })) } := by
  obtain ⟨u, hu, rfl, -, hparams⟩ := h.replies hr
  rw [h.exec, commandBody_param hi, hu, Res.bind_ok, checkParamAck_of_marker (by rwa [hparams]), hmarker]
  rfl

end

/-- Settles O43, a clause each for a failed COMMAND, a reply without the marker (an empty one has no first byte) and a
reply with it. -/
theorem parameterReplyIsChecked : Obligations.ParameterReplyIsChecked := by
  intro i c p k s t hk hi e
  have hparam : i = .readParam k ∨ ∃ v, i = .writeParam k v := hi.imp (·.1) fun ⟨v, hv, _⟩ => ⟨v, hv⟩
  have h : CommandAnswers i c p s t := by
    rcases hi with ⟨rfl, rfl, rfl⟩ | ⟨v, rfl, rfl, rfl⟩ <;> exact ⟨decide_eq_true hk, rfl, rfl, e⟩
  refine ⟨fun _ => h.fails, fun r hr hother => h.param_illegal hparam hr ?_, fun r text hr => h.param_text hparam hr⟩
  rcases hother with hnil | hne
  · simp [hnil]
  · exact hne

/-- MAX_REQ_PAYLOAD is at least 9 (00_scope R8), so READ_PARAM's payload fits every engine. -/
theorem nine_le_maxReqPayload (p : Params) : 9 ≤ p.maxReqPayload := Nat.le_add_left 9 _

/-- Settles O42: COMMAND completes by O38, and O41 and O43 say what STATUS and the parameter commands make of its
record. -/
theorem statusAndParametersComplete : Obligations.StatusAndParametersComplete := by
  intro q s a rs ws hs hw
  have complete := fun c p hp => commandCompletes c p q s a rs ws hs hp hw
  refine ⟨fun args h hl => ?status, fun text hq => ⟨fun k hk => ?readParam, fun k hk v hv => ?writeParam⟩⟩
  case status =>
    obtain ⟨-, hadds⟩ := statusAddsTheLayout args s _ h (complete _ _ (by simpa using hl))
    exact hadds _ rfl
  case readParam =>
    have hfits : ([0x44, 0x2F] ++ specItem k).length ≤ s.params.maxReqPayload :=
      le_trans (by decide : 5 ≤ 9) (nine_le_maxReqPayload _)
    obtain ⟨-, -, htext⟩ :=
      parameterReplyIsChecked (.readParam k) 0x52 _ k s _ hk (.inl ⟨rfl, rfl, rfl⟩) (complete _ _ hfits)
    exact htext _ text rfl hq
  case writeParam =>
    have hfits : ([0x44, 0x2F] ++ specItem k ++ [0x2F] ++ v).length ≤ s.params.maxReqPayload := by
      rw [List.length_append, Nat.add_comm]
      exact hv
    obtain ⟨-, -, htext⟩ :=
      parameterReplyIsChecked (.writeParam k v) 0x57 _ k s _ hk (.inr ⟨v, rfl, rfl, rfl⟩) (complete _ _ hfits)
    exact htext _ text rfl hq

end Sys2Proof.Machine
end

section
/-! The family 60_exceptions, which failure comes where (60_exceptions R212 to R216, R223, R224): PARSE_RESP by its
three tests, the two read loops by what the port answers, and RESP_CYCLE by its two code bytes. -/

namespace Sys2Proof.Machine

/-! ### PARSE_RESP (60_exceptions R213, R214, R223) -/

section
variable {raw : List Byte}

theorem parseResp_of_badHeader (h : BadHeader raw) (s : State) : parseResp raw s = raise .formatError s := by
  rcases parseResp_cases raw s with ⟨-, e⟩ | ⟨hh, -⟩ | ⟨hh, -⟩ | ⟨hh, -⟩
  · exact e
  all_goals exact absurd h hh

theorem parseResp_of_badChecksum (hh : ¬ BadHeader raw) (hc : BadChecksum raw) (s : State) :
    parseResp raw s = raise .checksumError (foldChk (raw.take (raw.length - 1)) s) := by
  rcases parseResp_cases raw s with ⟨h, -⟩ | ⟨-, -, e⟩ | ⟨-, h, -⟩ | ⟨-, h, -⟩
  · exact absurd h hh
  · exact e
  all_goals exact absurd hc h

theorem parseResp_of_badMarkers (hh : ¬ BadHeader raw) (hc : ¬ BadChecksum raw) (hm : BadMarkers raw) (s : State) :
    parseResp raw s = raise .formatError (foldChk (raw.take (raw.length - 1)) s) := by
  rcases parseResp_cases raw s with ⟨h, -⟩ | ⟨-, h, -⟩ | ⟨-, -, -, e⟩ | ⟨-, -, h, -⟩
  · exact absurd h hh
  · exact absurd h hc
  · exact e
  · exact absurd hm h

/-- Input that passes the three tests is a frame: PARSE_RESP ends Ok on it, in any state (40_frame_codec R126). -/
theorem wellFormedRsp_of_tests (hh : ¬ BadHeader raw) (hc : ¬ BadChecksum raw) (hm : ¬ BadMarkers raw) (s : State) :
    WellFormedRsp raw := by
  rcases parseResp_cases raw s with ⟨h, -⟩ | ⟨-, h, -⟩ | ⟨-, -, h, -⟩ | ⟨-, -, -, e⟩
  · exact absurd h hh
  · exact absurd h hc
  · exact absurd h hm
  · exact (parseResp_eq_ok e).1

end

/-- Settles O17, a clause for each of the three tests and one for input that passes them all. -/
theorem parseFailures : Obligations.ParseFailures := by
  intro raw s hb
  refine ⟨fun hh => ?header, fun hh hc => ?checksum, fun hh hc hm => ?markers,
    fun hh hc hm => wellFormedRsp_of_tests hh hc hm s⟩
  case header => exact exec_failedWith hb rfl hb (congrArg (·.give .bytes) (parseResp_of_badHeader hh (beginOp s)))
  case checksum =>
    exact exec_failedWith hb rfl hb (congrArg (·.give .bytes) (parseResp_of_badChecksum hh hc (beginOp s)))
  case markers =>
    exact exec_failedWith hb rfl hb (congrArg (·.give .bytes) (parseResp_of_badMarkers hh hc hm (beginOp s)))

/-! ### READ_CODE (60_exceptions R212, R224) -/

/-- Settles O23: `readCode_exhausted` and `readCode_ioErr`; reading and the start of an operation write different
fields. -/
theorem readCodeFailures : Obligations.ReadCodeFailures := by
  intro s n rest hb ho
  refine ⟨fun hr => ?exhausted, fun hn hr => ?ioErr⟩
  case exhausted =>
    have hread := readCode_exhausted (s := beginOp s) ho hr
    exact exec_failedWith hb rfl hb (congrArg (·.give .codeClass) hread)
  case ioErr =>
    have hread := readCode_ioErr (s := beginOp s) ho hn hr
    exact exec_failedWith hb rfl hb (congrArg (·.give .codeClass) hread)

/-! ### READ_DATA (60_exceptions R212, R224) -/

/-- READ_DATA's loop at a read that answers IoErr, whatever is in the buffer (41_handshake_engine R146). -/
theorem readDataLoop_ioErr (n : Nat) {s : State} {rs : List ReadAnswer} (h : s.reads = .ioErr :: rs) :
    readDataLoop (n + 1) s = raise .ioError
      { s with
        att := s.att + 1
        reads := rs
        trace := s.trace ++ [⟨s.phase, .got s.params.dataReadCap .ioErr⟩] } := by
  obtain ⟨ha, hs⟩ := portRead_ioErr (cap := s.params.dataReadCap) (s := countAttempt s) h
  simp only [readDataLoop, countAttempt_params, ha, hs]
  rfl

/-- Settles O25: `readData_chunks` leaves no read in the one case, and in the other a read that answers IoErr. -/
theorem readDataFailures : Obligations.ReadDataFailures := by
  intro s cs rs hno
  refine ⟨fun ⟨hb, ho, hr, hshort⟩ hl => ⟨?exhausted, rxBytes_accumulated s cs rs⟩,
    fun ⟨hb, ho, hr, hshort⟩ hl => ?ioErr⟩
  case exhausted =>
    have hread : readData (beginOp s) = raise .retryExhausted (accumulated (beginOp s) cs rs) :=
      readData_chunks (s := beginOp s) ho hr hshort (m := 0) hl.symm hno
    exact exec_failedWith hb rfl hb (congrArg (·.give .bytes) hread)
  case ioErr =>
    obtain ⟨m, hm⟩ := Nat.exists_eq_add_of_lt hl
    have hread := (readData_chunks (s := beginOp s) ho hr hshort (m := m + 1) hm hno).trans (readDataLoop_ioErr m rfl)
    exact exec_failedWith hb rfl hb (congrArg (·.give .bytes) hread)

/-! ### RESP_CYCLE (60_exceptions R215, R216) -/

/-- A code byte has the class Ack only as 0x06 (30_encoding R91). -/
theorem classify_ne_ack {b : Byte} (h : b ≠ 0x06) : classify b ≠ .ack := by
  rcases classify_cases b with ⟨hb, -⟩ | ⟨-, e⟩ | ⟨-, e⟩ | ⟨-, -, -, e⟩
  · exact absurd hb h
  all_goals simp [e]

/-- A code byte has the class Eot only as 0x04 (30_encoding R91). -/
theorem classify_ne_eot {b : Byte} (h : b ≠ 0x04) : classify b ≠ .eot := by
  rcases classify_cases b with ⟨-, e⟩ | ⟨-, e⟩ | ⟨hb, -⟩ | ⟨-, -, -, e⟩
  case inr.inr.inl => exact absurd hb h
  all_goals simp [e]

/-- Settles O30: READ_CODE finds the byte, and RESP_CYCLE ends at its first test. -/
theorem notAckEndsTheCycle : Obligations.NotAckEndsTheCycle := by
  intro s n b rest hb ho hn hne hr
  have hcode := readCode_byte (s := setPhase .awaitingAck (beginOp s)) ho hn (more := []) hr
  have hcycle := respCycle_of_notAck (s := beginOp s) ho hcode (classify_ne_ack hne)
  exact exec_failedWith hb rfl hb (congrArg (·.give .bytes) hcycle)

/-- RESP_CYCLE with ACK behind it and the frame of payload `q` next, before the answers `rs`
(41_handshake_engine R149). -/
def frameNext (s : State) (q : List Byte) (rs : List ReadAnswer) : State :=
  setPhase .awaitingData (codeRead (setPhase .awaitingAck s) 0 0x06 (.bytes (rspFrame q) :: rs))

/-- RESP_CYCLE about to read its second code: that frame has come in one read, and the write of the acknowledgment has
answered `a` (41_handshake_engine R149). -/
def acknowledged (s : State) (q : List Byte) (a : WriteAnswer) (rs : List ReadAnswer) (ws : List WriteAnswer) : State :=
  setPhase .awaitingEot (ackWritten (frameRead (frameNext s q rs) q rs) a ws)

/-- RESP_CYCLE whose second code is not EOT (60_exceptions R216). -/
theorem respCycle_notEot {s : State} (ho : s.connOpen = true) {q : List Byte} {b : Byte} {a : WriteAnswer}
    {rs : List ReadAnswer} {ws : List WriteAnswer}
    (hr : s.reads = .bytes [0x06] :: .bytes (rspFrame q) :: .bytes [b] :: rs)
    (hl : q.length + 5 ≤ s.params.dataReadCap) (hw : s.writes = a :: ws) (hne : b ≠ 0x04) :
    respCycle s = raise .responseNotEot (codeRead (acknowledged s q a (.bytes [b] :: rs) ws) 0 b rs) := by
  have hm : 0 < s.params.maxReadAttempts := Nat.succ_pos _
  have hack := readCode_byte (s := setPhase .awaitingAck s) ho hm (more := []) hr
  have hdata := readData_frame (s := frameNext s q (.bytes [b] :: rs)) ho rfl hl
  have hemit := emitAck_answered (s := frameRead (frameNext s q (.bytes [b] :: rs)) q (.bytes [b] :: rs)) ho hw
  have hcode := readCode_byte (s := acknowledged s q a (.bytes [b] :: rs) ws) ho hm (more := []) rfl
  rw [respCycle_of_acknowledged ho hack hdata hemit, ← acknowledged, hcode, Res.bind_ok, if_pos (classify_ne_eot hne)]
  rfl

/-- Settles O31: `respCycle_notEot`; its four transactions are those of its four steps. -/
theorem notEotEndsTheCycle : Obligations.NotEotEndsTheCycle := by
  intro s q b a rs ws hb ho hl hne hr hw
  have hcycle := respCycle_notEot (s := beginOp s) ho hr hl hw hne
  refine ⟨failedWith (codeRead (acknowledged s q a (.bytes [b] :: rs) ws) 0 b rs) .responseNotEot,
    exec_failedWith hb rfl hb (congrArg (·.give .bytes) hcycle), rfl, rfl, rfl, rfl, ?_⟩
  simp [failedWith, codeRead, acknowledged, ackWritten, frameNext, frameRead]

end Sys2Proof.Machine
end

section
/-! The family 60_exceptions, what holds of every failure: its kind is in its operation's row of the table
(60_exceptions R219 to R221), and ERR, PHASE and BUSY show it (60_exceptions R226, R228). -/

namespace Sys2Proof.Machine

/-! ### The table of failures (60_exceptions R221) -/

/-- A kind that ERR shows in `t` is in the row of `i`, if `s` did not show it already. -/
def ErrInRow (i : Instr) (s t : State) : Prop := ∀ k, t.err = some k → s.err = some k ∨ mayFail i k = true

theorem ErrInRow.of_err {i : Instr} {s t : State} (h : t.err = s.err) : ErrInRow i s t :=
  fun _ hk => .inl (h ▸ hk)

theorem ErrInRow.of_raise {i : Instr} {s t : State} {k : ErrKind} (h : t.err = some k) (hk : mayFail i k = true) :
    ErrInRow i s t := fun k' hk' => by
  obtain rfl : k = k' := Option.some.inj (h.symm.trans hk')
  exact .inr hk

/-- Every primitive action of an operation but a raise keeps ERR, and what it raises is in its row. -/
theorem prims_errInRow (i : Instr) : Prims i (ErrInRow i) where
  refl _ := .of_err rfl
  trans f g k hk := (g k hk).elim (f k) .inr
  raising _ _ hk := .of_raise rfl hk
  phase _ _ _ := .of_err rfl
  chk _ _ _ := .of_err rfl
  paylen _ _ _ := .of_err rfl
  request _ _ _ _ _ := .of_err rfl
  logTap _ _ _ := .of_err rfl
  noteAck a s _ := .of_err (noteAckWrite_err a s)
  writeRequest _ _ _ _ _ := .of_err rfl
  writeAck _ _ _ := .of_err rfl
  startCode _ _ := .of_err rfl
  latch _ _ _ := .of_err rfl
  startData _ _ := .of_err rfl
  appendRx _ _ _ := .of_err rfl
  attempt _ _ := .of_err rfl
  read _ _ _ _ := .of_err rfl
  arrive _ _ := .of_err rfl
  opening path baud log s h _ := by
    subst h
    rcases connOpenBody_cases path baud log s with ⟨-, e⟩ | ⟨-, e⟩ <;> rw [e]
    · exact .of_err rfl
    · exact .of_raise rfl rfl
  closing _ _ _ := .of_err rfl

/-- Settles O47: an operation starts with ERR None, and a delivered failure is the one ERR shows. -/
theorem failureKindsTable : Obligations.FailureKindsTable := by
  intro i s t k e hk
  obtain ⟨r, hrow, hends, rfl⟩ := (prims_errInRow i).exec e
  cases r with
  | ok v u => cases hk
  | fail k' u =>
    cases hk
    obtain ⟨herr, -⟩ := hends
    exact (hrow k herr).resolve_left (by simp)

/-! ### ERR, PHASE and BUSY (60_exceptions R226, R228) -/

theorem errNumber_of_some {s : State} {k : ErrKind} (h : s.err = some k) : errNumber s = k.number := by
  rw [errNumber, h]

theorem errNumber_of_none {s : State} (h : s.err = none) : errNumber s = 0 := by
  rw [errNumber, h]

/-- Settles O48: an operation starts with ERR None and ends as `bodyOf_ends` says; delivery clears BUSY. -/
theorem failureEntry : Obligations.FailureEntry := by
  intro i s t e
  obtain ⟨-, -, rfl⟩ := exec_eq_next.mp e
  have hends := bodyOf_ends i (beginOp s)
  cases hr : bodyOf i (beginOp s) with
  | ok v u =>
    rw [hr] at hends
    have herr : (deliver (.ok v u)).err = none := hends
    exact ⟨rfl, fun k hk => by simp [deliver_ok] at hk, fun _ _ => ⟨herr, errNumber_of_none herr⟩⟩
  | fail k u =>
    rw [hr] at hends
    obtain ⟨herr, hphase⟩ := hends
    refine ⟨rfl, fun k' hk => ?_, fun v hv => by simp [deliver_fail] at hv⟩
    obtain rfl : k = k' := by simpa [deliver_fail] using hk
    exact ⟨herr, errNumber_of_some herr, hphase⟩

end Sys2Proof.Machine
end

section
/-! The family 70_reset_and_hazards: the reset event in any state and what runs after it (70_reset_and_hazards R250),
and a frame with payload bytes of 0x20 or above however the port splits it (70_reset_and_hazards R256). -/

namespace Sys2Proof.Machine

/-! ### The reset event (70_reset_and_hazards R250) -/

/-- A reset presented next is taken in any state; nothing of the state is tested. -/
theorem step_of_engineReset {s : State} {rest : List Input} (h : s.inbox = .engineReset :: rest) :
    step s = .next (resetEngine { s with inbox := rest }) := by
  simp [step, fetch, h]

/-- The mark of a reset is no transaction. -/
theorem transactions_resetEngine (s : State) :
    (resetEngine s).trace.filter isTransaction = s.trace.filter isTransaction := by
  simp [isTransaction]

/-- A reset sends nothing. -/
theorem sentBytes_resetEngine (s : State) : sentBytes (resetEngine s).trace = sentBytes s.trace := by
  simp [sentBytes_append, sentBytes]

/-- A reset takes nothing from the receive stream. -/
theorem receivedBytes_resetEngine (s : State) : receivedBytes (resetEngine s).trace = receivedBytes s.trace := by
  simp [receivedBytes_append, receivedBytes]

/-- A reset keeps the parameters, so what fits before it fits after it. -/
theorem requestFits_resetEngine {i : Instr} {s : State} : requestFits i (resetEngine s) ↔ requestFits i s := Iff.rfl

/-- After a reset every well-formed operation whose request fits ends with a result: the engine is not busy, and closed,
so that CONN_OPEN is not refused either. -/
theorem exec_after_reset {i : Instr} {s : State} (hw : i.wellFormed = true) (hf : requestFits i s) :
    ∃ u, exec i (resetEngine s) = .next u ∧ u.result ≠ none :=
  acceptedOperationsEnd.1 i (resetEngine s) rfl hw (requestFits_resetEngine.mpr hf) fun _ => rfl

/-- After a reset an operation that touches the port finds the connection closed. -/
theorem exec_checking_after_reset {i : Instr} {s : State} (hi : checksConnection i = true) (hw : i.wellFormed = true)
    (hf : requestFits i s) : exec i (resetEngine s) = .next (failedWith (resetEngine s) .connectionClosed) :=
  closedConnectionFailsFast i (resetEngine s) hi rfl rfl hw (requestFits_resetEngine.mpr hf)

/-- After a reset CONN_OPEN opens the connection when the port answers Ok. -/
theorem exec_connOpen_after_reset {s : State} {os : List IoAnswer} (h : s.opens = .ok :: os) (path : List Byte)
    (baud : Nat) (log : Bool) : ∃ u, exec (.connOpen path baud log) (resetEngine s) = .next u ∧
      u.connOpen = true ∧ u.result = some (.ok .unit) := by
  obtain ⟨-, hok, -⟩ := connOpenOutcomes path baud log (resetEngine s) os rfl
  exact ⟨_, hok rfl h, rfl, rfl⟩

/-- Settles O60: the values are those `resetEngine` writes, its mark in the record is no transaction, and what it leaves
is an engine that is closed and not busy. -/
theorem resetEvent : Obligations.ResetEvent := by
  intro s rest h
  have hvalues : errNumber (resetEngine { s with inbox := rest }) = 0 := errNumber_of_none rfl
  exact ⟨resetEngine { s with inbox := rest }, step_of_engineReset h,
    rfl, rfl, hvalues, rfl, rfl, rfl, rfl, rfl, rfl, rfl, rfl, rfl, rfl, rfl, rfl, rfl,
    transactions_resetEngine _, sentBytes_resetEngine _, receivedBytes_resetEngine _,
    fun _ hw hf => ⟨exec_after_reset hw hf, fun hi => exec_checking_after_reset hi hw hf⟩,
    fun path baud log _ ho => exec_connOpen_after_reset (s := { s with inbox := rest }) ho path baud log⟩

/-! ### No early tail in a printable frame (41_handshake_engine R147, 70_reset_and_hazards R256) -/

/-- The bytes of a frame before its TextEnd. -/
theorem rspFrame_getElem?_of_lt {q : List Byte} {i : Nat} (h : i < q.length + 3) :
    (rspFrame q)[i]? = ([0x01, 0x30, 0x02] ++ q)[i]? := by
  have hlen : i < ([0x01, 0x30, 0x02] ++ q : List Byte).length := by
    simp only [List.length_append, List.length_cons, List.length_nil]
    omega
  rw [rspFrame, List.append_assoc]
  exact List.getElem?_append_left hlen

/-- In a frame whose payload bytes are 0x20 or above, no byte before the TextEnd has its value. -/
theorem textEnd_notMem_of_printable {q : List Byte} (hq : ∀ b ∈ q, 0x20 ≤ b.toNat) :
    (0x03 : Byte) ∉ [0x01, 0x30, 0x02] ++ q := by
  have hpayload : (0x03 : Byte) ∉ q := fun h => absurd (hq _ h) (by decide)
  simpa using hpayload

/-- The tail condition fails on such a frame cut short: the byte it tests stands before the TextEnd. -/
theorem tailHolds_of_cut_short {q a b : List Byte} (hq : ∀ x ∈ q, 0x20 ≤ x.toNat) (h : a ++ b = rspFrame q)
    (hb : b ≠ []) : tailHolds a = false := by
  by_contra htail
  obtain ⟨hlen, htext⟩ : 2 ≤ a.length ∧ a[a.length - 2]? = some 0x03 := by simpa [tailHolds] using htail
  have hsum : a.length + b.length = q.length + 5 := by rw [← List.length_append, h, rspFrame_length]
  have hpos : 0 < b.length := List.length_pos_iff.mpr hb
  have hbyte : ([0x01, 0x30, 0x02] ++ q)[a.length - 2]? = some 0x03 := by
    rw [← rspFrame_getElem?_of_lt (by omega), ← h, List.getElem?_append_left (by omega), htext]
  exact textEnd_notMem_of_printable hq (List.mem_of_getElem? hbyte)

/-- On a whole frame the tail condition holds. -/
theorem tailHolds_rspFrame (q : List Byte) : tailHolds (rspFrame q) = true := by
  obtain ⟨-, -, -, -, htext, -⟩ := wellFormed_rspFrame q
  rw [tailHolds, htext]
  simp

/-- However such a frame is split, before the last read it is still cut short, if the last is not empty. -/
theorem noTailWithin_of_chunks {q : List Byte} {pre : List (List Byte)} {last : List Byte}
    (hq : ∀ b ∈ q, 0x20 ≤ b.toNat) (h : (pre ++ [last]).flatten = rspFrame q) (hlast : last ≠ []) :
    NoTailWithin (pre ++ [last]) pre.length := by
  intro k hk
  refine tailHolds_of_cut_short (b := ((pre ++ [last]).drop k).flatten) hq ?whole ?rest
  case whole => rw [← List.flatten_append, List.take_append_drop, h]
  case rest =>
    rw [List.drop_append_of_le_length hk]
    simp [hlast]

/-- PARSE_RESP of the frame of payload `q` (40_frame_codec R124). -/
theorem exec_parseResp_rspFrame {s : State} (hb : s.busy = false) (q : List Byte) :
    exec (.parseResp (rspFrame q)) s =
      .next (ended { s with chk := checksum ([0x01, 0x30, 0x02] ++ q ++ [0x03]), paylen := q.length } (.bytes q)) := by
  rw [exec_parseResp_wellFormed hb (wellFormed_rspFrame q), rspFrame_payload, rspFrame_take_init, rspFrame_length]
  rfl

/-- Settles O26: no read before the last leaves the tail condition, so READ_DATA parses what all of them returned, the
whole frame. -/
theorem anyChunkingOfPrintableFrames : Obligations.AnyChunkingOfPrintableFrames := by
  intro s q pre last rs hnext hframe hlast hl hq
  have hno : NoTailWithin (pre ++ [last]) ((pre ++ [last]).length - 1) := by
    simpa using noTailWithin_of_chunks hq hframe hlast
  have htail : tailHolds (pre ++ [last]).flatten = true := by rw [hframe, tailHolds_rspFrame]
  rw [readDataParsesAtTheFirstTail s _ rs hnext hl hno htail, hframe]
  exact exec_parseResp_rspFrame (s := accumulated s (pre ++ [last]) rs) hnext.notBusy q

end Sys2Proof.Machine
end
